-- ==== Sys2Proof/Word.lean ====
section
/-! DEFINITION. The word types of the block. Rule R13: every value is an unsigned bit vector of a stated width, bit 0
the least significant; there is no signed quantity anywhere in the block. -/

namespace Sys2Proof

/-- A single bit or line level (rule R13). -/
abbrev Bit := BitVec 1

/-- An 8-bit value: a bus byte, a character code, a text byte, a register number (rule R103). -/
abbrev Byte := BitVec 8

/-- A 16-bit value: a coordinate, a colour, a divisor (rules R11, R103). -/
abbrev Half := BitVec 16

/-- The 72-bit command word (rule R101). -/
abbrev CmdWord := BitVec 72

/-- The 24-bit response word (rule R110). -/
abbrev RspWord := BitVec 24

end Sys2Proof
end

