-- ==== Sys2Proof/Syntax.lean ====
section
/-! DEFINITION. The commands of BTR-CMD version 1 (rule R104), one constructor per row of spec/opcode_table.json, with
the operands of its format (rule R102), and the pseudo-instructions of rule R114. -/

namespace Sys2Proof

/-- The 22 commands. Operands have exactly the width of their field (rule R103). -/
inductive Instr where
  | nop                               -- NOP, R251
  | rdReg (r : Byte)                  -- RD_REG, R252
  | wrReg (r : Byte) (v : Half)       -- WR_REG, R253
  | txtWr (a v : Byte)                -- TXT_WR, R254
  | txtRd (a : Byte)                  -- TXT_RD, R255
  | i2cStart                          -- I2C_START, R133
  | i2cRestart                        -- I2C_RESTART, R134
  | i2cSend (b : Byte)                -- I2C_SEND, R135
  | i2cRecv                           -- I2C_RECV, R136
  | i2cAck (l : Bit)                  -- I2C_ACK, R137
  | i2cStop                           -- I2C_STOP, R138
  | spiXfer (b : Byte)                -- SPI_XFER, R171
  | spiCs (l : Bit)                   -- SPI_CS, R172
  | spiDc (l : Bit)                   -- SPI_DC, R173
  | lcdCmd (b : Byte)                 -- LCD_CMD, R191
  | lcdData (b : Byte)                -- LCD_DATA, R192
  | lcdData16 (h : Half)              -- LCD_DATA16, R193
  | setWindow (x0 y0 x1 y1 : Half)    -- SET_WINDOW, R194
  | writePixel (x y c : Half)         -- WRITE_PIXEL, R195
  | clear (h : Half)                  -- CLEAR, R196
  | drawChar (x y : Half) (s : Byte)  -- DRAW_CHAR, R226
  | drawString (x y : Half) (p : Byte) -- DRAW_STRING, R230
  deriving DecidableEq, Repr

/-- The mnemonic of a command in spec/opcode_table.json (rule R104). -/
def Instr.mnemonic : Instr → String
  | .nop => "NOP"
  | .rdReg _ => "RD_REG"
  | .wrReg _ _ => "WR_REG"
  | .txtWr _ _ => "TXT_WR"
  | .txtRd _ => "TXT_RD"
  | .i2cStart => "I2C_START"
  | .i2cRestart => "I2C_RESTART"
  | .i2cSend _ => "I2C_SEND"
  | .i2cRecv => "I2C_RECV"
  | .i2cAck _ => "I2C_ACK"
  | .i2cStop => "I2C_STOP"
  | .spiXfer _ => "SPI_XFER"
  | .spiCs _ => "SPI_CS"
  | .spiDc _ => "SPI_DC"
  | .lcdCmd _ => "LCD_CMD"
  | .lcdData _ => "LCD_DATA"
  | .lcdData16 _ => "LCD_DATA16"
  | .setWindow _ _ _ _ => "SET_WINDOW"
  | .writePixel _ _ _ => "WRITE_PIXEL"
  | .clear _ => "CLEAR"
  | .drawChar _ _ _ => "DRAW_CHAR"
  | .drawString _ _ _ => "DRAW_STRING"

/-- The pseudo-instructions of rule R114. -/
inductive Pseudo where
  | i2cAddr (a7 : BitVec 7) (rw : Bit)
  | i2cMack
  | i2cNack
  | csAssert
  | csRelease
  | setFg (c : Half)
  | setBg (c : Half)
  | txtStr (a : Byte) (str : List Byte)
  deriving DecidableEq, Repr

/-- The TXT_WR commands that store `str` from index `a` on (the characters of TXT_STR, rule R114). -/
def Pseudo.store (a : Byte) : List Byte → List Instr
  | [] => []
  | c :: str => .txtWr a c :: Pseudo.store (a + 1#8) str

/-- The expansion of rule R114; `none` is the assembly error of TXT_STR, `a + len(s) > 255`. -/
def Pseudo.expand : Pseudo → Option (List Instr)
  | .i2cAddr a7 rw => some [.i2cSend (a7 ++ rw)]
  | .i2cMack => some [.i2cAck 0#1]
  | .i2cNack => some [.i2cAck 1#1]
  | .csAssert => some [.spiCs 0#1]
  | .csRelease => some [.spiCs 1#1]
  | .setFg c => some [.wrReg 3#8 c]
  | .setBg c => some [.wrReg 4#8 c]
  | .txtStr a str =>
    if a.toNat + str.length > 255 then none else some (Pseudo.store a (str ++ [0x00#8]))

end Sys2Proof
end

