-- ==== Sys2Proof/WellFormed.lean ====
section
/-! DEFINITION. Which commands the operand checks of rule R281 (3) that look at the command alone let pass: the
register number of RD_REG and WR_REG (rule R271 c, d) and the character code of DRAW_CHAR (rule R273). Every other
operand value is legal (rule R107). A command that is not well-formed still decodes and still executes: its effect is
the fault those rules name. -/

namespace Sys2Proof

/-- The register numbers RD_REG may name (rules R52, R252). -/
def readable (r : Byte) : Bool := r.toNat ≤ 8

/-- The register numbers WR_REG may name (rules R52, R253). -/
def writable (r : Byte) : Bool := r = 1#8 || r = 2#8 || r = 3#8 || r = 4#8

/-- The character codes that have a glyph (rules R221, R223). -/
def drawable (s : Byte) : Bool := 32 ≤ s.toNat && s.toNat ≤ 126

/-- The operand checks on the command alone (rule R281 (3), rule R107). -/
def Instr.wellFormed : Instr → Bool
  | .nop => true
  | .rdReg r => readable r
  | .wrReg r _ => writable r
  | .txtWr _ _ => true
  | .txtRd _ => true
  | .i2cStart => true
  | .i2cRestart => true
  | .i2cSend _ => true
  | .i2cRecv => true
  | .i2cAck _ => true
  | .i2cStop => true
  | .spiXfer _ => true
  | .spiCs _ => true
  | .spiDc _ => true
  | .lcdCmd _ => true
  | .lcdData _ => true
  | .lcdData16 _ => true
  | .setWindow _ _ _ _ => true
  | .writePixel _ _ _ => true
  | .clear _ => true
  | .drawChar _ _ s => drawable s
  | .drawString _ _ _ => true

end Sys2Proof
end

