-- ==== Sys2Proof/Decode.lean ====
section
/-! DEFINITION. Decoding of the 72-bit command word (rules R101 to R106) and its encoding. The decoder looks the opcode
up in a table of rows written as rule R104 writes them, then tests the reserved bits of the row's format (rule R102). -/

namespace Sys2Proof

/-- The twelve operand formats of rule R102. -/
inductive Format where
  | N | B | L | H | W | P | C | S | RR | RW | TW | TR
  deriving DecidableEq, Repr

/-- The reserved bits of each format, a 1 at every reserved bit of the 72-bit word (rule R102). -/
def Format.reserved : Format → CmdWord
  | .N  => 0x00FFFFFFFFFFFFFFFF#72   -- 63:0
  | .B  => 0x00FFFFFFFFFFFFFF00#72   -- 63:8
  | .L  => 0x00FFFFFFFFFFFFFFFE#72   -- 63:1
  | .H  => 0x00FFFFFFFFFFFF0000#72   -- 63:16
  | .W  => 0x000000000000000000#72   -- none
  | .P  => 0x00FFFF000000000000#72   -- 63:48
  | .C  => 0x00FFFFFF0000000000#72   -- 63:40
  | .S  => 0x00FFFFFF0000000000#72   -- 63:40
  | .RR => 0x00FFFFFFFFFF00FFFF#72   -- 63:24 and 15:0
  | .RW => 0x00FFFFFFFFFF000000#72   -- 63:24
  | .TW => 0x00FFFFFFFFFFFF0000#72   -- 63:16
  | .TR => 0x00FFFFFFFFFFFF00FF#72   -- 63:16 and 7:0

/-- A field of the command word: `width` bits from bit `lo` up (rules R13, R103). -/
def field (lo width : Nat) (w : CmdWord) : BitVec width := w.extractLsb' lo width

/-- One row of the opcode map of rule R104: opcode, format, and the command its operand fields give (rule R102). -/
structure Row where
  op     : Byte
  format : Format
  build  : CmdWord → Instr

/-- The opcode map of rule R104. -/
def opTable : List Row :=
  [ ⟨0x00, .N,  fun _ => .nop⟩,
    ⟨0x01, .RR, fun w => .rdReg (field 16 8 w)⟩,
    ⟨0x02, .RW, fun w => .wrReg (field 16 8 w) (field 0 16 w)⟩,
    ⟨0x03, .TW, fun w => .txtWr (field 8 8 w) (field 0 8 w)⟩,
    ⟨0x04, .TR, fun w => .txtRd (field 8 8 w)⟩,
    ⟨0x10, .N,  fun _ => .i2cStart⟩,
    ⟨0x11, .N,  fun _ => .i2cRestart⟩,
    ⟨0x12, .B,  fun w => .i2cSend (field 0 8 w)⟩,
    ⟨0x13, .N,  fun _ => .i2cRecv⟩,
    ⟨0x14, .L,  fun w => .i2cAck (field 0 1 w)⟩,
    ⟨0x15, .N,  fun _ => .i2cStop⟩,
    ⟨0x20, .B,  fun w => .spiXfer (field 0 8 w)⟩,
    ⟨0x21, .L,  fun w => .spiCs (field 0 1 w)⟩,
    ⟨0x22, .L,  fun w => .spiDc (field 0 1 w)⟩,
    ⟨0x23, .B,  fun w => .lcdCmd (field 0 8 w)⟩,
    ⟨0x24, .B,  fun w => .lcdData (field 0 8 w)⟩,
    ⟨0x25, .H,  fun w => .lcdData16 (field 0 16 w)⟩,
    ⟨0x26, .W,  fun w => .setWindow (field 48 16 w) (field 32 16 w) (field 16 16 w) (field 0 16 w)⟩,
    ⟨0x27, .P,  fun w => .writePixel (field 32 16 w) (field 16 16 w) (field 0 16 w)⟩,
    ⟨0x28, .H,  fun w => .clear (field 0 16 w)⟩,
    ⟨0x30, .C,  fun w => .drawChar (field 24 16 w) (field 8 16 w) (field 0 8 w)⟩,
    ⟨0x31, .S,  fun w => .drawString (field 24 16 w) (field 8 16 w) (field 0 8 w)⟩ ]

/-- Why a word is illegal (rule R106). -/
inductive DecodeError where
  | unknownOpcode   -- the opcode is not one of the 22 of rule R104
  | reservedBit     -- a reserved bit of the command's format is 1
  deriving DecidableEq, Repr

/-- The row of an opcode, if it has one (rule R105, steps 1 and 2). -/
def rowOf (op : Byte) : Option Row := opTable.find? (fun r => r.op == op)

/-- Decoding, total on every 72-bit word (rule R105). -/
def decode (w : CmdWord) : Except DecodeError Instr :=
  match rowOf (field 64 8 w) with
  | none => .error .unknownOpcode
  | some r => if w &&& r.format.reserved = 0#72 then .ok (r.build w) else .error .reservedBit

/-- The opcode byte of a command (rule R104). -/
def Instr.opcode : Instr → Byte
  | .nop => 0x00
  | .rdReg _ => 0x01
  | .wrReg _ _ => 0x02
  | .txtWr _ _ => 0x03
  | .txtRd _ => 0x04
  | .i2cStart => 0x10
  | .i2cRestart => 0x11
  | .i2cSend _ => 0x12
  | .i2cRecv => 0x13
  | .i2cAck _ => 0x14
  | .i2cStop => 0x15
  | .spiXfer _ => 0x20
  | .spiCs _ => 0x21
  | .spiDc _ => 0x22
  | .lcdCmd _ => 0x23
  | .lcdData _ => 0x24
  | .lcdData16 _ => 0x25
  | .setWindow _ _ _ _ => 0x26
  | .writePixel _ _ _ => 0x27
  | .clear _ => 0x28
  | .drawChar _ _ _ => 0x30
  | .drawString _ _ _ => 0x31

/-- The 64-bit operand field of a command, reserved bits 0 (rule R102). -/
def Instr.operands : Instr → BitVec 64
  | .nop => 0#64
  | .rdReg r => 0#40 ++ r ++ 0#16
  | .wrReg r v => 0#40 ++ r ++ v
  | .txtWr a v => 0#48 ++ a ++ v
  | .txtRd a => 0#48 ++ a ++ 0#8
  | .i2cStart => 0#64
  | .i2cRestart => 0#64
  | .i2cSend b => 0#56 ++ b
  | .i2cRecv => 0#64
  | .i2cAck l => 0#63 ++ l
  | .i2cStop => 0#64
  | .spiXfer b => 0#56 ++ b
  | .spiCs l => 0#63 ++ l
  | .spiDc l => 0#63 ++ l
  | .lcdCmd b => 0#56 ++ b
  | .lcdData b => 0#56 ++ b
  | .lcdData16 h => 0#48 ++ h
  | .setWindow x0 y0 x1 y1 => x0 ++ y0 ++ x1 ++ y1
  | .writePixel x y c => 0#16 ++ x ++ y ++ c
  | .clear h => 0#48 ++ h
  | .drawChar x y s => 0#24 ++ x ++ y ++ s
  | .drawString x y p => 0#24 ++ x ++ y ++ p

/-- The command word of a command: opcode in bits 71:64, operand field in bits 63:0 (rule R101). -/
def encode (i : Instr) : CmdWord := i.opcode ++ i.operands

/-- The word of an opcode-table row's `nbits` bits: every bit above `nbits` is 0. The table's bit numbers are those of
the 72-bit command word (rule R101), so the word is the number itself. -/
def tableWord (nbits w : Nat) : CmdWord := BitVec.ofNat 72 (w % 2 ^ nbits)

/-- What the decoder reads from an instruction whose bits are `w`, numbered as spec/opcode_table.json numbers them. -/
def decodeTableWord (nbits w : Nat) : Option Instr := (decode (tableWord nbits w)).toOption

end Sys2Proof
end

