-- ==== Sys2Proof/Config.lean ====
section
/-! DEFINITION. What one implementation fixes, and the free values. The parameters of rule R11, the bus events of rule
R7 (the environment's answers depend on them), and the environment oracle of rule R9. An `opaque` constant below has no
body: nothing can evaluate it, so whatever is proved holds for every value it may have. -/

namespace Sys2Proof

/-- The bus events of rule R7: what the block did to its two buses, plus the internal marker PIX. -/
inductive Event where
  | iStart                      -- a START condition was put on the I2C bus
  | iRestart                    -- a repeated START condition
  | iTx (b : Byte) (a : Bit)    -- byte b was shifted out; the acknowledge slot read a (0 = acknowledged)
  | iRx (d : Byte)              -- byte d was shifted in from the slave
  | iMack (k : Bit)             -- the master drove the acknowledge slot with k
  | iStop                       -- a STOP condition
  | sCs (l : Bit)               -- the chip-select line was assigned l (0 = asserted)
  | sDc (l : Bit)               -- the command/data-select line was assigned l (0 = command)
  | sXfer (o m : Byte)          -- o went out on MOSI while m came in on MISO
  | pix (x y c : Half)          -- the pixel streamer was asked to write colour c at (x, y)
  deriving DecidableEq, Repr

/-- One answer of the environment to one `await`: the four questions of rule R9 answered together, and what it does with
the clock line of the I2C bus at pin level (rules R150 to R156). An `await` that never completes uses its answer up like
any other (DESIGN CHOICE, log 1). -/
structure EnvAnswer where
  done    : Bool   -- EnvDone: does the bus operation now in progress ever complete
  ack     : Bit    -- EnvAck: the level of the acknowledge slot
  data    : Byte   -- EnvData: the byte a slave returns to a receive
  miso    : Byte   -- EnvMiso: the byte the SPI slave returns
  stall   : Nat    -- the wait at which an I2C operation that never completes is held, at pin level
  stretch : List Bool   -- the waits before which it holds SCL low for a while, at pin level
  deriving DecidableEq, Repr

namespace Config

/-- EnvDone of rule R9, a free value: whether the bus operation in progress at this trace, in this run since the
`epoch`-th reset, ever completes. -/
opaque envDone (epoch : Nat) (trace : List Event) : Bool

/-- EnvAck of rule R9, a free value: the level of the acknowledge slot. -/
opaque envAck (epoch : Nat) (trace : List Event) : Bit

/-- EnvData of rule R9, a free value: the byte a slave returns to a receive. -/
opaque envData (epoch : Nat) (trace : List Event) : Byte

/-- EnvMiso of rule R9, a free value: the byte the SPI slave returns during a transfer. -/
opaque envMiso (epoch : Nat) (trace : List Event) : Byte

/-- Which of its `wait` steps an I2C operation that never completes is held at: a free value. -/
opaque envStall (epoch : Nat) (trace : List Event) : Nat

/-- Before which of its `wait` steps the environment holds SCL low for a while (rule R150), a free value. -/
opaque envStretch (epoch : Nat) (trace : List Event) : List Bool

/-- Contents of the text memory after a reset, a free value (rules R55, R303; 93_implementation_defined.md X9): every
byte may hold any value, fixed until it is written, and a later reset may leave other values. -/
opaque textInit (epoch : Nat) (index : Nat) : Byte

/-- The level of `rsp_word` while `rsp_valid` is 0, to which rules R100 and R301 give no value: a free value, one at each
count of resets and trace (DESIGN CHOICE, log 9). -/
opaque idleRspWord (epoch : Nat) (trace : List Event) : RspWord

/-- The level of MISO at the start of a transfer, before the slave drives its first bit, of which rule R178 says nothing: a
free value, the same at every transfer (DESIGN CHOICE, log 24). -/
opaque idleMiso : Bit

/-- SURF_W and SURF_H of rule R11: the display surface in pixels. -/
def surfW : Nat := 128
@[inherit_doc surfW] def surfH : Nat := 128

/-- CLIP_MAX of rule R11: the largest coordinate the rasterizer still draws. -/
def clipMax : Nat := 128

/-- GLYPH_FIRST and GLYPH_LAST of rule R11: the first and last character code with a glyph. -/
def glyphFirst : Nat := 32
@[inherit_doc glyphFirst] def glyphLast : Nat := 126

/-- ADV_X and ADV_Y of rule R11: the advance per character and per newline. -/
def advX : Half := 6#16
@[inherit_doc advX] def advY : Half := 10#16

/-- TERMINATOR of rule R11. -/
def terminator : Byte := 0x00#8

/-- TEXT_SIZE of rule R11. -/
def textSize : Nat := 256

end Config

/-- The glyph ROM of rule R73: 95 glyphs of five column bytes, `g[k][i]` column `i` of the glyph of code `k + 32`. -/
abbrev Glyphs := Vector (Vector Byte 5) 95

/-- The parameters of rule R11 that a claim quantifies over: constant while the machine runs. -/
structure Params where
  glyph       : Glyphs   -- GLYPH, OPEN
  cmdCaset    : Byte     -- CMD_CASET, OPEN
  cmdPaset    : Byte     -- CMD_PASET, OPEN
  cmdRamwr    : Byte     -- CMD_RAMWR, OPEN
  windowRamwr : Bool     -- WINDOW_RAMWR, decision D15: true
  clearX1     : Half     -- CLEAR_X1, decision D18: 127
  clearY1     : Half     -- CLEAR_Y1, decision D18: 127
  newline     : Byte     -- NEWLINE, decision D25: 0x0A
  spiMode     : BitVec 2 -- SPI_MODE, decision D12: 0
  spiMsbFirst : Bool     -- SPI_MSB_FIRST, decision D12: true
  deriving DecidableEq, Repr

/-- The level SCK rests at: low in SPI_MODE 0 (rule R178); bit 1 of the mode number in general (PRESUMED, log 12). -/
def Params.sckIdle (p : Params) : Bit := p.spiMode.extractLsb' 1 1

namespace Config

/-- GLYPH of rule R11, OPEN: no value the sources support (decision D21). -/
opaque glyph : Glyphs

/-- CMD_CASET, CMD_PASET and CMD_RAMWR of rule R199, OPEN (decision D16). -/
opaque cmdCaset : Byte
@[inherit_doc cmdCaset] opaque cmdPaset : Byte
@[inherit_doc cmdCaset] opaque cmdRamwr : Byte

/-- The parameters of the machine after reset: the open ones free, the decided ones at the value rule R11 gives. -/
def params : Params where
  glyph       := glyph
  cmdCaset    := cmdCaset
  cmdPaset    := cmdPaset
  cmdRamwr    := cmdRamwr
  windowRamwr := true
  clearX1     := 127#16
  clearY1     := 127#16
  newline     := 0x0A#8
  spiMode     := 0#2
  spiMsbFirst := true

/-- The environment's answer where no scripted one is left: every part a free value of the trace. -/
def freeAnswer (epoch : Nat) (trace : List Event) : EnvAnswer where
  done  := envDone epoch trace
  ack   := envAck epoch trace
  data  := envData epoch trace
  miso  := envMiso epoch trace
  stall := envStall epoch trace
  stretch := envStretch epoch trace

end Config
end Sys2Proof
end

