-- ==== Sys2Proof/Machine/State.lean ====
section
/-! DEFINITION. The state of the block (rule R30) as plain data, grouped by the unit that alone writes it (rule R30: no
register is written by more than one unit), with the value after reset (rule R55). The last four fields of State are
the model's own: the parameters, and what the outside world supplies. -/

namespace Sys2Proof.Machine

/-- The transaction state I2C_ST of the I2C bus handle (rule R33). The values 5 to 7 of the 3-bit code are never
produced, so the type has none. -/
inductive I2cSt where
  | idle | started | addressed | transferring | stopped
  deriving DecidableEq, Repr

/-- The four fault codes of rule R270. -/
inductive FaultCode where
  | illegalCmd | i2cProto | glyphRange | textOverrun
  deriving DecidableEq, Repr

/-- Hidden pin-level state of unit U1 (rule R39). -/
structure I2cPins where
  shift  : Byte        -- I2C_SHIFT, the byte being shifted
  bitcnt : BitVec 4    -- I2C_BITCNT, the bit slot, 0 to 8
  scl    : Bit         -- SCL_O, 0 pulls the clock line low
  sda    : Bit         -- SDA_O, 0 pulls the data line low
  deriving DecidableEq, Repr

/-- Unit U1, the I2C master sequencer. -/
structure I2cUnit where
  st      : I2cSt      -- I2C_ST (rule R33)
  dir     : Bit        -- I2C_DIR, 0 write, 1 read (rule R34)
  ap      : Bit        -- I2C_AP, an acknowledge is owed (rule R35)
  ackstat : Bit        -- I2C_ACKSTAT, 0 = the last byte sent was acknowledged (rule R36)
  rx      : Byte       -- I2C_RX, the last byte received (rule R37)
  div     : Half       -- I2C_DIV, the clock rate divisor (rule R38)
  pins    : I2cPins    -- hidden (rule R39)
  deriving DecidableEq, Repr

/-- Hidden pin-level state of unit U2 (rule R44). -/
structure SpiPins where
  shift  : Byte        -- SPI_SHIFT
  bitcnt : BitVec 4    -- SPI_BITCNT, 0 to 8
  sck    : Bit         -- SCK
  mosi   : Bit         -- MOSI
  deriving DecidableEq, Repr

/-- Unit U2, the SPI byte shifter and its two framing lines. -/
structure SpiUnit where
  csN  : Bit           -- CS_N, 0 = asserted (rule R40)
  dc   : Bit           -- DC, 0 command, 1 data (rule R41)
  rx   : Byte          -- SPI_RX, the last byte shifted in (rule R42)
  div  : Half          -- SPI_DIV (rule R43)
  pins : SpiPins       -- hidden (rule R44)
  deriving DecidableEq, Repr

/-- The registers of unit U3, the font rasterizer. -/
structure RasterUnit where
  fg     : Half        -- FG (rule R46)
  bg     : Half        -- BG (rule R46)
  curX   : Half        -- CUR_X (rule R47)
  curY   : Half        -- CUR_Y (rule R47)
  orgX   : Half        -- ORG_X, hidden (rule R51)
  txtPtr : Byte        -- TXT_PTR, hidden (rule R51)
  col    : BitVec 3    -- COL, hidden (rule R51)
  row    : BitVec 3    -- ROW, hidden (rule R51)
  gidx   : BitVec 7    -- GIDX, hidden (rule R51)
  deriving DecidableEq, Repr

/-- The cells of the text memory written since the last reset, addresses strictly rising (rule R72). -/
abbrev Memory := List Host.Cell

/-- What the host does at the block's ports (rules R100, R300, R313): it presents a command word, or applies reset. -/
inductive HostInput where
  | command (w : CmdWord)
  | reset
  deriving DecidableEq, Repr

/-- The state tuple of rule R30, the response port of rule R100, and the model's own four fields. -/
structure State where
  i2c    : I2cUnit
  spi    : SpiUnit
  ras    : RasterUnit
  text   : Memory            -- TEXT, the cells written since reset (rules R56, R72)
  fault  : BitVec 4          -- FAULT, 0 = none (rule R48)
  busy   : Bit               -- BUSY (rule R49)
  rsp    : Option RspWord    -- rsp_valid and rsp_word: the response the last step gave (rules R100, R110)
  trRev  : List Event        -- TR, newest event first (rules R7, R50)
  cfg    : Params            -- MODEL: the parameters of rule R11, the glyph ROM among them; no step changes them
  epoch  : Nat               -- MODEL: resets applied so far; free values are drawn anew after each
  env    : List EnvAnswer    -- MODEL: the environment's coming answers; where none is left the answer is free (rule R9)
  inputs : List HostInput    -- MODEL: what the host does next (rule R313)
  deriving DecidableEq, Repr

/-- Reasons the machine would stop with a fault. There is NONE: each of the block's own faults is an effect the spec
describes, a latched code and a response, after which the machine goes on refusing (rules R280, R282), and a hang is a
state of its own (rule R284). -/
inductive Fault where
  deriving DecidableEq, Repr

/-- Reasons the machine gives an instruction no meaning. -/
inductive Refusal where
  /-- Raised by `exec` alone, for an instruction whose meaning is not written yet; safe. No arm raises it. -/
  | notModelled (mnemonic : String)
  deriving DecidableEq, Repr

/-- Both I2C lines released: the bus is idle (rules R55, R301). -/
def I2cPins.reset : I2cPins where
  shift  := 0x00#8
  bitcnt := 0#4
  scl    := 1#1
  sda    := 1#1

/-- Unit U1 after reset (rule R55). -/
def I2cUnit.reset : I2cUnit where
  st      := .idle
  dir     := 0#1
  ap      := 0#1
  ackstat := 0#1
  rx      := 0x00#8
  div     := 0x0000#16
  pins    := I2cPins.reset

/-- The SPI pins after reset: SCK at the idle level of the mode, which is 0 in SPI_MODE 0 (rule R55; in the modes that rest
high the level is PRESUMED, log 12). -/
def SpiPins.atReset (p : Params) : SpiPins where
  shift  := 0x00#8
  bitcnt := 0#4
  sck    := p.sckIdle
  mosi   := 0#1

/-- Unit U2 after reset (rule R55). -/
def SpiUnit.reset : SpiUnit where
  csN  := 1#1
  dc   := 1#1
  rx   := 0x00#8
  div  := 0x0000#16
  pins := SpiPins.atReset Config.params

/-- Unit U3 after reset (rule R55). The five hidden registers are unspecified there and never read before written:
DESIGN CHOICE zero, unsafe (log 3). -/
def RasterUnit.reset : RasterUnit where
  fg     := 0xFFFF#16
  bg     := 0x0000#16
  curX   := 0x0000#16
  curY   := 0x0000#16
  orgX   := 0x0000#16
  txtPtr := 0x00#8
  col    := 0#3
  row    := 0#3
  gidx   := 0#7

/-- The machine right after reset (rules R55, R300). TEXT has no cell written: each byte reads as a free value (log 2).
The model's own fields: open parameters free (log 8), no scripted answer, no host input (DESIGN CHOICE, logs 1, 5). -/
def State.reset : State where
  i2c    := I2cUnit.reset
  spi    := SpiUnit.reset
  ras    := RasterUnit.reset
  text   := []
  fault  := 0#4
  busy   := 0#1
  rsp    := none
  trRev  := []
  cfg    := Config.params
  epoch  := 0
  env    := []
  inputs := []

end Sys2Proof.Machine
end

