-- ==== Sys2Proof/Machine/Pins.lean ====
section
/-! DEFINITION. The pin level of the two transports: the step lists of rules R151 to R156 for the I2C commands and of
rule R178 for an SPI transfer, and how each step moves the hidden registers and the lines. The reading of the lines back
as events is in Machine/BusReader.lean. -/

namespace Sys2Proof.Machine

/-- One pin-level step of an I2C command (40_i2c_master.md section 4). -/
inductive I2cPinOp where
  | sda (l : Bit)           -- SDA_O <- l
  | scl (l : Bit)           -- SCL_O <- l
  | wait                    -- proceed only when scl_i reads 1
  | load (b : Byte)         -- I2C_SHIFT <- b
  | count (n : BitVec 4)    -- I2C_BITCNT <- n
  | driveMsb                -- SDA_O <- I2C_SHIFT[7]
  | shiftOut                -- I2C_SHIFT <- {I2C_SHIFT[6:0], 0}
  | shiftIn                 -- I2C_SHIFT <- {I2C_SHIFT[6:0], sda_i}
  | sampleAck               -- a <- sda_i
  | env (l : Bit)           -- the environment drives SDA with l (1 = releases it)
  | hold                    -- the environment pulls SCL low, until the next wait is satisfied
  deriving DecidableEq, Repr

/-- The lines of the I2C bus: the block's drivers, the environment's two, the acknowledge level last sampled. -/
structure I2cLines where
  pins   : I2cPins
  envScl : Bit
  envSda : Bit
  ack    : Bit
  deriving DecidableEq, Repr

/-- The level of SCL, the wired-AND of the drivers (rule R150). -/
def I2cLines.sclIn (l : I2cLines) : Bit := l.pins.scl &&& l.envScl

/-- The level of SDA, the wired-AND of the drivers (rule R150). -/
def I2cLines.sdaIn (l : I2cLines) : Bit := l.pins.sda &&& l.envSda

/-- The effect of one step. A `wait` is satisfied by the environment's releasing SCL, and the block does nothing at it. -/
def I2cPinOp.apply (l : I2cLines) : I2cPinOp → I2cLines
  | .sda b => { l with pins.sda := b }
  | .scl b => { l with pins.scl := b }
  | .wait => { l with envScl := 1#1 }
  | .load b => { l with pins.shift := b }
  | .count n => { l with pins.bitcnt := n }
  | .driveMsb => { l with pins.sda := l.pins.shift.extractLsb' 7 1 }
  | .shiftOut => { l with pins.shift := l.pins.shift.extractLsb' 0 7 ++ 0#1 }
  | .shiftIn => { l with pins.shift := l.pins.shift.extractLsb' 0 7 ++ l.sdaIn }
  | .sampleAck => { l with ack := l.sdaIn }
  | .env b => { l with envSda := b }
  | .hold => { l with envScl := 0#1 }

/-- I2C_START at pin level (rule R151). -/
def startSteps : List I2cPinOp := [.wait, .sda 0#1, .scl 0#1]

/-- I2C_RESTART at pin level (rule R152). -/
def restartSteps : List I2cPinOp := [.sda 1#1, .scl 1#1, .wait, .sda 0#1, .scl 0#1]

/-- One data bit sent (rule R153). -/
def sendBitSteps (n : BitVec 4) : List I2cPinOp :=
  [.count n, .driveMsb, .scl 1#1, .wait, .scl 0#1, .shiftOut]

/-- I2C_SEND b at pin level, the slave answering the acknowledge slot with level `a` (rule R153). -/
def sendSteps (b : Byte) (a : Bit) : List I2cPinOp :=
  .load b :: ([0#4, 1#4, 2#4, 3#4, 4#4, 5#4, 6#4, 7#4].flatMap sendBitSteps ++
    [.count 8#4, .sda 1#1, .env a, .scl 1#1, .wait, .sampleAck, .scl 0#1, .env 1#1, .count 0#4])

/-- One data bit received, the slave driving level `l` (rule R154). -/
def recvBitSteps (n : BitVec 4) (l : Bit) : List I2cPinOp :=
  [.count n, .env l, .scl 1#1, .wait, .shiftIn, .scl 0#1]

/-- I2C_RECV at pin level, the slave driving the bits of `d`, bit 7 first (rule R154). -/
def recvSteps (d : Byte) : List I2cPinOp :=
  .sda 1#1 ::
    (recvBitSteps 0#4 (d.extractLsb' 7 1) ++ recvBitSteps 1#4 (d.extractLsb' 6 1) ++
     recvBitSteps 2#4 (d.extractLsb' 5 1) ++ recvBitSteps 3#4 (d.extractLsb' 4 1) ++
     recvBitSteps 4#4 (d.extractLsb' 3 1) ++ recvBitSteps 5#4 (d.extractLsb' 2 1) ++
     recvBitSteps 6#4 (d.extractLsb' 1 1) ++ recvBitSteps 7#4 (d.extractLsb' 0 1) ++
     [.env 1#1, .count 0#4])

/-- `I2C_ACK k` at pin level (rule R155). -/
def ackSteps (k : Bit) : List I2cPinOp := [.sda k, .scl 1#1, .wait, .scl 0#1]

/-- I2C_STOP at pin level (rule R156). -/
def stopSteps : List I2cPinOp := [.sda 0#1, .scl 1#1, .wait, .sda 1#1]

/-- The lines as a command finds them: the block's pins, the environment releasing both lines (PRESUMED, log 11). -/
def I2cPins.lines (p : I2cPins) : I2cLines := ⟨p, 1#1, 1#1, 1#1⟩

/-- The pins after a list of steps that runs to its end. -/
def I2cPins.run (p : I2cPins) (steps : List I2cPinOp) : I2cPins :=
  (steps.foldl I2cPinOp.apply p.lines).pins

/-- The number of `wait` steps of a list: the points at which the operation can be held (rule R143, decision D10). -/
def waits (steps : List I2cPinOp) : Nat := steps.count .wait

/-- The steps done when the operation is held at its `wait` number `k`, counted from 0, SCL being held low there. -/
def heldAt : Nat → List I2cPinOp → List I2cPinOp
  | _, [] => []
  | 0, .wait :: _ => [.hold]
  | k + 1, .wait :: rest => .wait :: heldAt k rest
  | 0, .scl b :: .wait :: _ => [.hold, .scl b]
  | k, op :: rest => op :: heldAt k rest

/-- Clock stretching: before the waits marked in the list the environment pulls SCL low, from the low phase of the clock
on where there is one (rule R150). -/
def stretched : List Bool → List I2cPinOp → List I2cPinOp
  | h :: hs, .scl b :: .wait :: rest => (if h then [.hold] else []) ++ .scl b :: .wait :: stretched hs rest
  | h :: hs, .wait :: rest => (if h then [.hold] else []) ++ .wait :: stretched hs rest
  | hs, op :: rest => op :: stretched hs rest
  | _, [] => []

/-- The pins of an operation that never completes: the steps before the `wait` that is never satisfied have been done
and no other (DEDUCED, log 10). -/
def I2cPins.held (p : I2cPins) (steps : List I2cPinOp) (stall : Nat) : I2cPins :=
  p.run (heldAt (stall % waits steps) steps)

/-! ### The SPI shifter (rule R178), for every SPI_MODE and bit order (PRESUMED beyond the values R178 writes out, log 12) -/

/-- One pin-level step of an SPI transfer. -/
inductive SpiPinOp where
  | load (b : Byte)         -- SPI_SHIFT <- b
  | count (n : BitVec 4)    -- SPI_BITCNT <- n
  | drive                   -- MOSI <- the bit of SPI_SHIFT that goes out next
  | sck (l : Bit)           -- SCK <- l
  | miso (l : Bit)          -- the slave drives MISO with l
  | sample                  -- in <- miso
  | shift                   -- SPI_SHIFT moves on by one bit, in coming in at the other end
  deriving DecidableEq, Repr

/-- The lines of the SPI bus: the block's pins, the slave's MISO, the bit last sampled. -/
structure SpiLines where
  pins    : SpiPins
  miso    : Bit
  sampled : Bit
  deriving DecidableEq, Repr

/-- Data is sampled on the second edge of each clock: bit 0 of the mode number (PRESUMED, log 12); in SPI_MODE 0 it is the
first edge (rule R178). -/
def samplesLate (p : Params) : Bool := p.spiMode.getLsbD 0

/-- The bit of a byte that goes first: bit 7, or bit 0 where SPI_MSB_FIRST is false. -/
def firstBit (p : Params) (b : Byte) : Bit := if p.spiMsbFirst then b.extractLsb' 7 1 else b.extractLsb' 0 1

/-- The bit of a byte that goes last. -/
def lastBit (p : Params) (b : Byte) : Bit := if p.spiMsbFirst then b.extractLsb' 0 1 else b.extractLsb' 7 1

/-- A byte moved on by one bit in the order it goes out, a bit coming in at the other end (rule R178). -/
def shiftBit (p : Params) (x : Byte) (b : Bit) : Byte :=
  if p.spiMsbFirst then x.extractLsb' 0 7 ++ b else b ++ x.extractLsb' 1 7

/-- The bits of a byte, bit 7 first (rule R75 a). -/
def msbFirst (d : Byte) : List Bit :=
  [d.extractLsb' 7 1, d.extractLsb' 6 1, d.extractLsb' 5 1, d.extractLsb' 4 1,
   d.extractLsb' 3 1, d.extractLsb' 2 1, d.extractLsb' 1 1, d.extractLsb' 0 1]

/-- The bits of a byte in the order they go over the SPI bus. -/
def bitsInOrder (p : Params) (d : Byte) : List Bit := if p.spiMsbFirst then msbFirst d else (msbFirst d).reverse

/-- The effect of one step. -/
def SpiPinOp.apply (p : Params) (l : SpiLines) : SpiPinOp → SpiLines
  | .load b => { l with pins.shift := b }
  | .count n => { l with pins.bitcnt := n }
  | .drive => { l with pins.mosi := firstBit p l.pins.shift }
  | .sck b => { l with pins.sck := b }
  | .miso b => { l with miso := b }
  | .sample => { l with sampled := l.miso }
  | .shift => { l with pins.shift := shiftBit p l.pins.shift l.sampled }

/-- One clock, the slave sending `b`: data changes while the clock rests and is sampled as it leaves rest (rule R178); in the
modes that sample late, data changes as the clock leaves rest and is sampled as it returns. -/
def spiBitSteps (p : Params) (n : BitVec 4) (b : Bit) : List SpiPinOp :=
  if samplesLate p then
    [.count n, .sck (~~~p.sckIdle), .drive, .miso b, .sck p.sckIdle, .sample, .shift]
  else
    [.count n, .drive, .miso b, .sck (~~~p.sckIdle), .sample, .sck p.sckIdle, .shift]

/-- SPI_XFER at pin level: byte `o` out while the slave sends `m` (rule R178). -/
def spiSteps (p : Params) (o m : Byte) : List SpiPinOp :=
  .load o :: ((([0#4, 1#4, 2#4, 3#4, 4#4, 5#4, 6#4, 7#4].zip (bitsInOrder p m)).flatMap fun c => spiBitSteps p c.1 c.2) ++
    [.count 0#4])

/-- The lines as a transfer finds them. Until the slave drives its first bit MISO is at a free level (DESIGN CHOICE, log 24), and
the block does not look at it. -/
def SpiPins.lines (q : SpiPins) : SpiLines := ⟨q, Config.idleMiso, Config.idleMiso⟩

/-- The pins after a transfer (rule R178). -/
def SpiPins.transfer (q : SpiPins) (p : Params) (o m : Byte) : SpiPins :=
  ((spiSteps p o m).foldl (SpiPinOp.apply p) q.lines).pins

end Sys2Proof.Machine
end

