-- ==== Sys2Proof/Machine/Ops.lean ====
section
/-! DEFINITION. The operations every command is written over: text memory, trace, environment answers, the course of a
command (Flow), the response, fault entry and the return from it by reset, the command port, and the two framing lines
and the transfer of unit U2. -/

namespace Sys2Proof.Machine

/-! ### Text memory (rule R72) -/

/-- The byte written at an index since reset; `none` where nothing has been written. -/
def Memory.read? : Memory → Nat → Option Byte
  | [], _ => none
  | (k, v) :: m, a => if a = k then some v else Memory.read? m a

/-- Write one byte, addresses kept strictly rising. -/
def Memory.write : Memory → Nat → Byte → Memory
  | [], a, v => [(a, v)]
  | (k, u) :: m, a, v =>
    if a < k then (a, v) :: (k, u) :: m
    else if a = k then (a, v) :: m
    else (k, u) :: Memory.write m a v

/-- The canonical form: indices strictly rising and inside TEXT. What an unlisted index reads as at this layer is no
value, so no entry can equal it. -/
abbrev Memory.wf (m : Memory) : Prop :=
  (m.map Prod.fst).Pairwise (· < ·) ∧ ∀ c ∈ m, c.1 < Config.textSize

/-- `MemRead(a, 1)` (rules R14, R72): the byte at index `a` of TEXT. A byte not written since reset reads as a free
value, the same at every read until it is written (rule R255; log 2). -/
def State.readText (s : State) (a : Byte) : Byte :=
  (s.text.read? a.toNat).getD (Config.textInit s.epoch a.toNat)

/-- `MemWrite(a, 1, v)` (rules R14, R72). -/
def State.writeText (s : State) (a v : Byte) : State :=
  { s with text := s.text.write a.toNat v }

/-! ### Trace and environment (rules R7, R9, R14) -/

/-- The trace TR in the order of emission (rule R50). -/
def State.trace (s : State) : List Event := s.trRev.reverse

/-- `emit E` (rule R14). -/
def State.emit (s : State) (e : Event) : State := { s with trRev := e :: s.trRev }

/-- The environment's answer to the bus operation now in progress, on the trace as it stands (rule R9; log 1). -/
def State.answer (s : State) : EnvAnswer :=
  match s.env with
  | a :: _ => a
  | [] => Config.freeAnswer s.epoch s.trace

/-- The answer has been used: the next one is the next bus operation's. -/
def State.nextAnswer (s : State) : State := { s with env := s.env.tail }

/-! ### The course of a command (rules R14, R15) -/

/-- Where a command stands: it goes on, it hangs at an `await` (rule R284), or it raised a fault (rule R280). What it
has done up to there is in the state. -/
inductive Flow where
  | go (s : State)
  | hung (s : State)
  | faulted (c : FaultCode) (s : State)
  deriving DecidableEq, Repr

/-- One part of a command after another: a hang or a fault ends the enclosing command (rule R15). -/
def Flow.bind : Flow → (State → Flow) → Flow
  | .go s, k => k s
  | .hung s, _ => .hung s
  | .faulted c s, _ => .faulted c s

/-- A part done once for each element of a list, in order. -/
def Flow.forEach {α : Type} (body : α → State → Flow) : List α → State → Flow
  | [], s => .go s
  | x :: xs, s => (body x s).bind (Flow.forEach body xs)

/-- A part done `n` times. -/
def Flow.times (body : State → Flow) : Nat → State → Flow
  | 0, s => .go s
  | n + 1, s => (body s).bind (Flow.times body n)

/-! ### Response, fault entry, and the return from a fault (rules R110, R111, R280, R282, R300) -/

/-- The code of a fault (rule R270). -/
def FaultCode.code : FaultCode → BitVec 4
  | .illegalCmd => 1#4
  | .i2cProto => 2#4
  | .glyphRange => 3#4
  | .textOverrun => 4#4

/-- The response word `{st, 0b000, a, d}` (rule R110). -/
def response (st : BitVec 4) (a : Bit) (d : Half) : RspWord := st ++ 0#3 ++ a ++ d

/-- The OK response (rule R111). -/
def okResponse (a : Bit) (d : Half) : RspWord := response 0x0#4 a d

/-- `respond(st, a, d)` (rule R14): the command ends, BUSY falls (rule R49). -/
def State.respond (s : State) (w : RspWord) : State := { s with rsp := some w, busy := 0#1 }

/-- Fault entry, `raise Fault(code)` (rule R280): what the command did stays, FAULT latches the code if it is 0, the
response carries the code, BUSY falls. Nothing else is saved. -/
def State.raise (s : State) (c : FaultCode) : State :=
  { s with fault := if s.fault = 0#4 then c.code else s.fault }.respond (response c.code 0#1 0x0000#16)

/-- A command that hangs: BUSY stays 1, no response is given, nothing else changes (rule R284). -/
def State.hang (s : State) : State := { s with busy := 1#1, rsp := none }

/-- The end of a command: with a response computed on its last state, by a hang, or by a fault. -/
def conclude (rsp : State → RspWord) : Flow → State
  | .go s => s.respond (rsp s)
  | .hung s => s.hang
  | .faulted c s => s.raise c

/-- The BLOCKED response (rule R282): the command is accepted, not decoded, not executed, and answered at once. -/
def State.refuseBlocked (s : State) : State := s.respond (response 0xF#4 0#1 (s.fault.setWidth 16))

/-- Reset (rules R300 to R303), the only return from a fault or a hang (rule R283): every piece of state takes its
reset value, the trace restarts empty, TEXT is unspecified again. The parameters stay; so do the outside world's coming
answers and inputs, the answer to an abandoned operation being used up already (DESIGN CHOICE, logs 1 and 7). -/
def State.applyReset (s : State) : State :=
  { State.reset with
    spi.pins := SpiPins.atReset s.cfg, cfg := s.cfg, epoch := s.epoch + 1, env := s.env, inputs := s.inputs }

/-! ### The command port (rules R100, R281) -/

/-- The block accepts a command: BUSY rises (rule R49). -/
def State.accept (s : State) : State := { s with busy := 1#1, rsp := none }

/-- A step in which no response is given and nothing else happens: nothing is presented, or the block is busy and the
word is not accepted (rule R310 H1, 93_implementation_defined.md X17). -/
def State.noResponse (s : State) : State := { s with rsp := none }

/-- The host's next action is taken from the list of those to come. -/
def State.nextInput (s : State) : State := { s with inputs := s.inputs.tail }

/-- The output ports of rule R100. -/
structure Ports where
  cmdReady : Bit
  rspValid : Bit
  rspWord  : RspWord
  busy     : Bit
  fault    : BitVec 4
  sclO     : Bit
  sdaO     : Bit
  sck      : Bit
  mosi     : Bit
  csN      : Bit
  dc       : Bit
  deriving DecidableEq, Repr

/-- The levels of the output ports (rule R100). Without `rsp_valid` the level of `rsp_word` is a free value (DESIGN CHOICE, log
9). -/
def State.ports (s : State) : Ports where
  cmdReady := ~~~s.busy
  rspValid := if s.rsp.isSome then 1#1 else 0#1
  rspWord  := s.rsp.getD (Config.idleRspWord s.epoch s.trace)
  busy     := s.busy
  fault    := s.fault
  sclO     := s.i2c.pins.scl
  sdaO     := s.i2c.pins.sda
  sck      := s.spi.pins.sck
  mosi     := s.spi.pins.mosi
  csN      := s.spi.csN
  dc       := s.spi.dc

/-! ### The I2C bus operation (rules R132, R143) -/

/-- One I2C bus operation: it completes only if the environment lets it; then `finish` does what the answer brings, all
together. If it never completes nothing has taken effect but the pin steps up to the `wait` that holds it. Either way the
environment's answer has been used up (DESIGN CHOICE, log 1). -/
def i2cAwait (steps : EnvAnswer → List I2cPinOp) (finish : EnvAnswer → State → State) (s : State) : Flow :=
  let a := s.answer
  if a.done then
    .go (finish a { s.nextAnswer with i2c.pins := s.i2c.pins.run (steps a) })
  else
    .hung { s.nextAnswer with i2c.pins := s.i2c.pins.held (steps a) a.stall }

/-! ### The framing lines and the transfer of unit U2 (rules R171 to R173, R190) -/

/-- Assign the chip-select line; the event is emitted whether or not the level changes (rules R7, R172). -/
def assignCs (l : Bit) (s : State) : State := { s with spi.csN := l }.emit (.sCs l)

/-- Assign the command/data-select line (rules R7, R173). -/
def assignDc (l : Bit) (s : State) : State := { s with spi.dc := l }.emit (.sDc l)

/-- The byte transfer (rule R171): `await`, then the event, SPI_RX and the shifter together. If it never completes
nothing of it has taken effect (rule R174, decision D39), and its answer has been used up (DESIGN CHOICE, log 1). -/
def spiTransfer (o : Byte) (s : State) : Flow :=
  let a := s.answer
  if a.done then
    .go ({ s.nextAnswer with spi.rx := a.miso, spi.pins := s.spi.pins.transfer s.cfg o a.miso }.emit (.sXfer o a.miso))
  else
    .hung s.nextAnswer

/-- The framed write `Frame(dc, o)` (rule R190). -/
def frame (dc : Bit) (o : Byte) (s : State) : Flow :=
  (spiTransfer o (assignCs 0#1 (assignDc dc s))).bind fun s => .go (assignCs 1#1 s)

/-- Framed writes one after another, each a (select level, byte) pair. -/
def frames (l : List (Bit × Byte)) (s : State) : Flow := Flow.forEach (fun f s => frame f.1 f.2 s) l s

end Sys2Proof.Machine
end

