-- ==== Sys2Proof/Machine/Operands.lean ====
section
/-! DEFINITION. Operand forms: the bytes of a 16-bit operand, the glyph of a character code, the numbered registers of
REG space, and the classes of a text byte. -/

namespace Sys2Proof.Machine

/-- Bits 15:8 of a 16-bit quantity, sent first on SPI (rule R75 b). -/
def hiByte (h : Half) : Byte := h.extractLsb' 8 8

/-- Bits 7:0 of a 16-bit quantity. -/
def loByte (h : Half) : Byte := h.extractLsb' 0 8

/-- Zero extension into the data field of a response (rule R112). -/
def zext16 (b : Byte) : Half := b.setWidth 16

/-- The glyph index `GIDX = s - 32` of a character code; `none` outside 32..126 (rules R221, R223). -/
def glyphIndex? (s : Byte) : Option (Fin 95) :=
  if h : Config.glyphFirst ≤ s.toNat ∧ s.toNat ≤ Config.glyphLast then
    some ⟨s.toNat - Config.glyphFirst, by
      have := h.2
      simp only [Config.glyphFirst, Config.glyphLast] at *
      omega⟩
  else none

/-- The bit of glyph `k` at column `i`, row `j`: bit `j` of column byte `i`, 1 = foreground (rule R222). -/
def glyphBit (g : Glyphs) (k : Fin 95) (i : Fin 5) (j : Fin 8) : Bool := g[k][i].getLsbD j.val

/-- The forty (column, row) pairs in the order of the bit-unpacker: columns outer, rows inner, ascending (rule R222). -/
def glyphCells : List (Fin 5 × Fin 8) :=
  (List.finRange 5).flatMap fun i => (List.finRange 8).map fun j => (i, j)

/-- Registers by number are the REG space of rules R52 and R71; writing reaches I2C_DIV, SPI_DIV, FG and BG alone, and
`none` is a number WR_REG may not name (rule R253). -/
def State.writeReg (s : State) (r : Byte) (v : Half) : Option State :=
  if r = 1#8 then some { s with i2c.div := v }
  else if r = 2#8 then some { s with spi.div := v }
  else if r = 3#8 then some { s with ras.fg := v }
  else if r = 4#8 then some { s with ras.bg := v }
  else none

/-- The text indices from `p` to 255, the ones DRAW_STRING may fetch from (rule R230). -/
def textIndices (p : Byte) : List Byte :=
  (List.range' p.toNat (Config.textSize - p.toNat)).map (BitVec.ofNat 8)

/-- The classes of a byte fetched from TEXT, tested in this order (rule R229); class 3 and class 4 are told apart by
`glyphIndex?`. -/
inductive CharClass where
  | terminator | newline | other
  deriving DecidableEq, Repr

/-- The class of a byte, the newline being the parameter NEWLINE, by default 0x0A (rules R11, R229). -/
def classify (p : Params) (ch : Byte) : CharClass :=
  if ch = Config.terminator then .terminator
  else if ch = p.newline then .newline
  else .other

end Sys2Proof.Machine
end

