-- ==== Sys2Proof/Machine/Flags.lean ====
section
/-! DEFINITION. The status flags (rule R54): the STATUS composite and the reads of REG space that need it, and the
legality of each I2C command by the flags it looks at (rule R131). -/

namespace Sys2Proof.Machine

/-- The 3-bit code of I2C_ST (rule R33). -/
def I2cSt.code : I2cSt → BitVec 3
  | .idle => 0#3
  | .started => 1#3
  | .addressed => 2#3
  | .transferring => 3#3
  | .stopped => 4#3

/-- STATUS = {0x00, DC, CS_N, I2C_ACKSTAT, I2C_AP, I2C_DIR, I2C_ST} (rule R53). -/
def State.status (s : State) : Half :=
  0x00#8 ++ s.spi.dc ++ s.spi.csN ++ s.i2c.ackstat ++ s.i2c.ap ++ s.i2c.dir ++ s.i2c.st.code

/-- The register of a number, zero-extended to 16 bits; `none` for a reserved number (rules R52, R71, R252). -/
def State.readReg (s : State) (r : Byte) : Option Half :=
  if r = 0#8 then some s.status
  else if r = 1#8 then some s.i2c.div
  else if r = 2#8 then some s.spi.div
  else if r = 3#8 then some s.ras.fg
  else if r = 4#8 then some s.ras.bg
  else if r = 5#8 then some s.ras.curX
  else if r = 6#8 then some s.ras.curY
  else if r = 7#8 then some (zext16 s.i2c.rx)
  else if r = 8#8 then some (zext16 s.spi.rx)
  else none

/-- At least one byte has followed the last START: ADDRESSED or TRANSFERRING. -/
def I2cUnit.addressedOrLater (u : I2cUnit) : Bool := u.st = .addressed || u.st = .transferring

/-- I2C_START is legal (rule R133). -/
def I2cUnit.mayStart (u : I2cUnit) : Bool := u.st = .idle || u.st = .stopped

/-- I2C_RESTART is legal (rule R134). -/
def I2cUnit.mayRestart (u : I2cUnit) : Bool := u.addressedOrLater && u.ap = 0#1

/-- I2C_SEND is legal (rule R135). -/
def I2cUnit.maySend (u : I2cUnit) : Bool := u.st = .started || (u.addressedOrLater && u.dir = 0#1)

/-- I2C_RECV is legal (rule R136). -/
def I2cUnit.mayRecv (u : I2cUnit) : Bool := u.addressedOrLater && u.dir = 1#1 && u.ap = 0#1

/-- I2C_ACK is legal (rule R137). -/
def I2cUnit.mayAck (u : I2cUnit) : Bool := u.ap = 1#1

/-- I2C_STOP is legal (rule R138). -/
def I2cUnit.mayStop (u : I2cUnit) : Bool := (u.st = .started || u.addressedOrLater) && u.ap = 0#1

/-- After a START condition (rule R133). -/
def I2cUnit.afterStart (u : I2cUnit) : I2cUnit := { u with st := .started, dir := 0#1, ap := 0#1 }

/-- After a repeated START condition (rule R134). -/
def I2cUnit.afterRestart (u : I2cUnit) : I2cUnit := { u with st := .started, dir := 0#1 }

/-- After a byte `b` has been sent and the acknowledge slot read `a` (rule R135): the first byte after a START is the
address byte and fixes the direction. -/
def I2cUnit.afterSend (u : I2cUnit) (b : Byte) (a : Bit) : I2cUnit :=
  if u.st = .started then { u with st := .addressed, dir := b.extractLsb' 0 1, ackstat := a }
  else { u with st := .transferring, ackstat := a }

/-- After a byte `d` has been received (rule R136). -/
def I2cUnit.afterRecv (u : I2cUnit) (d : Byte) : I2cUnit :=
  { u with st := .transferring, rx := d, ap := 1#1 }

/-- After the acknowledge slot of a received byte has been driven (rule R137). -/
def I2cUnit.afterAck (u : I2cUnit) : I2cUnit := { u with ap := 0#1 }

/-- After a STOP condition (rule R138). -/
def I2cUnit.afterStop (u : I2cUnit) : I2cUnit := { u with st := .stopped, dir := 0#1 }

end Sys2Proof.Machine
end

