-- ==== Sys2Proof/Machine/I2c.lean ====
section
/-! DEFINITION. The six commands of the I2C master sequencer (40_i2c_master.md), over the common scheme of rule R132: the
legality check, the one bus operation, then event and registers together. -/

namespace Sys2Proof.Machine

/-- The common scheme of the six commands (rule R132): an illegal command faults I2C_PROTO with no bus activity;
otherwise the bus operation, and at its completion the event and the registers of unit U1. -/
def i2cCommand (legal : Bool) (steps : EnvAnswer → List I2cPinOp) (event : EnvAnswer → Event)
    (after : EnvAnswer → I2cUnit → I2cUnit) (s : State) : Flow :=
  if legal then
    i2cAwait steps (fun a s => { s.emit (event a) with i2c := after a s.i2c }) s
  else
    .faulted .i2cProto s

/-- I2C_START (rule R133). -/
def execI2cStart (s : State) : Host.Outcome State Fault Refusal :=
  .next (conclude (fun _ => okResponse 0#1 0x0000#16)
    (i2cCommand s.i2c.mayStart (fun _ => startSteps) (fun _ => .iStart) (fun _ u => u.afterStart) s))

/-- I2C_RESTART (rule R134). -/
def execI2cRestart (s : State) : Host.Outcome State Fault Refusal :=
  .next (conclude (fun _ => okResponse 0#1 0x0000#16)
    (i2cCommand s.i2c.mayRestart (fun _ => restartSteps) (fun _ => .iRestart) (fun _ u => u.afterRestart) s))

/-- I2C_SEND (rule R135): response bit 16 is 1 iff the slave acknowledged (rule R112). A missing acknowledge is only
observed (rule R139). -/
def execI2cSend (b : Byte) (s : State) : Host.Outcome State Fault Refusal :=
  .next (conclude (fun t => okResponse (~~~t.i2c.ackstat) 0x0000#16)
    (i2cCommand s.i2c.maySend (fun e => sendSteps b e.ack) (fun e => .iTx b e.ack)
      (fun e u => u.afterSend b e.ack) s))

/-- I2C_RECV (rule R136): the acknowledge slot is not clocked here. -/
def execI2cRecv (s : State) : Host.Outcome State Fault Refusal :=
  .next (conclude (fun t => okResponse 0#1 (zext16 t.i2c.rx))
    (i2cCommand s.i2c.mayRecv (fun e => recvSteps e.data) (fun e => .iRx e.data)
      (fun e u => u.afterRecv e.data) s))

/-- I2C_ACK (rule R137). -/
def execI2cAck (l : Bit) (s : State) : Host.Outcome State Fault Refusal :=
  .next (conclude (fun _ => okResponse 0#1 0x0000#16)
    (i2cCommand s.i2c.mayAck (fun _ => ackSteps l) (fun _ => .iMack l) (fun _ u => u.afterAck) s))

/-- I2C_STOP (rule R138). -/
def execI2cStop (s : State) : Host.Outcome State Fault Refusal :=
  .next (conclude (fun _ => okResponse 0#1 0x0000#16)
    (i2cCommand s.i2c.mayStop (fun _ => stopSteps) (fun _ => .iStop) (fun _ u => u.afterStop) s))

end Sys2Proof.Machine
end

