-- ==== Sys2Proof/Machine/Display.lean ====
section
/-! DEFINITION. Command/data framing and the pixel streamer (42_display_framing.md). A command of this family is a list
of framed writes, written `dc:byte` in the spec; the byte shifted in stays in SPI_RX and is otherwise discarded (rules
R112, R190). -/

namespace Sys2Proof.Machine

/-- The two framed writes of a 16-bit data word, high byte first, each framed separately (rule R193). -/
def data16 (h : Half) : List (Bit × Byte) := [(1#1, hiByte h), (1#1, loByte h)]

/-- The framed writes of SET_WINDOW (rule R194): column command, x0, x1, page command, y0, y1, and the memory-write
command iff WINDOW_RAMWR. -/
def windowFrames (p : Params) (x0 y0 x1 y1 : Half) : List (Bit × Byte) :=
  [(0#1, p.cmdCaset)] ++ data16 x0 ++ data16 x1 ++ [(0#1, p.cmdPaset)] ++ data16 y0 ++ data16 y1 ++
    (if p.windowRamwr then [(0#1, p.cmdRamwr)] else [])

/-- The sub-operation LCD_DATA16 (rules R15, R193). -/
def lcdData16 (h : Half) (s : State) : Flow := frames (data16 h) s

/-- The sub-operation SET_WINDOW (rules R15, R194). -/
def setWindow (x0 y0 x1 y1 : Half) (s : State) : Flow := frames (windowFrames s.cfg x0 y0 x1 y1) s

/-- The sub-operation WRITE_PIXEL (rules R15, R195): the marker, the window with end coordinates modulo 2^16, one
colour word. -/
def writePixel (x y c : Half) (s : State) : Flow :=
  (setWindow x y (x + 1#16) (y + 1#16) (s.emit (.pix x y c))).bind (lcdData16 c)

/-- LCD_CMD (rule R191). -/
def execLcdCmd (b : Byte) (s : State) : Host.Outcome State Fault Refusal :=
  .next (conclude (fun _ => okResponse 0#1 0x0000#16) (frame 0#1 b s))

/-- LCD_DATA (rule R192). -/
def execLcdData (b : Byte) (s : State) : Host.Outcome State Fault Refusal :=
  .next (conclude (fun _ => okResponse 0#1 0x0000#16) (frame 1#1 b s))

/-- LCD_DATA16 (rule R193). -/
def execLcdData16 (h : Half) (s : State) : Host.Outcome State Fault Refusal :=
  .next (conclude (fun _ => okResponse 0#1 0x0000#16) (lcdData16 h s))

/-- SET_WINDOW (rule R194). -/
def execSetWindow (x0 y0 x1 y1 : Half) (s : State) : Host.Outcome State Fault Refusal :=
  .next (conclude (fun _ => okResponse 0#1 0x0000#16) (setWindow x0 y0 x1 y1 s))

/-- WRITE_PIXEL (rule R195). -/
def execWritePixel (x y c : Half) (s : State) : Host.Outcome State Fault Refusal :=
  .next (conclude (fun _ => okResponse 0#1 0x0000#16) (writePixel x y c s))

/-- CLEAR (rule R196): the window of the parameters, then SURF_W * SURF_H colour words whatever the parameters. -/
def execClear (h : Half) (s : State) : Host.Outcome State Fault Refusal :=
  .next (conclude (fun _ => okResponse 0#1 0x0000#16)
    ((setWindow 0#16 0#16 s.cfg.clearX1 s.cfg.clearY1 s).bind
      (Flow.times (lcdData16 h) (Config.surfW * Config.surfH))))

end Sys2Proof.Machine
end

