-- ==== Sys2Proof/Machine/Raster.lean ====
section
/-! DEFINITION. The font rasterizer (43_font_rasterizer.md): the character sub-operation, DRAW_CHAR and DRAW_STRING. -/

namespace Sys2Proof.Machine

/-- One cell of a character (rule R225): the target coordinate is an integer pair without wrap (rule R224), a pixel
beyond CLIP_MAX on either axis is skipped with no event, any other is written in FG or BG. -/
def drawCell (x y : Half) (k : Fin 95) (cell : Fin 5 × Fin 8) (s : State) : Flow :=
  let t := { s with ras.col := BitVec.ofNat 3 cell.1.val, ras.row := BitVec.ofNat 3 cell.2.val }
  let px := x.toNat + cell.1.val
  let py := y.toNat + cell.2.val
  if px > Config.clipMax ∨ py > Config.clipMax then .go t
  else
    writePixel (BitVec.ofNat 16 px) (BitVec.ofNat 16 py)
      (if glyphBit s.cfg.glyph k cell.1 cell.2 then s.ras.fg else s.ras.bg) t

/-- The character sub-operation `Char(x, y, s)` (rule R225): GLYPH_RANGE before any glyph byte is read and before any
pixel is written (rule R223). -/
def drawGlyph (x y : Half) (code : Byte) (s : State) : Flow :=
  match glyphIndex? code with
  | none => .faulted .glyphRange s
  | some k => Flow.forEach (drawCell x y k) glyphCells { s with ras.gidx := BitVec.ofNat 7 k.val }

/-- DRAW_CHAR (rule R226). -/
def execDrawChar (x y : Half) (c : Byte) (s : State) : Host.Outcome State Fault Refusal :=
  .next (conclude (fun _ => okResponse 0#1 0x0000#16) (drawGlyph x y c s))

/-- The newline of a string (rules R229, R230): the cursor returns to the x operand and moves 10 down, nothing drawn. -/
def newLine (s : State) : State :=
  { s with ras.curX := s.ras.orgX, ras.curY := s.ras.curY + Config.advY }

/-- The horizontal advance of a drawn character, modulo 2^16 (rule R231). -/
def advance (s : State) : State := { s with ras.curX := s.ras.curX + Config.advX }

/-- The loop of DRAW_STRING over the text indices left (rule R230): the terminator ends it; a newline or a character is
processed and the pointer moves on; running past index 255 is TEXT_OVERRUN, the pointer staying at 255 (rule R232). -/
def drawText : List Byte → State → Flow
  | [], s => .faulted .textOverrun s
  | p :: rest, s =>
    let t := { s with ras.txtPtr := p }
    let ch := t.readText p
    match classify t.cfg ch with
    | .terminator => .go t
    | .newline => drawText rest (newLine t)
    | .other => (drawGlyph t.ras.curX t.ras.curY ch t).bind fun u => drawText rest (advance u)

/-- DRAW_STRING (rule R230). -/
def execDrawString (x y : Half) (p : Byte) (s : State) : Host.Outcome State Fault Refusal :=
  .next (conclude (fun _ => okResponse 0#1 0x0000#16)
    (drawText (textIndices p) { s with ras.curX := x, ras.curY := y, ras.orgX := x, ras.txtPtr := p }))

end Sys2Proof.Machine
end

