-- ==== Sys2Proof/Machine/Spi.lean ====
section
/-! DEFINITION. The three primitives of unit U2 (41_spi_transport.md), legal in every state and in every order (rule
R175). -/

namespace Sys2Proof.Machine

/-- SPI_XFER (rule R171). -/
def execSpiXfer (b : Byte) (s : State) : Host.Outcome State Fault Refusal :=
  .next (conclude (fun t => okResponse 0#1 (zext16 t.spi.rx)) (spiTransfer b s))

/-- SPI_CS (rule R172). -/
def execSpiCs (l : Bit) (s : State) : Host.Outcome State Fault Refusal :=
  .next ((assignCs l s).respond (okResponse 0#1 0x0000#16))

/-- SPI_DC (rule R173). -/
def execSpiDc (l : Bit) (s : State) : Host.Outcome State Fault Refusal :=
  .next ((assignDc l s).respond (okResponse 0#1 0x0000#16))

end Sys2Proof.Machine
end

