-- ==== Sys2Proof/Machine/System.lean ====
section
/-! DEFINITION. The system commands NOP, RD_REG, WR_REG, TXT_WR, TXT_RD (44_system_commands.md). None emits an event,
touches a bus or has a hang point (rule R250). -/

namespace Sys2Proof.Machine

/-- NOP (rule R251). -/
def execNop (s : State) : Host.Outcome State Fault Refusal :=
  .next (s.respond (okResponse 0#1 0x0000#16))

/-- RD_REG (rule R252). -/
def execRdReg (r : Byte) (s : State) : Host.Outcome State Fault Refusal :=
  .next (match s.readReg r with
    | none => s.raise .illegalCmd
    | some v => s.respond (okResponse 0#1 v))

/-- WR_REG (rule R253). -/
def execWrReg (r : Byte) (v : Half) (s : State) : Host.Outcome State Fault Refusal :=
  .next (match s.writeReg r v with
    | none => s.raise .illegalCmd
    | some t => t.respond (okResponse 0#1 0x0000#16))

/-- TXT_WR (rule R254). -/
def execTxtWr (a v : Byte) (s : State) : Host.Outcome State Fault Refusal :=
  .next ((s.writeText a v).respond (okResponse 0#1 0x0000#16))

/-- TXT_RD (rule R255). -/
def execTxtRd (a : Byte) (s : State) : Host.Outcome State Fault Refusal :=
  .next (s.respond (okResponse 0#1 (zext16 (s.readText a))))

end Sys2Proof.Machine
end

