-- ==== Sys2Proof/Machine/Dispatch.lean ====
section
/-! DEFINITION. The meaning of each command, one arm per constructor of Instr, in the order of rule R104. -/

namespace Sys2Proof.Machine

/-- The execution of one accepted command (rules R80, R104): the checks of rule R281 (1) and (2) are `step`'s. -/
def exec (i : Instr) (s : State) : Host.Outcome State Fault Refusal :=
  match i with
  | .nop => Sys2Proof.Machine.execNop s
  | .rdReg r => Sys2Proof.Machine.execRdReg r s
  | .wrReg r v => Sys2Proof.Machine.execWrReg r v s
  | .txtWr a v => Sys2Proof.Machine.execTxtWr a v s
  | .txtRd a => Sys2Proof.Machine.execTxtRd a s
  | .i2cStart => Sys2Proof.Machine.execI2cStart s
  | .i2cRestart => Sys2Proof.Machine.execI2cRestart s
  | .i2cSend b => Sys2Proof.Machine.execI2cSend b s
  | .i2cRecv => Sys2Proof.Machine.execI2cRecv s
  | .i2cAck l => Sys2Proof.Machine.execI2cAck l s
  | .i2cStop => Sys2Proof.Machine.execI2cStop s
  | .spiXfer b => Sys2Proof.Machine.execSpiXfer b s
  | .spiCs l => Sys2Proof.Machine.execSpiCs l s
  | .spiDc l => Sys2Proof.Machine.execSpiDc l s
  | .lcdCmd b => Sys2Proof.Machine.execLcdCmd b s
  | .lcdData b => Sys2Proof.Machine.execLcdData b s
  | .lcdData16 h => Sys2Proof.Machine.execLcdData16 h s
  | .setWindow x0 y0 x1 y1 => Sys2Proof.Machine.execSetWindow x0 y0 x1 y1 s
  | .writePixel x y c => Sys2Proof.Machine.execWritePixel x y c s
  | .clear h => Sys2Proof.Machine.execClear h s
  | .drawChar x y c => Sys2Proof.Machine.execDrawChar x y c s
  | .drawString x y p => Sys2Proof.Machine.execDrawString x y p s

end Sys2Proof.Machine
end

