-- ==== Sys2Proof/Machine/FrontEnd.lean ====
section
/-! DEFINITION. The command front end: what one host action does to the block (rules R100, R281, R300). -/

namespace Sys2Proof.Machine

/-- A command word presented to the block. Busy (only a hung block is busy between actions): not accepted, nothing
happens (rules R284, R310 H1). Blocked: refused whatever the word is, even one that does not decode (rules R281 (1),
R282). Otherwise accepted and decoded: an illegal word faults ILLEGAL_CMD (rule R106), any other executes. -/
def present (w : CmdWord) (s : State) : Host.Outcome State Fault Refusal :=
  if s.busy = 1#1 then .next s.noResponse
  else if s.fault ≠ 0#4 then .next s.refuseBlocked
  else
    match decode w with
    | .error _ => .next (s.accept.raise .illegalCmd)
    | .ok i => exec i s.accept

/-- One action of the host, `none` when it presents nothing: the block waits (rule R314). -/
def react (input : Option HostInput) (s : State) : Host.Outcome State Fault Refusal :=
  match input with
  | none => .next s.noResponse
  | some .reset => .next s.applyReset
  | some (.command w) => present w s

/-- The host presents a command word next. -/
def State.presentNext (s : State) (w : CmdWord) : State := { s with inputs := .command w :: s.inputs }

end Sys2Proof.Machine
end

