-- ==== Sys2Proof/Machine/Step.lean ====
section
/-! DEFINITION. One step of the machine: the next action of the host, taken from the list of those to come (rule R313). -/

namespace Sys2Proof.Machine

/-- One step: the block reacts to the host's next action (rules R80, R281). -/
def step (s : State) : Host.Outcome State Fault Refusal := react s.inputs.head? s.nextInput

/-- The host presents the word of an opcode-table row as its next action: that is all the block's "fetch" takes, since it
has no program counter and fetches no instructions (rules R32, R304). -/
def State.withFetchWord (s : State) (nbits w : Nat) : State := s.presentNext (tableWord nbits w)

end Sys2Proof.Machine
end

