-- ==== Sys2Proof/Machine/Assembler.lean ====
section
/-! DEFINITION. The assembler syntax of rule R113 and the pseudo-instructions of rule R114: one line of text to command
words. It is a tool of the host's side and no part of the block. -/

namespace Sys2Proof.Machine

/-- The double and the single quote. -/
def dquote : Char := Char.ofNat 34
@[inherit_doc dquote] def squote : Char := Char.ofNat 39

/-- The value of a digit in base 16. -/
def digit? (c : Char) : Option Nat :=
  if '0' ≤ c ∧ c ≤ '9' then some (c.toNat - 48)
  else if 'a' ≤ c ∧ c ≤ 'f' then some (c.toNat - 87)
  else if 'A' ≤ c ∧ c ≤ 'F' then some (c.toNat - 55)
  else none

/-- Digits in a base, most significant first. -/
def digits? (base : Nat) (acc : Nat) : List Char → Option Nat
  | [] => some acc
  | c :: cs => (digit? c).bind fun d => if d < base then digits? base (base * acc + d) cs else none

/-- A register operand written by its name (rules R52, R113). -/
def registerName? (t : List Char) : Option Nat :=
  (["STATUS", "I2C_DIV", "SPI_DIV", "FG", "BG", "CUR_X", "CUR_Y", "I2C_RX", "SPI_RX"].findIdx?
    fun n => n.toList = t)

/-- An operand as written (rule R113). -/
inductive Operand where
  | number (n : Nat)       -- decimal or 0x hexadecimal
  | char (c : Char)        -- a character in single quotes
  | register (n : Nat)     -- a register by its name
  deriving DecidableEq, Repr

/-- An operand: decimal, 0x hexadecimal, a character in single quotes, or a register name (rule R113). -/
def operand? (t : List Char) : Option Operand :=
  match t with
  | [a, c, b] => if a = squote ∧ b = squote then some (.char c) else other? [a, c, b]
  | t => other? t
where
  /-- A number or a register name. -/
  other? (t : List Char) : Option Operand :=
    match t with
    | [] => none
    | '0' :: 'x' :: d :: ds => (digits? 16 0 (d :: ds)).map .number
    | t => ((registerName? t).map .register).or ((digits? 10 0 t).map .number)

/-- The quote that is open after a character: a quote closes the one of its own kind, and one of the other kind inside it is
a character like any other (DESIGN CHOICE, log 18). -/
def quoteAfter (q : Option Char) (c : Char) : Option Char :=
  match q with
  | none => if c = squote ∨ c = dquote then some c else none
  | some o => if c = o then none else some o

/-- The line up to its comment; a semicolon inside quotes starts none (DESIGN CHOICE, log 18). -/
def uncomment (q : Option Char) : List Char → List Char
  | [] => []
  | c :: cs => if c = ';' ∧ q = none then [] else c :: uncomment (quoteAfter q c) cs

/-- The pieces between commas outside quotes, blanks outside quotes left out (DESIGN CHOICE, log 18). -/
def pieces (q : Option Char) (cur : List Char) : List Char → List (List Char)
  | [] => [cur]
  | c :: cs =>
    if c = ',' ∧ q = none then cur :: pieces none [] cs
    else if c = ' ' ∧ q = none then pieces none cur cs
    else pieces (quoteAfter q c) (cur ++ [c]) cs

/-- The code of an ASCII character (rule R113); any other character is an assembly error (DESIGN CHOICE, log 18). -/
def ascii? (c : Char) : Option Byte := if c.toNat < 128 then some (BitVec.ofNat 8 c.toNat) else none

/-- The characters of a quoted string, a backslash and n as the byte 0x0A (rule R114). -/
def stringBytes? : List Char → Option (List Byte)
  | [] => none
  | '\\' :: 'n' :: cs => (stringBytes? cs).map (0x0A#8 :: ·)
  | [c] => if c = dquote then some [] else none
  | c :: cs => if c = dquote then none else (ascii? c).bind fun b => (stringBytes? cs).map (b :: ·)

/-- The value of an operand, which must fit its field (DESIGN CHOICE, log 18). A character in quotes stands for a byte, so in
a field of another width it is an assembly error, and so is a register name (DESIGN CHOICE, log 18). -/
def fit? (width : Nat) : Operand → Option (BitVec width)
  | .number n => if n < 2 ^ width then some (BitVec.ofNat width n) else none
  | .char c => if width = 8 then (ascii? c).map (·.setWidth width) else none
  | .register _ => none

/-- A register operand: its number, or its name (rules R52, R113). -/
def register? : Operand → Option Byte
  | .number n => fit? 8 (.number n)
  | .char c => fit? 8 (.char c)
  | .register n => some (BitVec.ofNat 8 n)

/-- A mnemonic and its operand values, to the commands it stands for (rules R113, R114). -/
def build? (m : String) (ops : List Operand) : Option (List Instr) :=
  match m, ops with
  | "NOP", [] => some [.nop]
  | "RD_REG", [r] => do return [.rdReg (← register? r)]
  | "WR_REG", [r, v] => do return [.wrReg (← register? r) (← fit? 16 v)]
  | "TXT_WR", [a, v] => do return [.txtWr (← fit? 8 a) (← fit? 8 v)]
  | "TXT_RD", [a] => do return [.txtRd (← fit? 8 a)]
  | "I2C_START", [] => some [.i2cStart]
  | "I2C_RESTART", [] => some [.i2cRestart]
  | "I2C_SEND", [b] => do return [.i2cSend (← fit? 8 b)]
  | "I2C_RECV", [] => some [.i2cRecv]
  | "I2C_ACK", [l] => do return [.i2cAck (← fit? 1 l)]
  | "I2C_STOP", [] => some [.i2cStop]
  | "SPI_XFER", [b] => do return [.spiXfer (← fit? 8 b)]
  | "SPI_CS", [l] => do return [.spiCs (← fit? 1 l)]
  | "SPI_DC", [l] => do return [.spiDc (← fit? 1 l)]
  | "LCD_CMD", [b] => do return [.lcdCmd (← fit? 8 b)]
  | "LCD_DATA", [b] => do return [.lcdData (← fit? 8 b)]
  | "LCD_DATA16", [h] => do return [.lcdData16 (← fit? 16 h)]
  | "SET_WINDOW", [x0, y0, x1, y1] => do
    return [.setWindow (← fit? 16 x0) (← fit? 16 y0) (← fit? 16 x1) (← fit? 16 y1)]
  | "WRITE_PIXEL", [x, y, c] => do return [.writePixel (← fit? 16 x) (← fit? 16 y) (← fit? 16 c)]
  | "CLEAR", [h] => do return [.clear (← fit? 16 h)]
  | "DRAW_CHAR", [x, y, s] => do return [.drawChar (← fit? 16 x) (← fit? 16 y) (← fit? 8 s)]
  | "DRAW_STRING", [x, y, p] => do return [.drawString (← fit? 16 x) (← fit? 16 y) (← fit? 8 p)]
  | "I2C_ADDR", [a, rw] => do (Pseudo.i2cAddr (← fit? 7 a) (← fit? 1 rw)).expand
  | "I2C_MACK", [] => Pseudo.i2cMack.expand
  | "I2C_NACK", [] => Pseudo.i2cNack.expand
  | "CS_ASSERT", [] => Pseudo.csAssert.expand
  | "CS_RELEASE", [] => Pseudo.csRelease.expand
  | "SET_FG", [c] => do (Pseudo.setFg (← fit? 16 c)).expand
  | "SET_BG", [c] => do (Pseudo.setBg (← fit? 16 c)).expand
  | _, _ => none

/-- One line of text to the commands it stands for; an empty line or a comment stands for none (rule R113). -/
def parseLine (line : String) : Option (List Instr) :=
  let t := (uncomment none line.toList).dropWhile (· = ' ')
  let m := String.ofList (t.takeWhile (· ≠ ' '))
  let rest := (t.dropWhile (· ≠ ' ')).dropWhile (· = ' ')
  if t = [] then some []
  else if rest = [] then build? m []
  else if m = "TXT_STR" then
    match pieces none [] rest with
    | [a, q :: str] => do
      if q = dquote then (Pseudo.txtStr (← (operand? a).bind (fit? 8)) (← stringBytes? str)).expand else none
    | _ => none
  else ((pieces none [] rest).mapM operand?).bind (build? m)

/-- One line of text to command words (rules R101, R113). -/
def assemble (line : String) : Option (List CmdWord) := (parseLine line).map (·.map encode)

end Sys2Proof.Machine
end

