-- ==== Sys2Proof/Safety.lean ====
section
/-! DEFINITION. What a sound state is and how a run ends, in the terms statements use: the invariants of rule R57, the
registers as functions of the trace, the closed forms of what commands leave, the adaptive host (rule R313), and how runs
end and compare (rule R314). -/

namespace Sys2Proof.Machine

/-! ### The grammar of the I2C events (rule R57 f) -/

/-- An event on the I2C bus. -/
def isI2cEvent : Event → Bool
  | .iStart => true
  | .iRestart => true
  | .iTx _ _ => true
  | .iRx _ => true
  | .iMack _ => true
  | .iStop => true
  | .sCs _ => false
  | .sDc _ => false
  | .sXfer _ _ => false
  | .pix _ _ _ => false

/-- Where a sequence of I2C events stands in the regular expression of rule R57 (f). -/
inductive Phase where
  | never    -- no I2C event yet
  | closed   -- a whole number of transactions T, at least one
  | fresh    -- just after I_START or I_RESTART
  | write    -- inside a B whose first I_TX has bit 0 = 0
  | read     -- inside a B whose first I_TX has bit 0 = 1, no I_RX open
  | owed     -- after an I_RX whose I_MACK is still to come
  deriving DecidableEq, Repr

/-- The grammar of rule R57 (f) as a machine; `none` where no continuation of the expression has this event. Events of
the other bus are skipped. -/
def Phase.next : Phase → Event → Option Phase
  | .never, .iStart => some .fresh
  | .closed, .iStart => some .fresh
  | .fresh, .iTx b _ => if b.extractLsb' 0 1 = 0#1 then some .write else some .read
  | .fresh, .iStop => some .closed
  | .write, .iTx _ _ => some .write
  | .write, .iRestart => some .fresh
  | .write, .iStop => some .closed
  | .read, .iRx _ => some .owed
  | .read, .iRestart => some .fresh
  | .read, .iStop => some .closed
  | .owed, .iMack _ => some .read
  | p, e => if isI2cEvent e then none else some p

/-- Where a trace stands, newest event first; `none` when it does not match. -/
def phaseOf : List Event → Option Phase
  | [] => some .never
  | e :: es => (phaseOf es).bind (·.next e)

/-- The phase the registers of unit U1 stand for (rule R33). -/
def I2cUnit.phase (u : I2cUnit) : Phase :=
  match u.st with
  | .idle => .never
  | .stopped => .closed
  | .started => .fresh
  | .addressed => if u.dir = 0#1 then .write else .read
  | .transferring => if u.dir = 0#1 then .write else if u.ap = 0#1 then .read else .owed

/-- A transaction is open: STARTED, ADDRESSED or TRANSFERRING. -/
def I2cUnit.isOpen (u : I2cUnit) : Bool := u.st = .started || u.addressedOrLater

/-! ### The invariant -/

/-- What holds in every state a run reaches: rule R57 (a) to (d) and (f), the canonical form of the text memory, the
codes FAULT can hold (rule R270), the lines at rest (rule R150), and what a hang leaves (rule R284). -/
structure Inv (s : State) : Prop where
  textWf    : s.text.wf
  faultCode : s.fault.toNat ≤ 4
  ackOwed   : s.i2c.ap = 1#1 → s.i2c.st = .transferring ∧ s.i2c.dir = 1#1
  reading   : s.i2c.dir = 1#1 → s.i2c.st = .addressed ∨ s.i2c.st = .transferring
  neverUsed : s.i2c.st = .idle → ∀ e ∈ s.trRev, isI2cEvent e = false
  grammar   : phaseOf s.trRev = some s.i2c.phase
  restLines : s.busy = 0#1 → (s.i2c.pins.scl = 0#1 ↔ s.i2c.isOpen = true)
  restCount : s.busy = 0#1 → s.i2c.pins.bitcnt = 0#4
  hungQuiet : s.busy = 1#1 → s.rsp = none ∧ s.fault = 0#4

/-! ### Registers that mirror the trace (rules R36, R37, R40 to R42, R44) -/

/-- The acknowledge level of the newest I_TX; 0 at reset. -/
def lastAck : List Event → Bit
  | [] => 0#1
  | .iTx _ a :: _ => a
  | _ :: es => lastAck es

/-- The byte of the newest I_RX; 0 at reset. -/
def lastRx : List Event → Byte
  | [] => 0x00#8
  | .iRx d :: _ => d
  | _ :: es => lastRx es

/-- The level of the newest S_CS; 1 at reset. -/
def lastCs : List Event → Bit
  | [] => 1#1
  | .sCs l :: _ => l
  | _ :: es => lastCs es

/-- The level of the newest S_DC; 1 at reset. -/
def lastDc : List Event → Bit
  | [] => 1#1
  | .sDc l :: _ => l
  | _ :: es => lastDc es

/-- The bytes (out, in) of the newest S_XFER; zeros at reset. -/
def lastXfer : List Event → Byte × Byte
  | [] => (0x00#8, 0x00#8)
  | .sXfer o m :: _ => (o, m)
  | _ :: es => lastXfer es

/-- The levels (SCL_O, SDA_O) the I2C lines rest at, by the newest I2C event (rule R150). -/
def restLevels : List Event → Bit × Bit
  | [] => (1#1, 1#1)
  | .iStart :: _ => (0#1, 0#1)
  | .iRestart :: _ => (0#1, 0#1)
  | .iTx _ _ :: _ => (0#1, 1#1)
  | .iRx _ :: _ => (0#1, 1#1)
  | .iMack k :: _ => (0#1, k)
  | .iStop :: _ => (1#1, 1#1)
  | _ :: es => restLevels es

/-- The pins of unit U2 at rest after a transfer of `o` out and `m` in: SCK at its idle level, MOSI at the last bit sent. -/
def SpiPins.resting (p : Params) (o m : Byte) : SpiPins where
  shift  := m
  bitcnt := 0#4
  sck    := p.sckIdle
  mosi   := lastBit p o

/-- Each bus register holds what the newest event of its kind says, and so do the I2C lines between commands. SCK is at rest and
MOSI at the last bit sent: in SPI_MODE 0 with bit 7 first the 0 and the bit 0 of rule R44, otherwise by log 12. -/
structure Mirrors (s : State) : Prop where
  ackstat : s.i2c.ackstat = lastAck s.trRev
  i2cRx   : s.i2c.rx = lastRx s.trRev
  csN     : s.spi.csN = lastCs s.trRev
  dc      : s.spi.dc = lastDc s.trRev
  spiRx   : s.spi.rx = (lastXfer s.trRev).2
  mosi    : s.spi.pins.mosi = lastBit s.cfg (lastXfer s.trRev).1
  sckRest : s.spi.pins.sck = s.cfg.sckIdle
  spiIdle : s.spi.pins.bitcnt = 0#4
  lines   : s.busy = 0#1 → (s.i2c.pins.scl, s.i2c.pins.sda) = restLevels s.trRev

/-! ### The environment a statement may assume -/

/-- The environment has answers in hand for the next `n` bus operations, and lets each of them complete (rule R9: a claim
that needs a responsive environment states it as a premise). -/
abbrev Responsive (n : Nat) (s : State) : Prop := n ≤ s.env.length ∧ ∀ a ∈ s.env.take n, a.done = true

/-! ### What framed writes leave, in closed form (rule R190) -/

/-- The events of framed writes that complete, each with the answer it got: four per framed write. -/
def sentEvents : List (Bit × Byte) → List EnvAnswer → List Event
  | f :: fs, a :: as => .sDc f.1 :: .sCs 0#1 :: .sXfer f.2 a.miso :: .sCs 1#1 :: sentEvents fs as
  | _, _ => []

/-- Unit U2 after framed writes that complete: chip-select released, the select level and the byte of the last one, the
byte shifted in last, the divisor untouched. -/
def sentSpi (p : Params) : List (Bit × Byte) → List EnvAnswer → SpiUnit → SpiUnit
  | f :: fs, a :: as, u =>
    sentSpi p fs as
      { csN := 1#1, dc := f.1, rx := a.miso, div := u.div, pins := SpiPins.resting p f.2 a.miso }
  | _, _, u => u

/-- The state after framed writes that complete. -/
def State.sent (s : State) (fs : List (Bit × Byte)) : State :=
  { s with
    spi := sentSpi s.cfg fs s.env s.spi
    trRev := (sentEvents fs s.env).reverse ++ s.trRev
    env := s.env.drop fs.length }

/-- The pixels a list of events asks for, in order: the arguments of its PIX markers (rule R7). -/
def pixels (es : List Event) : List (Half × Half × Half) :=
  es.filterMap fun
    | .pix x y c => some (x, y, c)
    | _ => none

/-- The bytes a list of events sent while chip-select was asserted, in order, each with the select level it was sent under
(rule R201), from the levels of CS_N and DC before it. A byte sent with CS_N = 1 reaches no display. -/
def framedBytes : Bit → Bit → List Event → List (Bit × Byte)
  | _, _, [] => []
  | _, dc, .sCs l :: es => framedBytes l dc es
  | cs, _, .sDc l :: es => framedBytes cs l es
  | cs, dc, .sXfer o _ :: es => if cs = 0#1 then (dc, o) :: framedBytes cs dc es else framedBytes cs dc es
  | cs, dc, _ :: es => framedBytes cs dc es

/-! ### What the rasterizer is to draw (rules R222, R224, R227, R230, R231) -/

/-- The pixels of a character of glyph `k` with its cell at `(x, y)`, in the order of rule R222: columns outer, rows
inner, those beyond coordinate 128 left out (rule R224), a set bit in FG and an unset one in BG. -/
def charPixels (g : Glyphs) (fg bg x y : Half) (k : Fin 95) : List (Half × Half × Half) :=
  (List.finRange 5).flatMap fun i =>
    ((List.finRange 8).filter fun j => x.toNat + i.val ≤ 128 ∧ y.toNat + j.val ≤ 128).map fun j =>
      (BitVec.ofNat 16 (x.toNat + i.val), BitVec.ofNat 16 (y.toNat + j.val),
        if g[k][i].getLsbD j.val then fg else bg)

/-- The number of pixels of a character (rule R227), `x` and `y` read as integers: `nc * nr`. -/
def charPixelCount (x y : Half) : Nat := min 5 (129 - x.toNat) * min 8 (129 - y.toNat)

/-- A byte DRAW_STRING goes on after, `nl` being the newline: no terminator, and the newline or a drawable character (rule
R229). -/
def drawsOn (nl ch : Byte) : Prop := ch ≠ 0x00#8 ∧ (ch = nl ∨ drawable ch = true)

/-- The pixels of one character with its cell at `(x, y)`; none for a code that has no glyph. -/
def glyphPixels (g : Glyphs) (fg bg x y : Half) (ch : Byte) : List (Half × Half × Half) :=
  match glyphIndex? ch with
  | none => []
  | some k => charPixels g fg bg x y k

/-- The pixels of the characters `chs` drawn from cursor `(cx, cy)` with left margin `x` and newline `nl` (rule R230). -/
def stringPixels (nl : Byte) (g : Glyphs) (fg bg x : Half) : Half → Half → List Byte → List (Half × Half × Half)
  | _, _, [] => []
  | cx, cy, ch :: chs =>
    if ch = nl then stringPixels nl g fg bg x x (cy + 10#16) chs
    else glyphPixels g fg bg cx cy ch ++ stringPixels nl g fg bg x (cx + 6#16) cy chs

/-- The drawable characters since the last newline, or since the start: `n` of rule R231. -/
def sinceNewline (nl : Byte) (chs : List Byte) : Nat := (chs.reverse.takeWhile (· ≠ nl)).length

/-- The cursor after the characters `chs` (rule R231): `CUR_X = x + 6n`, `CUR_Y = y + 10L`; with no newline `x` is where
the string began, and with one it is the left margin, the same coordinate. -/
def cursorAfter (nl : Byte) (x y : Half) (chs : List Byte) : Half × Half :=
  (x + BitVec.ofNat 16 (6 * sinceNewline nl chs), y + BitVec.ofNat 16 (10 * chs.count nl))

/-- TEXT holds the characters `chs` from index `p` on, none of them past index 255, and DRAW_STRING goes on after each. -/
def HoldsText (s : State) (p : Byte) (chs : List Byte) : Prop :=
  p.toNat + chs.length ≤ 256 ∧
    ∀ k : Nat, ∀ ch : Byte, chs[k]? = some ch → s.readText (BitVec.ofNat 8 (p.toNat + k)) = ch ∧ drawsOn s.cfg.newline ch

/-! ### Runs, how they end, and when they are the same (rules R313, R314) -/

/-- The ends of a run of rule R314, and `running` for a run that has not ended. -/
inductive Ending where
  | running | finished | hung | blocked
  deriving DecidableEq, Repr

/-- How the run stands: hung and blocked first, since only reset leaves them (rules R282, R284). -/
def State.ending (s : State) : Ending :=
  if s.busy = 1#1 then .hung
  else if s.fault ≠ 0#4 then .blocked
  else if s.inputs = [] then .finished
  else .running

/-- What is observed of a run (rule R314): its responses in order, its trace, how it ends. -/
structure Observation where
  responses : List RspWord
  trace     : List Event
  ending    : Ending
  deriving DecidableEq, Repr

/-- The responses of a run after one more step: a run starts at reset (rule R314), so a reset begins a new one. -/
def responsesAfter (s : State) (rs : List RspWord) (t : State) : List RspWord :=
  if s.inputs.head? = some .reset then [] else rs ++ t.rsp.toList

/-- What is observed of the run after `n` more steps, `rs` being its responses so far; the host's list decides what is
presented (rule R313). -/
def observe : Nat → List RspWord → State → Observation
  | 0, rs, s => ⟨rs, s.trace, s.ending⟩
  | n + 1, rs, s =>
    match step s with
    | .next t => observe n (responsesAfter s rs t) t
    | .fault _ => ⟨rs, s.trace, s.ending⟩
    | .refused _ => ⟨rs, s.trace, s.ending⟩

/-- Two runs are observably equal: both have ended, with the same responses, the same trace and the same ending (rule R314).
A run is a state after reset and a number of steps. -/
def ObservablyEqual (m : Nat) (s : State) (n : Nat) (t : State) : Prop :=
  (observe m [] s).ending ≠ .running ∧ (observe m [] s).responses = (observe n [] t).responses ∧
    (observe m [] s).trace = (observe n [] t).trace ∧ (observe m [] s).ending = (observe n [] t).ending

/-- An adaptive host (rule R313): from the responses so far to the next command, or `none` for "finished". -/
abbrev AdaptiveHost := List RspWord → Option CmdWord

/-- The host presents one word to a block that has nothing else to come. -/
def State.facing (s : State) (w : CmdWord) : State := { s with inputs := [.command w] }

/-- What is observed of the run of an adaptive host after at most `n` commands, `rs` being the responses so far: it waits for
each response before it chooses the next command, and for ever where none comes (rule R313). -/
def AdaptiveHost.observe (h : AdaptiveHost) : Nat → List RspWord → State → Observation
  | 0, rs, s => ⟨rs, s.trace, if s.ending = .finished ∧ h rs ≠ none then .running else s.ending⟩
  | n + 1, rs, s =>
    match h rs with
    | none => ⟨rs, s.trace, s.ending⟩
    | some w =>
      match step (s.facing w) with
      | .next t =>
        match t.rsp with
        | some r => AdaptiveHost.observe h n (rs ++ [r]) t
        | none => ⟨rs, t.trace, t.ending⟩
      | .fault _ => ⟨rs, s.trace, s.ending⟩
      | .refused _ => ⟨rs, s.trace, s.ending⟩

end Sys2Proof.Machine
end

