-- ==== Sys2Proof/Machine/BusReader.lean ====
section
/-! DEFINITION. The line activity of the two buses and its reading back as events (rules R157, R178): what the lines do
during a command, and for each bus a reader that sees nothing but the lines. No meaning uses it. -/

namespace Sys2Proof.Machine

/-! ### The I2C bus: activity -/

/-- What can be seen of the I2C bus at one moment: the levels of its lines, and what the block drives SDA with. -/
structure I2cSample where
  scl   : Bit
  sda   : Bit
  drive : Bit
  deriving DecidableEq, Repr

/-- What is seen of the lines. -/
def I2cLines.sample (l : I2cLines) : I2cSample := ⟨l.sclIn, l.sdaIn, l.pins.sda⟩

/-- What is seen after each of the steps. -/
def I2cLines.samples : I2cLines → List I2cPinOp → List I2cSample
  | _, [] => []
  | l, op :: ops => (op.apply l).sample :: I2cLines.samples (op.apply l) ops

/-- The pin-level steps of the I2C commands (rules R151 to R156); `none` for a command that is none of the six. -/
def i2cSteps : Instr → Option (EnvAnswer → List I2cPinOp)
  | .i2cStart => some fun _ => startSteps
  | .i2cRestart => some fun _ => restartSteps
  | .i2cSend b => some fun a => sendSteps b a.ack
  | .i2cRecv => some fun a => recvSteps a.data
  | .i2cAck k => some fun _ => ackSteps k
  | .i2cStop => some fun _ => stopSteps
  | .nop => none
  | .rdReg _ => none
  | .wrReg _ _ => none
  | .txtWr _ _ => none
  | .txtRd _ => none
  | .spiXfer _ => none
  | .spiCs _ => none
  | .spiDc _ => none
  | .lcdCmd _ => none
  | .lcdData _ => none
  | .lcdData16 _ => none
  | .setWindow _ _ _ _ => none
  | .writePixel _ _ _ => none
  | .clear _ => none
  | .drawChar _ _ _ => none
  | .drawString _ _ _ => none

/-- Whether a command is legal by the state table (rule R131); only the six I2C commands look at it. -/
def I2cUnit.allows (u : I2cUnit) : Instr → Bool
  | .i2cStart => u.mayStart
  | .i2cRestart => u.mayRestart
  | .i2cSend _ => u.maySend
  | .i2cRecv => u.mayRecv
  | .i2cAck _ => u.mayAck
  | .i2cStop => u.mayStop
  | .nop => true
  | .rdReg _ => true
  | .wrReg _ _ => true
  | .txtWr _ _ => true
  | .txtRd _ => true
  | .spiXfer _ => true
  | .spiCs _ => true
  | .spiDc _ => true
  | .lcdCmd _ => true
  | .lcdData _ => true
  | .lcdData16 _ => true
  | .setWindow _ _ _ _ => true
  | .writePixel _ _ _ => true
  | .clear _ => true
  | .drawChar _ _ _ => true
  | .drawString _ _ _ => true

/-- The steps the environment's answer lets an operation make: all of them, or those before the wait that holds it for ever;
the clock stretched where the answer says so (rules R143, R150). -/
def stepsMade (a : EnvAnswer) (steps : List I2cPinOp) : List I2cPinOp :=
  stretched a.stretch (if a.done then steps else heldAt (a.stall % waits steps) steps)

/-- What is seen of the I2C lines while a command executes. A command that is no legal I2C command moves neither line. -/
def i2cActivity (i : Instr) (s : State) : List I2cSample :=
  match i2cSteps i with
  | some steps => if s.i2c.allows i then s.i2c.pins.lines.samples (stepsMade s.answer (steps s.answer)) else []
  | none => []

/-- What is seen of the I2C lines during a step. -/
def State.i2cActivity (s : State) : List I2cSample :=
  match s.inputs.head? with
  | some (.command w) =>
    if s.busy = 0#1 ∧ s.fault = 0#4 then
      match decode w with
      | .ok i => Machine.i2cActivity i s
      | .error _ => []
    else []
  | some .reset => []
  | none => []

/-! ### The I2C bus: the reader (rule R157) -/

/-- A reader of the I2C lines: where the transaction stands by the conditions and bytes seen so far, the lines as last seen,
what was on SDA at a rise of SCL that no fall has followed yet, and the clocks since the last whole item. -/
structure I2cReader where
  phase : Phase
  last  : I2cSample
  rise  : Option I2cSample
  bits  : List I2cSample
  deriving DecidableEq, Repr

/-- The reader after a reset: an idle bus (rule R150). -/
def I2cReader.fresh : I2cReader := ⟨.never, ⟨1#1, 1#1, 1#1⟩, none, []⟩

/-- The levels of SDA at eight clocks as a byte, the first as bit 7 (rule R75 a). -/
def byteOfBits : List Bit → Option Byte
  | [b7, b6, b5, b4, b3, b2, b1, b0] => some (b7 ++ b6 ++ b5 ++ b4 ++ b3 ++ b2 ++ b1 ++ b0)
  | _ => none

/-- What whole item the clocks seen make up in a phase (rule R157): after a START or in a write, nine clocks with the block
driving eight bits and releasing SDA for the ninth; in a read, eight clocks with SDA released; after an I_RX, one clock
with the block driving SDA. -/
def clockedItem (ph : Phase) (bits : List I2cSample) : Option Event :=
  match ph with
  | .never => none
  | .closed => none
  | .owed =>
    match bits with
    | [k] => if k.sda = k.drive then some (.iMack k.sda) else none
    | _ => none
  | .read =>
    if bits.all (fun c => c.drive = 1#1) then (byteOfBits (bits.map I2cSample.sda)).map .iRx else none
  | .fresh => sent
  | .write => sent
where
  /-- Nine clocks of a byte sent. -/
  sent : Option Event :=
    match bits.getLast? with
    | some a =>
      if bits.dropLast.all (fun c => c.sda = c.drive) ∧ a.drive = 1#1 then
        (byteOfBits (bits.dropLast.map I2cSample.sda)).map fun b => .iTx b a.sda
      else none
    | none => none

/-- An item has been read: the event, and the phase after it. -/
def I2cReader.item (r : I2cReader) (e : Event) : List Event × I2cReader :=
  ([e], { r with phase := (r.phase.next e).getD r.phase, rise := none, bits := [] })

/-- The reader sees the lines: a change of SDA with SCL high is a condition, a rise of SCL begins a clock, a fall ends it. -/
def I2cReader.see (r : I2cReader) (c : I2cSample) : List Event × I2cReader :=
  let r' := { r with last := c }
  if r.last.scl = 1#1 ∧ c.scl = 1#1 ∧ r.last.sda ≠ c.sda then
    if c.sda = 1#1 then r'.item .iStop
    else r'.item (if r.phase = .never ∨ r.phase = .closed then .iStart else .iRestart)
  else if r.last.scl = 0#1 ∧ c.scl = 1#1 then ([], { r' with rise := some c })
  else if r.last.scl = 1#1 ∧ c.scl = 0#1 then
    match r.rise with
    | none => ([], r')
    | some b =>
      let r'' := { r' with rise := none, bits := r.bits ++ [b] }
      match clockedItem r.phase r''.bits with
      | some e => r''.item e
      | none => ([], r'')
  else ([], r')

/-- The reader sees the lines one moment after another. -/
def I2cReader.read (r : I2cReader) : List I2cSample → List Event × I2cReader
  | [] => ([], r)
  | c :: cs => ((r.see c).1 ++ (I2cReader.read (r.see c).2 cs).1, (I2cReader.read (r.see c).2 cs).2)

/-- Between commands a reader stands where unit U1 stands, with no clock begun, and the lines are at rest (rule R150). -/
structure I2cReader.Tracks (r : I2cReader) (s : State) : Prop where
  phase  : r.phase = s.i2c.phase
  last   : r.last = s.i2c.pins.lines.sample
  rise   : r.rise = none
  bits   : r.bits = []
  closed : s.i2c.isOpen = false → s.i2c.pins.scl = 1#1 ∧ s.i2c.pins.sda = 1#1
  opened : s.i2c.isOpen = true → s.i2c.pins.scl = 0#1

/-! ### The SPI bus (rule R178) -/

/-- What can be seen of the SPI bus: an assignment of a framing line, or the levels of SCK, MOSI and MISO at one moment. -/
inductive SpiSeen where
  | cs (l : Bit)
  | dc (l : Bit)
  | levels (sck mosi miso : Bit)
  deriving DecidableEq, Repr

/-- What is seen after each of the steps. -/
def SpiLines.seen (p : Params) : SpiLines → List SpiPinOp → List SpiSeen
  | _, [] => []
  | l, op :: ops =>
    let l' := op.apply p l
    .levels l'.pins.sck l'.pins.mosi l'.miso :: SpiLines.seen p l' ops

/-- What is seen of the SPI bus as an event takes place, from pins `q`; an event of another bus moves no line of this one. -/
def spiActivity (p : Params) (q : SpiPins) : Event → List SpiSeen
  | .sCs l => [.cs l]
  | .sDc l => [.dc l]
  | .sXfer o m => q.lines.seen p (spiSteps p o m)
  | .iStart => []
  | .iRestart => []
  | .iTx _ _ => []
  | .iRx _ => []
  | .iMack _ => []
  | .iStop => []
  | .pix _ _ _ => []

/-- The pins of unit U2 after an event. -/
def SpiPins.after (q : SpiPins) (p : Params) : Event → SpiPins
  | .sXfer o m => q.transfer p o m
  | .sCs _ => q
  | .sDc _ => q
  | .iStart => q
  | .iRestart => q
  | .iTx _ _ => q
  | .iRx _ => q
  | .iMack _ => q
  | .iStop => q
  | .pix _ _ _ => q

/-- What is seen of the SPI bus as the events of a trace take place one after another. -/
def spiRun (p : Params) : SpiPins → List Event → List SpiSeen
  | _, [] => []
  | q, e :: es => spiActivity p q e ++ spiRun p (q.after p e) es

/-- A reader of the SPI bus: the level of SCK as last seen, and the (MOSI, MISO) pairs sampled since the last whole byte. -/
structure SpiReader where
  sck  : Bit
  bits : List (Bit × Bit)
  deriving DecidableEq, Repr

/-- The reader of a bus at rest. -/
def SpiReader.fresh (p : Params) : SpiReader := ⟨p.sckIdle, []⟩

/-- The level SCK changes to at the edge on which data is sampled (rule R178: the rising one in SPI_MODE 0). -/
def samplingEdge (p : Params) : Bit := if samplesLate p then p.sckIdle else ~~~p.sckIdle

/-- Eight bits as a byte, in the order they go over the bus. -/
def byteInOrder (p : Params) (l : List Bit) : Option Byte := byteOfBits (if p.spiMsbFirst then l else l.reverse)

/-- The byte pair eight clocks make up. -/
def xferOf (p : Params) (bits : List (Bit × Bit)) : Option Event :=
  (byteInOrder p (bits.map Prod.fst)).bind fun o => (byteInOrder p (bits.map Prod.snd)).map fun m => .sXfer o m

/-- The reader sees the bus: a line assignment is its event, and eight sampling edges are one transfer (rule R178). -/
def SpiReader.see (p : Params) (r : SpiReader) : SpiSeen → List Event × SpiReader
  | .cs l => ([.sCs l], r)
  | .dc l => ([.sDc l], r)
  | .levels sck mosi miso =>
    if r.sck ≠ sck ∧ sck = samplingEdge p then
      match xferOf p (r.bits ++ [(mosi, miso)]) with
      | some e => ([e], ⟨sck, []⟩)
      | none => ([], ⟨sck, r.bits ++ [(mosi, miso)]⟩)
    else ([], { r with sck := sck })

/-- The reader sees the bus one moment after another. -/
def SpiReader.read (p : Params) (r : SpiReader) : List SpiSeen → List Event × SpiReader
  | [] => ([], r)
  | c :: cs => ((r.see p c).1 ++ (SpiReader.read p (r.see p c).2 cs).1, (SpiReader.read p (r.see p c).2 cs).2)

/-- The levels of MOSI at the edges on which data is sampled, from SCK at a level. -/
def mosiAtEdges (p : Params) : Bit → List SpiSeen → List Bit
  | _, [] => []
  | sck, .levels c mosi _ :: w =>
    if sck ≠ c ∧ c = samplingEdge p then mosi :: mosiAtEdges p c w else mosiAtEdges p c w
  | sck, .cs _ :: w => mosiAtEdges p sck w
  | sck, .dc _ :: w => mosiAtEdges p sck w

/-- An event of the SPI bus. -/
def isSpiEvent : Event → Bool
  | .sCs _ => true
  | .sDc _ => true
  | .sXfer _ _ => true
  | .iStart => false
  | .iRestart => false
  | .iTx _ _ => false
  | .iRx _ => false
  | .iMack _ => false
  | .iStop => false
  | .pix _ _ _ => false

end Sys2Proof.Machine
end

