-- ==== Sys2Proof/Machine/RefDisplay.lean ====
section
/-! DEFINITION. The reference model of the external display (rule R201), for tests only: it is not part of the block, it is
not in State, and no statement about the block's trace rests on it. It reads the framed bytes of a trace. Where the spec
leaves the display's contents open (93_implementation_defined.md X3) it knows nothing from there on (log 19). -/

namespace Sys2Proof.Machine

/-- What the display takes the next data bytes for. -/
inductive DisplayMode where
  | unasked   -- nothing awaits them: no command yet, or a window command that has had its four
  | ignored   -- parameters of a command this model does not know
  | column
  | page
  | memory
  deriving DecidableEq, Repr

/-- The display: its window once set, the write cursor once put somewhere, and the cells written, newest first. `known` is
false once something has happened after which every cell may hold any value (93_implementation_defined.md X3; log 19). -/
structure Display where
  mode   : DisplayMode
  params : List Byte
  xs     : Option (Nat × Nat)    -- (x0, x1)
  ys     : Option (Nat × Nat)    -- (y0, y1)
  cursor : Option (Nat × Nat)
  cells  : List (Nat × Nat × Half)
  known  : Bool
  deriving DecidableEq, Repr

/-- A display that has received nothing: no window is set. -/
def Display.fresh : Display := ⟨.unasked, [], none, none, none, [], true⟩

/-- From here on every cell may hold any value. -/
def Display.lost (d : Display) : Display := { d with known := false }

/-- Where the memory-write command puts the cursor: the corner of the window, if one is set. -/
def Display.corner (d : Display) : Option (Nat × Nat) := d.xs.bind fun x => d.ys.map fun y => (x.1, y.1)

/-- A command byte. One that cuts parameters or a colour word short leaves the contents open; one that follows a window command
before any of its parameters leaves the window as it was set before, and the contents known (DESIGN CHOICE, log 19). Where
two of the three command bytes are equal the byte is taken for the column command before the page command before the
memory-write command (DESIGN CHOICE, log 19). One that is none of the three is taken to leave the cells alone, with its
parameters (DESIGN CHOICE, log 19). -/
def Display.command (p : Params) (d : Display) (b : Byte) : Display :=
  let d := { d with params := [], known := d.known && d.params.isEmpty }
  if b = p.cmdCaset then { d with mode := .column }
  else if b = p.cmdPaset then { d with mode := .page }
  else if b = p.cmdRamwr then { d with mode := .memory, cursor := d.corner }
  else { d with mode := .ignored }

/-- The cell after one in raster order, in a window whose columns end before `endX` (rule R201). -/
def advanceCell (x0 endX : Nat) (c : Nat × Nat) : Nat × Nat :=
  if c.1 + 1 < endX then (c.1 + 1, c.2) else (x0, c.2 + 1)

/-- One colour word at the cursor, which advances in raster order; `incl` is WINDOW_END_INCLUSIVE (rule R11). Without a
window, or outside it or the surface, the contents are open. -/
def Display.store (incl : Bool) (d : Display) (c : Half) : Display :=
  match d.xs, d.ys, d.cursor with
  | some (x0, x1), some (_, y1), some (cx, cy) =>
    let endX := if incl then x1 + 1 else x1
    let endY := if incl then y1 + 1 else y1
    if cx < endX ∧ cy < endY ∧ cx < Config.surfW ∧ cy < Config.surfH then
      { d with cells := (cx, cy, c) :: d.cells, cursor := some (advanceCell x0 endX (cx, cy)) }
    else d.lost
  | _, _, _ => d.lost

/-- A data byte: a window parameter, half of a colour word, or one that nothing awaits, after which the contents are open
(DESIGN CHOICE, log 19). -/
def Display.data (incl : Bool) (d : Display) (b : Byte) : Display :=
  match d.mode, d.params with
  | .column, [a0, a1, b0] => { d with mode := .unasked, params := [], xs := some ((a0 ++ a1).toNat, (b0 ++ b).toNat) }
  | .page, [a0, a1, b0] => { d with mode := .unasked, params := [], ys := some ((a0 ++ a1).toNat, (b0 ++ b).toNat) }
  | .memory, [hi] => Display.store incl { d with params := [] } (hi ++ b)
  | .ignored, _ => d
  | .unasked, _ => d.lost
  | _, ps => { d with params := ps ++ [b] }

/-- One framed byte. -/
def Display.receive (p : Params) (incl : Bool) (d : Display) (f : Bit × Byte) : Display :=
  if f.1 = 0#1 then d.command p f.2 else d.data incl f.2

/-- The display after the framed bytes of a trace that starts at reset, both framing lines at 1, from what the display was
before. It keeps its window, its write position and its memory over a reset of the block (rule R302). What it makes of a
transaction that a reset aborted is unspecified (93_implementation_defined.md X18): `d` is what that left. -/
def Display.reads (p : Params) (incl : Bool) (d : Display) (trace : List Event) : Display :=
  (framedBytes 1#1 1#1 trace).foldl (Display.receive p incl) d

/-- The same of a display that has received nothing before the trace. So it is taken to have been reset with the block, half a
byte or half its parameters forgotten, and its contents known (DESIGN CHOICE, log 19): a trace since a later reset, above all
one that aborted a transaction, is `Display.reads` from whatever display there was. -/
def Display.show (p : Params) (incl : Bool) (trace : List Event) : Display := Display.reads p incl Display.fresh trace

/-- The colour last stored in a cell. -/
def Display.cell (d : Display) (x y : Nat) : Option Half :=
  (d.cells.find? fun c => c.1 = x ∧ c.2.1 = y).map fun c => c.2.2

end Sys2Proof.Machine
end

