-- ==== Sys2Proof/Certificates/Slice0/Obligations.lean ====
section
/-! DEFINITION. The statements for the provers. Every one is about every state unless it says otherwise; the environment's
answers are part of the state (log 1), so a statement about every state holds for every environment. -/

open Sys2Proof Sys2Proof.Machine

/-! ### Words the statements share -/

namespace Sys2Proof.Claims

/-- The rows of spec/opcode_table.json: mnemonic, match, mask. -/
def tableRows : List (String × CmdWord × CmdWord) :=
  [ ("NOP", 0x000000000000000000#72, 0xFFFFFFFFFFFFFFFFFF#72),
    ("RD_REG", 0x010000000000000000#72, 0xFFFFFFFFFFFF00FFFF#72),
    ("WR_REG", 0x020000000000000000#72, 0xFFFFFFFFFFFF000000#72),
    ("TXT_WR", 0x030000000000000000#72, 0xFFFFFFFFFFFFFF0000#72),
    ("TXT_RD", 0x040000000000000000#72, 0xFFFFFFFFFFFFFF00FF#72),
    ("I2C_START", 0x100000000000000000#72, 0xFFFFFFFFFFFFFFFFFF#72),
    ("I2C_RESTART", 0x110000000000000000#72, 0xFFFFFFFFFFFFFFFFFF#72),
    ("I2C_SEND", 0x120000000000000000#72, 0xFFFFFFFFFFFFFFFF00#72),
    ("I2C_RECV", 0x130000000000000000#72, 0xFFFFFFFFFFFFFFFFFF#72),
    ("I2C_ACK", 0x140000000000000000#72, 0xFFFFFFFFFFFFFFFFFE#72),
    ("I2C_STOP", 0x150000000000000000#72, 0xFFFFFFFFFFFFFFFFFF#72) ] ++
  [ ("SPI_XFER", 0x200000000000000000#72, 0xFFFFFFFFFFFFFFFF00#72),
    ("SPI_CS", 0x210000000000000000#72, 0xFFFFFFFFFFFFFFFFFE#72),
    ("SPI_DC", 0x220000000000000000#72, 0xFFFFFFFFFFFFFFFFFE#72),
    ("LCD_CMD", 0x230000000000000000#72, 0xFFFFFFFFFFFFFFFF00#72),
    ("LCD_DATA", 0x240000000000000000#72, 0xFFFFFFFFFFFFFFFF00#72),
    ("LCD_DATA16", 0x250000000000000000#72, 0xFFFFFFFFFFFFFF0000#72),
    ("SET_WINDOW", 0x260000000000000000#72, 0xFF0000000000000000#72),
    ("WRITE_PIXEL", 0x270000000000000000#72, 0xFFFFFF000000000000#72),
    ("CLEAR", 0x280000000000000000#72, 0xFFFFFFFFFFFFFF0000#72),
    ("DRAW_CHAR", 0x300000000000000000#72, 0xFFFFFFFF0000000000#72),
    ("DRAW_STRING", 0x310000000000000000#72, 0xFFFFFFFF0000000000#72) ]

/-- The causes of ILLEGAL_CMD (rule R271): (a, b) the word matches no row of the table; (c) RD_REG or WR_REG of a number
above 8; (d) WR_REG of a read-only number. -/
def Illegal (w : CmdWord) : Prop :=
  (∀ row ∈ tableRows, w &&& row.2.2 ≠ row.2.1) ∨
  (∃ r, decode w = .ok (.rdReg r) ∧ 9 ≤ r.toNat) ∨
  (∃ r v, decode w = .ok (.wrReg r v) ∧ (9 ≤ r.toNat ∨ r.toNat = 0 ∨ 5 ≤ r.toNat ∧ r.toNat ≤ 8))

/-- A fault entry with no earlier effect (rule R280): FAULT, the response and BUSY, and nothing else. -/
def faulted (s : State) (code : BitVec 4) : State :=
  { s with fault := code, rsp := some (code ++ 0x00000#20), busy := 0#1 }

/-- A command that ends OK with no data on a state (rules R110, R112): response 0x000000. -/
def ended (s : State) : State := { s with rsp := some 0x000000#24, busy := 0#1 }

/-- The command hangs with nothing done: BUSY stays 1, no response, and no state changed but the hidden pin-level state of
unit U1, which rules R150 to R156 leave somewhere on the way (log 10), and the environment's answer, now used up (log 1). -/
def HangsAtPins (i : Instr) (s : State) : Prop :=
  ∃ p : I2cPins, exec i s = .next { s with busy := 1#1, rsp := none, i2c.pins := p, env := s.env.tail }

/-- The values rule R55 gives for reset, and the pins of rule R301. The hidden registers of unit U3 and TEXT, unspecified
there, are not named. SCK is at the idle level of the mode, which in SPI_MODE 0 is the 0 of both rules (log 12). -/
structure ResetValues (t : State) : Prop where
  i2c   : t.i2c.st = .idle ∧ t.i2c.dir = 0#1 ∧ t.i2c.ap = 0#1 ∧ t.i2c.ackstat = 0#1 ∧ t.i2c.rx = 0x00#8 ∧
    t.i2c.div = 0x0000#16 ∧ t.i2c.pins.shift = 0x00#8 ∧ t.i2c.pins.bitcnt = 0#4
  lines : t.i2c.pins.scl = 1#1 ∧ t.i2c.pins.sda = 1#1
  spi   : t.spi.csN = 1#1 ∧ t.spi.dc = 1#1 ∧ t.spi.rx = 0x00#8 ∧ t.spi.div = 0x0000#16 ∧
    t.spi.pins.sck = t.cfg.sckIdle ∧ t.spi.pins.mosi = 0#1 ∧ t.spi.pins.shift = 0x00#8 ∧ t.spi.pins.bitcnt = 0#4
  ras   : t.ras.fg = 0xFFFF#16 ∧ t.ras.bg = 0x0000#16 ∧ t.ras.curX = 0x0000#16 ∧ t.ras.curY = 0x0000#16
  front : t.fault = 0#4 ∧ t.busy = 0#1 ∧ t.trace = []
  ports : t.ports = { cmdReady := 1#1, rspValid := 0#1, rspWord := t.ports.rspWord, busy := 0#1, fault := 0#4,
                      sclO := 1#1, sdaO := 1#1, sck := t.cfg.sckIdle, mosi := 0#1, csN := 1#1, dc := 1#1 }
  status : t.status = 0x00C0#16

/-- A cell of the state table of rule R131: the next (ST, DIR, AP), or `none` for F. -/
abbrev Cell := Option (I2cSt × Bit × Bit)

/-- The state table of rule R131 for a byte `b` sent: the row's (ST, DIR, AP), then the cells of I2C_START, I2C_RESTART,
I2C_SEND b, I2C_RECV, I2C_ACK k, I2C_STOP. -/
def stateTable (b : Byte) : List ((I2cSt × Bit × Bit) × List Cell) :=
  [ ((.idle, 0, 0), [some (.started, 0, 0), none, none, none, none, none]),
    ((.started, 0, 0), [none, none, some (.addressed, b.extractLsb' 0 1, 0), none, none, some (.stopped, 0, 0)]),
    ((.addressed, 0, 0), [none, some (.started, 0, 0), some (.transferring, 0, 0), none, none, some (.stopped, 0, 0)]),
    ((.addressed, 1, 0), [none, some (.started, 0, 0), none, some (.transferring, 1, 1), none, some (.stopped, 0, 0)]),
    ((.transferring, 0, 0), [none, some (.started, 0, 0), some (.transferring, 0, 0), none, none, some (.stopped, 0, 0)]),
    ((.transferring, 1, 0), [none, some (.started, 0, 0), none, some (.transferring, 1, 1), none, some (.stopped, 0, 0)]),
    ((.transferring, 1, 1), [none, none, none, none, some (.transferring, 1, 0), none]),
    ((.stopped, 0, 0), [some (.started, 0, 0), none, none, none, none, none]) ]

/-- The six I2C commands in the order of the table's columns. -/
def i2cCommands (b : Byte) (k : Bit) : List Instr :=
  [.i2cStart, .i2cRestart, .i2cSend b, .i2cRecv, .i2cAck k, .i2cStop]

/-- One of the six I2C commands. -/
def isI2c (i : Instr) : Prop := ∃ b k, i ∈ i2cCommands b k

/-- One of the five system commands (44_system_commands.md). -/
def isSystem (i : Instr) : Prop :=
  i = .nop ∨ (∃ r, i = .rdReg r) ∨ (∃ r v, i = .wrReg r v) ∨ (∃ a v, i = .txtWr a v) ∨ ∃ a, i = .txtRd a

/-- DRAW_CHAR or DRAW_STRING. -/
def isDraw (i : Instr) : Prop := (∃ x y c, i = .drawChar x y c) ∨ ∃ x y p, i = .drawString x y p

/-- The framed bytes (`dc:byte`) of the window command sequence of rule R194. -/
def windowBytes (p : Params) (x0 y0 x1 y1 : Half) : List (Bit × Byte) :=
  [(0, p.cmdCaset), (1, x0.extractLsb' 8 8), (1, x0.extractLsb' 0 8), (1, x1.extractLsb' 8 8), (1, x1.extractLsb' 0 8),
   (0, p.cmdPaset), (1, y0.extractLsb' 8 8), (1, y0.extractLsb' 0 8), (1, y1.extractLsb' 8 8), (1, y1.extractLsb' 0 8)] ++
  (if p.windowRamwr then [(0, p.cmdRamwr)] else [])

/-- The two framed bytes of a 16-bit word (rule R193). -/
def wordBytes (h : Half) : List (Bit × Byte) := [(1, h.extractLsb' 8 8), (1, h.extractLsb' 0 8)]

/-- The framed bytes of a command of 42_display_framing.md, with the events before them (rules R191 to R196). -/
def displayBytes (p : Params) : Instr → Option (List Event × List (Bit × Byte))
  | .lcdCmd b => some ([], [(0, b)])
  | .lcdData b => some ([], [(1, b)])
  | .lcdData16 h => some ([], wordBytes h)
  | .setWindow x0 y0 x1 y1 => some ([], windowBytes p x0 y0 x1 y1)
  | .writePixel x y c => some ([.pix x y c], windowBytes p x y (x + 1) (y + 1) ++ wordBytes c)
  | .clear h => some ([], windowBytes p 0 0 p.clearX1 p.clearY1 ++ (List.replicate (128 * 128) (wordBytes h)).flatten)
  | _ => none

/-- The framed bytes of one WRITE_PIXEL after another (rule R195). -/
def pixelBytes (p : Params) (ps : List (Half × Half × Half)) : List (Bit × Byte) :=
  ps.flatMap fun q => windowBytes p q.1 q.2.1 (q.1 + 1#16) (q.2.1 + 1#16) ++ wordBytes q.2.2

end Sys2Proof.Claims

open Sys2Proof.Claims

/-! ### Encoding and decoding -/

/-- Rules R101 to R105: decoding the word of any command gives that command back, every operand at every value. -/
def Obligations.DecodeOfEncode : Prop := ∀ i : Instr, decode (encode i) = .ok i

/-- Rules R101 to R105: a word that decodes is the word of the command it decodes to, so each command has one word. -/
def Obligations.EncodeOfDecode : Prop := ∀ (w : CmdWord) (i : Instr), decode w = .ok i → encode i = w

/-- Rule R105, last sentence: a word is a row's command iff `w & mask == match`; and a word that matches no row is
illegal, for an unknown opcode or a reserved bit. -/
def Obligations.TableRowsDecideDecoding : Prop :=
  (∀ row ∈ tableRows, ∀ w : CmdWord,
    (∃ i, decode w = .ok i ∧ i.mnemonic = row.1) ↔ w &&& row.2.2 = row.2.1) ∧
  (∀ w : CmdWord, (∃ e, decode w = .error e) ↔ ∀ row ∈ tableRows, w &&& row.2.2 ≠ row.2.1)

/-- Words written out bit by bit from rules R102 and R104, one of each command (95_test_vectors.md section 2.1). -/
def Obligations.SampleWordsDecode : Prop :=
  decode 0x000000000000000000#72 = .ok .nop ∧
  decode 0x010000000000080000#72 = .ok (.rdReg 8) ∧
  decode 0x02000000000003F800#72 = .ok (.wrReg 3 0xF800) ∧
  decode 0x03000000000000FF00#72 = .ok (.txtWr 255 0) ∧
  decode 0x040000000000000700#72 = .ok (.txtRd 7) ∧
  decode 0x1200000000000000D6#72 = .ok (.i2cSend 0xD6) ∧
  decode 0x140000000000000001#72 = .ok (.i2cAck 1) ∧
  decode 0x20000000000000002C#72 = .ok (.spiXfer 0x2C) ∧
  decode 0x25000000000000F800#72 = .ok (.lcdData16 0xF800) ∧
  decode 0x26000A0014000B0015#72 = .ok (.setWindow 10 20 11 21) ∧
  decode 0x270000000A0014FFFF#72 = .ok (.writePixel 10 20 0xFFFF) ∧
  decode 0x2800000000000007E0#72 = .ok (.clear 0x07E0) ∧
  decode 0x30000000000A001441#72 = .ok (.drawChar 10 20 0x41) ∧
  decode 0x3100000000000000FE#72 = .ok (.drawString 0 0 254) ∧
  decode 0x050000000000000000#72 = .error .unknownOpcode ∧
  decode 0x140000000000000002#72 = .error .reservedBit

/-- Rule R114: every pseudo-instruction expands as its row says; TXT_STR stores its characters at ascending indices and
its terminator after the last, and is an assembly error iff `a + len(s) > 255`. -/
def Obligations.PseudoInstructionsExpand : Prop :=
  (∀ (a7 : BitVec 7) (rw : Bit), ∃ b : Byte, (Pseudo.i2cAddr a7 rw).expand = some [.i2cSend b] ∧
    b.toNat = 2 * a7.toNat + rw.toNat) ∧
  Pseudo.i2cMack.expand = some [.i2cAck 0] ∧ Pseudo.i2cNack.expand = some [.i2cAck 1] ∧
  Pseudo.csAssert.expand = some [.spiCs 0] ∧ Pseudo.csRelease.expand = some [.spiCs 1] ∧
  (∀ c : Half, (Pseudo.setFg c).expand = some [.wrReg 3 c] ∧ (Pseudo.setBg c).expand = some [.wrReg 4 c]) ∧
  (∀ (a : Byte) (str : List Byte),
    (255 < a.toNat + str.length → (Pseudo.txtStr a str).expand = none) ∧
    (a.toNat + str.length ≤ 255 → ∃ l, (Pseudo.txtStr a str).expand = some l ∧ l.length = str.length + 1 ∧
      (∀ k ch, str[k]? = some ch → l[k]? = some (Instr.txtWr (BitVec.ofNat 8 (a.toNat + k)) ch)) ∧
      l[str.length]? = some (Instr.txtWr (BitVec.ofNat 8 (a.toNat + str.length)) 0x00#8)))

/-! ### The command port -/

/-- Rules R80, R100, R281: a word that decodes, presented to a block neither busy nor blocked, runs as its command, BUSY
raised; the words of `withFetchWord` are presented so. -/
def Obligations.StepRunsTheDecodedCommand : Prop :=
  ∀ (s : State) (w : CmdWord) (i : Instr), s.busy = 0#1 → s.fault = 0#4 → decode w = .ok i →
    (∀ rest, s.inputs = .command w :: rest →
      step s = exec i { s with inputs := rest, busy := 1#1, rsp := none }) ∧
    (∀ nbits n, tableWord nbits n = w →
      step (s.withFetchWord nbits n) = exec i { s with busy := 1#1, rsp := none })

/-- Rule R271: ILLEGAL_CMD is raised exactly for its listed causes, before any state change and before any event, and
nothing but FAULT is saved. -/
def Obligations.IllegalCommandsFault : Prop :=
  ∀ (s : State) (w : CmdWord) (rest : List HostInput),
    s.busy = 0#1 → s.fault = 0#4 → s.inputs = .command w :: rest →
    (Illegal w → step s = .next (faulted { s with inputs := rest } 1#4)) ∧
    (¬Illegal w → ∀ t, step s = .next t → t.fault ≠ 1#4)

/-- Rule R282: a blocked block accepts every word, decodes none, and answers BLOCKED with the latched code; no state
changes; until reset FAULT keeps its code. -/
def Obligations.BlockedRefusesEveryWord : Prop :=
  ∀ s : State, s.fault ≠ 0#4 →
    (∀ w rest, s.busy = 0#1 → s.inputs = .command w :: rest →
      step s = .next { s with inputs := rest, busy := 0#1,
                              rsp := some (0xF#4 ++ 0#3 ++ 0#1 ++ s.fault.setWidth 16) }) ∧
    (∀ t, step s = .next t → s.inputs.head? ≠ some .reset → t.fault = s.fault ∧ t.trace = s.trace)

/-- Rule R284: a hung block accepts no command and gives no response, whatever the host does short of reset; FAULT and
everything else keep their values. That a word presented to it is dropped, and not kept at the port for later, is the
model's choice (log 6). -/
def Obligations.HungBlockAcceptsNothing : Prop :=
  ∀ s : State, s.busy = 1#1 → s.inputs.head? ≠ some .reset →
    step s = .next { s with inputs := s.inputs.tail, rsp := none }

/-- Rules R55, R300, R301: reset, from any state at all, gives every piece of state the value of the table; the
parameters are untouched. That the host's further inputs and the environment's coming answers remain is the model's choice
(log 7), and so is the level SCK rests at in another SPI_MODE than 0 (log 12). -/
def Obligations.ResetGivesTheTableValues : Prop :=
  ResetValues State.reset ∧ State.reset.spi.pins.sck = 0#1 ∧
  ∀ (s : State) (rest : List HostInput), s.inputs = .reset :: rest →
    ∃ t, step s = .next t ∧ ResetValues t ∧ t.cfg = s.cfg ∧ t.inputs = rest ∧ t.env = s.env

/-- Rules R105, R280, R284: whatever the state and whatever the host does, the block has a next state. -/
def Obligations.EveryStepAnswersNext : Prop := ∀ s : State, ∃ t, step s = .next t

/-- Rules R50, R80: a step short of reset takes no event out of the trace and changes none. -/
def Obligations.TraceOnlyGrows : Prop :=
  ∀ s t : State, step s = .next t → s.inputs.head? ≠ some .reset → ∃ es, t.trace = s.trace ++ es

/-- Rules R110, R111: bits 19:17 of a response are 0, its status is OK, one of the four fault codes or BLOCKED, a fault's
response has no flag and no data, and BLOCKED carries the latched code. -/
def Obligations.ResponseWordForm : Prop :=
  ∀ (s t : State) (w : RspWord), step s = .next t → t.rsp = some w →
    w.extractLsb' 17 3 = 0#3 ∧
    (w.extractLsb' 20 4 = 0x0#4 ∨
     (1 ≤ (w.extractLsb' 20 4).toNat ∧ (w.extractLsb' 20 4).toNat ≤ 4 ∧ w.extractLsb' 16 1 = 0#1 ∧
       w.extractLsb' 0 16 = 0x0000#16 ∧ t.fault = w.extractLsb' 20 4) ∨
     (w.extractLsb' 20 4 = 0xF#4 ∧ w.extractLsb' 16 1 = 0#1 ∧ w.extractLsb' 0 16 = s.fault.setWidth 16 ∧
       s.fault ≠ 0#4))

/-- Rule R100: a command accepted is answered at once, or hangs with BUSY at 1 and no response. -/
def Obligations.OneResponsePerAcceptedCommand : Prop :=
  ∀ (s t : State) (w : CmdWord) (rest : List HostInput), s.busy = 0#1 → s.inputs = .command w :: rest →
    step s = .next t → (t.rsp.isSome = true ∧ t.busy = 0#1) ∨ (t.rsp = none ∧ t.busy = 1#1 ∧ t.fault = s.fault)

/-- Rule R280: a fault latches the code its response carries and lets BUSY fall; it changes no parameter and no divisor,
and keeps every event the command emitted. -/
def Obligations.FaultEntry : Prop :=
  ∀ s t : State, step s = .next t → s.fault = 0#4 → t.fault ≠ 0#4 →
    t.busy = 0#1 ∧ t.rsp = some (t.fault ++ 0x00000#20) ∧ t.fault.toNat ≤ 4 ∧ (∃ es, t.trace = s.trace ++ es) ∧
    t.cfg = s.cfg ∧ t.text = s.text ∧ t.i2c = s.i2c ∧ t.spi.div = s.spi.div ∧ t.ras.fg = s.ras.fg ∧
    t.ras.bg = s.ras.bg

/-! ### System commands -/

/-- Rule R251. It is about exec, which a step reaches in a block that is not blocked alone; that exec itself does not look at
FAULT is the model's choice (log 14). -/
def Obligations.NopAnswersOk : Prop :=
  decode 0x000000000000000000#72 = .ok .nop ∧ ∀ s : State, exec .nop s = .next (ended s)

/-- Rules R252, R53: RD_REG gives the register of rule R52 zero-extended, STATUS field by field, and changes nothing; a
reserved number faults. -/
def Obligations.RdRegReturnsTheRegister : Prop :=
  (∀ r : Byte, decode (0x01#8 ++ 0#40 ++ r ++ 0#16) = .ok (.rdReg r)) ∧
  ∀ s : State,
    (∀ (r : Byte) (v : Half), (r, v) ∈ [(1, s.i2c.div), (2, s.spi.div), (3, s.ras.fg), (4, s.ras.bg), (5, s.ras.curX),
        (6, s.ras.curY), (7, s.i2c.rx.setWidth 16), (8, s.spi.rx.setWidth 16)] →
      exec (.rdReg r) s = .next { s with rsp := some (0x00#8 ++ v), busy := 0#1 }) ∧
    (∃ v : Half, exec (.rdReg 0) s = .next { s with rsp := some (0x00#8 ++ v), busy := 0#1 } ∧
      (v.extractLsb' 0 3).toNat = (match s.i2c.st with
        | .idle => 0 | .started => 1 | .addressed => 2 | .transferring => 3 | .stopped => 4) ∧
      v.extractLsb' 3 1 = s.i2c.dir ∧ v.extractLsb' 4 1 = s.i2c.ap ∧ v.extractLsb' 5 1 = s.i2c.ackstat ∧
      v.extractLsb' 6 1 = s.spi.csN ∧ v.extractLsb' 7 1 = s.spi.dc ∧ v.extractLsb' 8 8 = 0x00#8) ∧
    (∀ r : Byte, 9 ≤ r.toNat → s.fault = 0#4 → exec (.rdReg r) s = .next (faulted s 1#4)) ∧
    State.reset.status = 0x00C0#16

/-- Rule R253: WR_REG stores all 16 bits in the one register named and changes nothing else; a read-only or reserved
number faults with every register unchanged. -/
def Obligations.WrRegWritesOneRegister : Prop :=
  (∀ (r : Byte) (v : Half), decode (0x02#8 ++ 0#40 ++ r ++ v) = .ok (.wrReg r v)) ∧
  ∀ (s : State) (v : Half),
    exec (.wrReg 1 v) s = .next (ended { s with i2c.div := v }) ∧
    exec (.wrReg 2 v) s = .next (ended { s with spi.div := v }) ∧
    exec (.wrReg 3 v) s = .next (ended { s with ras.fg := v }) ∧
    exec (.wrReg 4 v) s = .next (ended { s with ras.bg := v }) ∧
    ∀ r : Byte, (r.toNat = 0 ∨ 5 ≤ r.toNat) → s.fault = 0#4 → exec (.wrReg r v) s = .next (faulted s 1#4)

/-- Rule R254, with rule R72: TXT_WR stores its byte, every other byte of TEXT reads as before, and nothing else of the
state changes; every index and every byte is legal. -/
def Obligations.TxtWrStoresOneByte : Prop :=
  ∀ (s : State) (a v : Byte), decode (0x03#8 ++ 0#48 ++ a ++ v) = .ok (.txtWr a v) ∧ ∃ m : Memory,
    exec (.txtWr a v) s = .next (ended { s with text := m }) ∧
    ∀ b : Byte, State.readText { s with text := m } b = if b = a then v else s.readText b

/-- Rule R255: TXT_RD answers the byte and changes nothing. -/
def Obligations.TxtRdReturnsTheByte : Prop :=
  ∀ (s : State) (a : Byte), decode (0x04#8 ++ 0#48 ++ a ++ 0x00#8) = .ok (.txtRd a) ∧
    exec (.txtRd a) s = .next { s with rsp := some (0x00#8 ++ (s.readText a).setWidth 16), busy := 0#1 }

/-- Rules R72, R255: a byte of TEXT reads the same after every step but a TXT_WR of its index and a reset. -/
def Obligations.TextKeptUntilWritten : Prop :=
  ∀ (s t : State) (a : Byte), step s = .next t → s.inputs.head? ≠ some .reset →
    (∀ w v, s.inputs.head? = some (.command w) → decode w ≠ .ok (.txtWr a v)) → t.readText a = s.readText a

/-- Rule R250: a system command emits no event, moves no line, leaves every register of the two bus units but the divisor
it writes, and never hangs, in every I2C state. -/
def Obligations.SystemCommandsTouchNoBus : Prop :=
  ∀ (i : Instr) (s : State), isSystem i → ∃ t, exec i s = .next t ∧ t.busy = 0#1 ∧ t.trace = s.trace ∧ t.env = s.env ∧
    t.i2c = { s.i2c with div := t.i2c.div } ∧ t.spi = { s.spi with div := t.spi.div }

/-! ### I2C commands -/

/-- Rule R133. The levels of the pins are those of rule R151, which the spec marks '[from general knowledge, not in source]'; where a hang
leaves the pins is log 10. -/
def Obligations.I2cStartEffect : Prop :=
  decode 0x100000000000000000#72 = .ok .i2cStart ∧
  ∀ s : State,
    ((s.i2c.st = .idle ∨ s.i2c.st = .stopped) → s.answer.done = true →
      exec .i2cStart s = .next (ended { s with
        i2c := { s.i2c with st := .started, dir := 0#1, ap := 0#1, pins := { s.i2c.pins with scl := 0#1, sda := 0#1 } }
        trRev := .iStart :: s.trRev, env := s.env.tail })) ∧
    ((s.i2c.st = .idle ∨ s.i2c.st = .stopped) → s.answer.done = false → HangsAtPins .i2cStart s) ∧
    ((s.i2c.st = .started ∨ s.i2c.st = .addressed ∨ s.i2c.st = .transferring) → s.fault = 0#4 →
      exec .i2cStart s = .next (faulted s 2#4))

/-- Rule R134. The levels of the pins are those of rule R152, which the spec marks '[from general knowledge, not in source]'; a hang's
pins are log 10. -/
def Obligations.I2cRestartEffect : Prop :=
  decode 0x110000000000000000#72 = .ok .i2cRestart ∧
  ∀ s : State,
    ((s.i2c.st = .addressed ∨ s.i2c.st = .transferring) → s.i2c.ap = 0#1 → s.answer.done = true →
      exec .i2cRestart s = .next (ended { s with
        i2c := { s.i2c with st := .started, dir := 0#1, pins := { s.i2c.pins with scl := 0#1, sda := 0#1 } }
        trRev := .iRestart :: s.trRev, env := s.env.tail })) ∧
    ((s.i2c.st = .addressed ∨ s.i2c.st = .transferring) → s.i2c.ap = 0#1 → s.answer.done = false →
      HangsAtPins .i2cRestart s) ∧
    ((s.i2c.st = .idle ∨ s.i2c.st = .started ∨ s.i2c.st = .stopped ∨ s.i2c.ap = 1#1) → s.fault = 0#4 →
      exec .i2cRestart s = .next (faulted s 2#4))

/-- Rule R135: the address byte fixes the direction, any other byte goes on, the acknowledge
slot is reported in I2C_ACKSTAT and, inverted, in the response; neither the byte nor the acknowledge ever faults. The
levels of the pins are those of rule R153, which the spec marks '[from general knowledge, not in source]'; a hang's pins are log 10. -/
def Obligations.I2cSendEffect : Prop :=
  ∀ (s : State) (b : Byte),
    decode (0x12#8 ++ 0#56 ++ b) = .ok (.i2cSend b) ∧
    (s.i2c.st = .started → s.answer.done = true →
      exec (.i2cSend b) s = .next { s with
        i2c := { s.i2c with st := .addressed, dir := b.extractLsb' 0 1, ackstat := s.answer.ack,
                            pins := { shift := 0x00#8, bitcnt := 0#4, scl := 0#1, sda := 1#1 } }
        trRev := .iTx b s.answer.ack :: s.trRev, env := s.env.tail
        rsp := some (0#4 ++ 0#3 ++ ~~~s.answer.ack ++ 0x0000#16), busy := 0#1 }) ∧
    ((s.i2c.st = .addressed ∨ s.i2c.st = .transferring) → s.i2c.dir = 0#1 → s.answer.done = true →
      exec (.i2cSend b) s = .next { s with
        i2c := { s.i2c with st := .transferring, ackstat := s.answer.ack,
                            pins := { shift := 0x00#8, bitcnt := 0#4, scl := 0#1, sda := 1#1 } }
        trRev := .iTx b s.answer.ack :: s.trRev, env := s.env.tail
        rsp := some (0#4 ++ 0#3 ++ ~~~s.answer.ack ++ 0x0000#16), busy := 0#1 }) ∧
    ((s.i2c.st = .started ∨ (s.i2c.st = .addressed ∨ s.i2c.st = .transferring) ∧ s.i2c.dir = 0#1) →
      s.answer.done = false → HangsAtPins (.i2cSend b) s) ∧
    ((s.i2c.st = .idle ∨ s.i2c.st = .stopped ∨ s.i2c.st ≠ .started ∧ s.i2c.dir = 1#1) → s.fault = 0#4 →
      exec (.i2cSend b) s = .next (faulted s 2#4))

/-- Rule R136. The levels of the pins are those of rule R154, which the spec marks '[from general knowledge, not in source]'; a hang's
pins are log 10. -/
def Obligations.I2cRecvEffect : Prop :=
  decode 0x130000000000000000#72 = .ok .i2cRecv ∧
  ∀ s : State,
    ((s.i2c.st = .addressed ∨ s.i2c.st = .transferring) → s.i2c.dir = 1#1 → s.i2c.ap = 0#1 → s.answer.done = true →
      exec .i2cRecv s = .next { s with
        i2c := { s.i2c with st := .transferring, ap := 1#1, rx := s.answer.data,
                            pins := { shift := s.answer.data, bitcnt := 0#4, scl := 0#1, sda := 1#1 } }
        trRev := .iRx s.answer.data :: s.trRev, env := s.env.tail
        rsp := some (0x0000#16 ++ s.answer.data), busy := 0#1 }) ∧
    ((s.i2c.st = .addressed ∨ s.i2c.st = .transferring) → s.i2c.dir = 1#1 → s.i2c.ap = 0#1 → s.answer.done = false →
      HangsAtPins .i2cRecv s) ∧
    ((s.i2c.st = .idle ∨ s.i2c.st = .started ∨ s.i2c.st = .stopped ∨ s.i2c.dir = 0#1 ∨ s.i2c.ap = 1#1) →
      s.fault = 0#4 → exec .i2cRecv s = .next (faulted s 2#4))

/-- Rule R137: I2C_ACKSTAT is not touched. The levels of the pins are those of rule R155, which the spec marks '[from general
knowledge, not in source]'; a hang's pins are log 10. -/
def Obligations.I2cAckEffect : Prop :=
  decode 0x140000000000000000#72 = .ok (.i2cAck 0) ∧ decode 0x140000000000000001#72 = .ok (.i2cAck 1) ∧
  ∀ (s : State) (k : Bit),
    (s.i2c.ap = 1#1 → s.answer.done = true →
      exec (.i2cAck k) s = .next (ended { s with
        i2c := { s.i2c with ap := 0#1, pins := { s.i2c.pins with scl := 0#1, sda := k } }
        trRev := .iMack k :: s.trRev, env := s.env.tail })) ∧
    (s.i2c.ap = 1#1 → s.answer.done = false → HangsAtPins (.i2cAck k) s) ∧
    (s.i2c.ap = 0#1 → s.fault = 0#4 → exec (.i2cAck k) s = .next (faulted s 2#4))

/-- Rule R138. The levels of the pins are those of rule R156, which the spec marks '[from general knowledge, not in source]'; a hang's
pins are log 10. -/
def Obligations.I2cStopEffect : Prop :=
  decode 0x150000000000000000#72 = .ok .i2cStop ∧
  ∀ s : State,
    ((s.i2c.st = .started ∨ s.i2c.st = .addressed ∨ s.i2c.st = .transferring) → s.i2c.ap = 0#1 →
      s.answer.done = true →
      exec .i2cStop s = .next (ended { s with
        i2c := { s.i2c with st := .stopped, dir := 0#1, pins := { s.i2c.pins with scl := 1#1, sda := 1#1 } }
        trRev := .iStop :: s.trRev, env := s.env.tail })) ∧
    ((s.i2c.st = .started ∨ s.i2c.st = .addressed ∨ s.i2c.st = .transferring) → s.i2c.ap = 0#1 →
      s.answer.done = false → HangsAtPins .i2cStop s) ∧
    ((s.i2c.st = .idle ∨ s.i2c.st = .stopped ∨ s.i2c.ap = 1#1) → s.fault = 0#4 →
      exec .i2cStop s = .next (faulted s 2#4))

/-- Rule R131: in each row of the state table each command does what its cell says: it moves to the cell's state, or
(cell F) raises I2C_PROTO with nothing changed. -/
def Obligations.I2cStateTable : Prop :=
  ∀ (s : State) (b : Byte) (k : Bit) (row : (I2cSt × Bit × Bit) × List Cell) (col : Nat) (i : Instr) (c : Cell),
    row ∈ stateTable b → (s.i2c.st, s.i2c.dir, s.i2c.ap) = row.1 → (i2cCommands b k)[col]? = some i →
    row.2[col]? = some c → s.fault = 0#4 → s.answer.done = true →
    match c with
    | none => exec i s = .next (faulted s 2#4)
    | some n => ∃ t, exec i s = .next t ∧ (t.i2c.st, t.i2c.dir, t.i2c.ap) = n ∧ t.fault = 0#4 ∧ t.busy = 0#1 ∧
        (∃ e, t.trace = s.trace ++ [e]) ∧ t.spi = s.spi ∧ t.ras = s.ras ∧ t.text = s.text ∧ t.i2c.div = s.i2c.div

/-- Rules R132, R284, R285: an I2C command whose bus operation never completes leaves BUSY at 1, no response, no event and
every register as it was; only the hidden pin-level state may have moved. -/
def Obligations.I2cHangChangesNothing : Prop :=
  ∀ (i : Instr) (s : State), isI2c i → s.answer.done = false → s.fault = 0#4 →
    exec i s = .next (faulted s 2#4) ∨ HangsAtPins i s

/-- Rule R139: a missing acknowledge is observed and nothing more: with the two answers of the slave the block ends in the
same state but for I2C_ACKSTAT, the level in the event and the response bit; and no other command changes I2C_ACKSTAT. -/
def Obligations.MissingAckOnlyObserved : Prop :=
  (∀ (s : State) (b : Byte) (a : EnvAnswer) (rest : List EnvAnswer), a.done = true →
    (s.i2c.st = .started ∨ (s.i2c.st = .addressed ∨ s.i2c.st = .transferring) ∧ s.i2c.dir = 0#1) →
    ∃ t, exec (.i2cSend b) { s with env := { a with ack := 0#1 } :: rest } = .next t ∧
      t.rsp = some 0x010000#24 ∧ t.i2c.ackstat = 0#1 ∧ t.trace = s.trace ++ [.iTx b 0#1] ∧ t.fault = s.fault ∧
      exec (.i2cSend b) { s with env := { a with ack := 1#1 } :: rest } = .next { t with
        i2c.ackstat := 1#1, trRev := .iTx b 1#1 :: s.trRev, rsp := some 0x000000#24 }) ∧
  (∀ (i : Instr) (s t : State), (∀ b, i ≠ .i2cSend b) → exec i s = .next t → t.i2c.ackstat = s.i2c.ackstat)

/-! ### SPI commands -/

/-- Rules R171, R174: the transfer takes place whatever the level of CS_N, and hangs with nothing of it done. The levels of
the pins are those of rule R178, which the spec marks '[from general knowledge, not in source]', in SPI_MODE 0 with bit 7 first;
in the other modes and bit order they are the model's (PRESUMED, log 12). That a transfer that never completes has used its
answer up is log 1. -/
def Obligations.SpiXferEffect : Prop :=
  ∀ (s : State) (o : Byte),
    decode (0x20#8 ++ 0#56 ++ o) = .ok (.spiXfer o) ∧
    (s.answer.done = true →
      exec (.spiXfer o) s = .next { s with
        spi := { s.spi with rx := s.answer.miso,
                            pins := SpiPins.resting s.cfg o s.answer.miso }
        trRev := .sXfer o s.answer.miso :: s.trRev, env := s.env.tail
        rsp := some (0x0000#16 ++ s.answer.miso), busy := 0#1 }) ∧
    (s.answer.done = false → exec (.spiXfer o) s = .next { s with busy := 1#1, rsp := none, env := s.env.tail })

/-- Rules R172, R173: the two line assignments always complete, and emit their event even if the level does not change. -/
def Obligations.SpiLineAssignments : Prop :=
  ∀ (s : State) (l : Bit),
    decode (0x21#8 ++ 0#63 ++ l) = .ok (.spiCs l) ∧ decode (0x22#8 ++ 0#63 ++ l) = .ok (.spiDc l) ∧
    exec (.spiCs l) s = .next (ended { s with spi.csN := l, trRev := .sCs l :: s.trRev }) ∧
    exec (.spiDc l) s = .next (ended { s with spi.dc := l, trRev := .sDc l :: s.trRev })

/-! ### Display framing

`State.sent` carries the pins of unit U2 along by rule R178, which the spec marks '[from general knowledge, not in source]', in
SPI_MODE 0 with bit 7 first; in the other modes and bit order they are the model's (PRESUMED, log 12). It uses up one coming
answer of the environment for each framed write (log 1). -/

/-- Rules R190 to R192: LCD_CMD and LCD_DATA are one framed write: select line, chip-select low, transfer, chip-select
high, four events, in whatever environment lets the transfer complete; a transfer that never completes leaves the first
two events and chip-select asserted, its answer used up (log 1). The pins are those of rule R178 (spec: '[from general knowledge,
not in source]') in SPI_MODE 0 with bit 7 first, beyond that the model's (PRESUMED, log 12). -/
def Obligations.LcdByteIsOneFramedWrite : Prop :=
  (∀ b : Byte, decode (0x23#8 ++ 0#56 ++ b) = .ok (.lcdCmd b) ∧ decode (0x24#8 ++ 0#56 ++ b) = .ok (.lcdData b)) ∧
  ∀ (s : State) (b : Byte) (i : Instr) (d : Bit), (i, d) ∈ [(Instr.lcdCmd b, 0#1), (Instr.lcdData b, 1#1)] →
    ∀ u, u = { s with spi.dc := d, spi.csN := 0#1, trRev := .sCs 0#1 :: .sDc d :: s.trRev } →
    (u.answer.done = true → exec i s = .next (ended { s with
      spi := { csN := 1#1, dc := d, rx := u.answer.miso, div := s.spi.div,
               pins := SpiPins.resting s.cfg b u.answer.miso }
      trRev := .sCs 1#1 :: .sXfer b u.answer.miso :: .sCs 0#1 :: .sDc d :: s.trRev, env := s.env.tail })) ∧
    (u.answer.done = false → exec i s = .next { u with busy := 1#1, rsp := none, env := s.env.tail })

/-- Rule R193: LCD_DATA16 is two framed data bytes, the high byte first, each with its own chip-select bracket. Pins
beyond SPI_MODE 0 with bit 7 first are log 12 (PRESUMED), the answers used up log 1. -/
def Obligations.LcdData16SendsTwoBytes : Prop :=
  ∀ (s : State) (h : Half), decode (0x25#8 ++ 0#48 ++ h) = .ok (.lcdData16 h) ∧
    (wordBytes h).length = 2 ∧ (Responsive 2 s → exec (.lcdData16 h) s = .next (ended (s.sent (wordBytes h))))

/-- Rule R194: SET_WINDOW sends column command, x0, x1, page command, y0, y1 and, iff WINDOW_RAMWR, the memory-write
command, 11 framed writes or 10; the coordinates are neither checked nor ordered. Pins beyond SPI_MODE 0 with bit 7 first are
log 12 (PRESUMED), the answers used up log 1. -/
def Obligations.SetWindowSendsItsBytes : Prop :=
  ∀ (s : State) (x0 y0 x1 y1 : Half),
    decode (0x26#8 ++ x0 ++ y0 ++ x1 ++ y1) = .ok (.setWindow x0 y0 x1 y1) ∧
    (windowBytes s.cfg x0 y0 x1 y1).length = (if s.cfg.windowRamwr then 11 else 10) ∧
    (Responsive 11 s →
      exec (.setWindow x0 y0 x1 y1) s = .next (ended (s.sent (windowBytes s.cfg x0 y0 x1 y1))))

/-- Rule R195: WRITE_PIXEL emits its marker, sends the window (x, y, x + 1, y + 1) with the ends modulo 2^16, and one
colour word, 13 framed writes or 12. Pins beyond SPI_MODE 0 with bit 7 first are log 12 (PRESUMED), the answers used up log
1. -/
def Obligations.WritePixelSendsItsBytes : Prop :=
  ∀ (s : State) (x y c : Half),
    decode (0x27#8 ++ 0#16 ++ x ++ y ++ c) = .ok (.writePixel x y c) ∧
    (windowBytes s.cfg x y (x + 1#16) (y + 1#16) ++ wordBytes c).length = (if s.cfg.windowRamwr then 13 else 12) ∧
    (Responsive 13 s →
      exec (.writePixel x y c) s = .next (ended (State.sent { s with trRev := .pix x y c :: s.trRev }
        (windowBytes s.cfg x y (x + 1#16) (y + 1#16) ++ wordBytes c))))

/-- Rules R196, R197: CLEAR sends the full window once and then exactly 128 * 128 colour words, no marker, 131116 events
with WINDOW_RAMWR and 131112 without. Pins beyond SPI_MODE 0 with bit 7 first are log 12 (PRESUMED), the answers used up
log 1. -/
def Obligations.ClearStreamsTheSurface : Prop :=
  ∀ (s : State) (h : Half), decode (0x28#8 ++ 0#48 ++ h) = .ok (.clear h) ∧
    (Responsive 32779 s →
      exec (.clear h) s = .next (ended (s.sent
        (windowBytes s.cfg 0#16 0#16 s.cfg.clearX1 s.cfg.clearY1 ++ (List.replicate (128 * 128) (wordBytes h)).flatten))) ∧
      ∃ t es, exec (.clear h) s = .next t ∧ t.trace = s.trace ++ es ∧ pixels es = [] ∧
        es.length = if s.cfg.windowRamwr then 131116 else 131112)

/-- Rules R200, R171 to R173: no command of the SPI and display families faults, in any environment: it ends with status OK
or hangs. -/
def Obligations.SpiAndDisplayNeverFault : Prop :=
  ∀ (i : Instr) (s t : State),
    (displayBytes s.cfg i ≠ none ∨ (∃ b, i = .spiXfer b) ∨ (∃ l, i = .spiCs l) ∨ ∃ l, i = .spiDc l) →
    exec i s = .next t → t.fault = s.fault ∧
      ((∃ d : Half, t.rsp = some (0x00#8 ++ d) ∧ t.busy = 0#1) ∨ t.rsp = none ∧ t.busy = 1#1)

/-- Rules R200, R285: a display command whose transfer number `n` never completes leaves everything before it, the two
assignments of that framed write with chip-select asserted, and no response; its answer is used up like the others (log
1). -/
def Obligations.DisplayHangKeepsItsPart : Prop :=
  ∀ (s : State) (i : Instr) (pre : List Event) (bytes : List (Bit × Byte)) (n : Nat) (f : Bit × Byte) (a : EnvAnswer),
    displayBytes s.cfg i = some (pre, bytes) → bytes[n]? = some f → Responsive n s → s.env[n]? = some a →
    a.done = false →
    ∃ t, exec i s = .next t ∧
      t.trace = s.trace ++ pre ++ sentEvents (bytes.take n) s.env ++ [.sDc f.1, .sCs 0#1] ∧
      t.spi.csN = 0#1 ∧ t.spi.dc = f.1 ∧ t.busy = 1#1 ∧ t.rsp = none ∧ t.fault = s.fault ∧
      t.i2c = s.i2c ∧ t.ras = s.ras ∧ t.text = s.text ∧ t.env = s.env.drop (n + 1)

/-! ### Rasterizer -/

/-- Rules R223, R273: DRAW_CHAR of a code outside 32..126 faults GLYPH_RANGE before any event and any change. -/
def Obligations.DrawCharOutOfRangeFaults : Prop :=
  ∀ (s : State) (x y : Half) (c : Byte), (c.toNat < 32 ∨ 126 < c.toNat) → s.fault = 0#4 →
    exec (.drawChar x y c) s = .next (faulted s 3#4)

/-- Rules R226, R227: DRAW_CHAR of a code in 32..126 writes exactly the cells of its character not beyond coordinate 128,
columns outer and rows inner, each in FG or BG by the glyph's bit and each by the bytes of one WRITE_PIXEL: `nc * nr`
pixels with 53 events each (49 without WINDOW_RAMWR). It ends OK and changes nothing but unit U2, the trace and hidden
counters. -/
def Obligations.DrawCharDrawsItsCells : Prop :=
  ∀ (s : State) (x y : Half) (c : Byte) (k : Fin 95), c.toNat = k.val + 32 → Responsive 520 s →
    ∃ t es, exec (.drawChar x y c) s = .next t ∧ t.trace = s.trace ++ es ∧
      pixels es = charPixels s.cfg.glyph s.ras.fg s.ras.bg x y k ∧
      framedBytes s.spi.csN s.spi.dc es = pixelBytes s.cfg (pixels es) ∧ (pixels es).length = charPixelCount x y ∧
      es.length = (if s.cfg.windowRamwr then 53 else 49) * charPixelCount x y ∧
      t.rsp = some 0x000000#24 ∧ t.busy = 0#1 ∧ t.fault = s.fault ∧ t.i2c = s.i2c ∧ t.text = s.text ∧
      t.spi.div = s.spi.div ∧ t.cfg = s.cfg ∧
      t.ras = { s.ras with col := t.ras.col, row := t.ras.row, gidx := t.ras.gidx }

/-- Rules R224, R227: whatever the environment does, hanging included, DRAW_CHAR asks for no pixel outside its cell
`[x, x+4] × [y, y+7]`, none beyond coordinate 128, and none with a wrapped coordinate. -/
def Obligations.DrawCharStaysInItsCell : Prop :=
  ∀ (s t : State) (x y : Half) (c : Byte) (es : List Event), exec (.drawChar x y c) s = .next t →
    t.trace = s.trace ++ es → ∀ px py col, .pix px py col ∈ es →
      x.toNat ≤ px.toNat ∧ px.toNat ≤ x.toNat + 4 ∧ px.toNat ≤ 128 ∧
      y.toNat ≤ py.toNat ∧ py.toNat ≤ y.toNat + 7 ∧ py.toNat ≤ 128 ∧ (col = s.ras.fg ∨ col = s.ras.bg)

/-- Rules R230, R231: DRAW_STRING of drawable characters and newlines up to a terminator draws exactly their pixels, ends
OK, and leaves `CUR_X = x + 6n`, `CUR_Y = y + 10L` modulo 2^16; nothing else but unit U2, the trace and hidden registers
changes. -/
def Obligations.DrawStringEndsOk : Prop :=
  ∀ (s : State) (x y : Half) (p : Byte) (chs : List Byte), HoldsText s p chs → p.toNat + chs.length ≤ 255 →
    s.readText (BitVec.ofNat 8 (p.toNat + chs.length)) = 0x00#8 → Responsive (520 * chs.length) s →
    ∃ t es, exec (.drawString x y p) s = .next t ∧ t.trace = s.trace ++ es ∧
      pixels es = stringPixels s.cfg.newline s.cfg.glyph s.ras.fg s.ras.bg x x y chs ∧
      framedBytes s.spi.csN s.spi.dc es = pixelBytes s.cfg (pixels es) ∧
      (t.ras.curX, t.ras.curY) = cursorAfter s.cfg.newline x y chs ∧ t.rsp = some 0x000000#24 ∧ t.busy = 0#1 ∧
      t.fault = s.fault ∧ t.i2c = s.i2c ∧ t.text = s.text ∧ t.spi.div = s.spi.div ∧ t.ras.fg = s.ras.fg ∧
      t.ras.bg = s.ras.bg ∧ t.cfg = s.cfg

/-- Rules R232, R274: a string with no terminator up to index 255 is drawn to its end and then faults TEXT_OVERRUN, the
cursor after the byte at index 255. -/
def Obligations.DrawStringOverrunFaults : Prop :=
  ∀ (s : State) (x y : Half) (p : Byte) (chs : List Byte), HoldsText s p chs → p.toNat + chs.length = 256 →
    Responsive (520 * chs.length) s → s.fault = 0#4 →
    ∃ t es, exec (.drawString x y p) s = .next t ∧ t.fault = 4#4 ∧ t.rsp = some 0x400000#24 ∧ t.busy = 0#1 ∧
      t.trace = s.trace ++ es ∧ pixels es = stringPixels s.cfg.newline s.cfg.glyph s.ras.fg s.ras.bg x x y chs ∧
      (t.ras.curX, t.ras.curY) = cursorAfter s.cfg.newline x y chs ∧ t.ras.txtPtr = 255#8 ∧ t.i2c = s.i2c ∧ t.text = s.text

/-- Rules R233, R273: a byte of a string that is no terminator, no newline and not drawable faults GLYPH_RANGE; what was
drawn before it stays, the cursor is where it would have been drawn, and TXT_PTR is its index. At index 255 too it comes
before the overrun test (rule R281). -/
def Obligations.DrawStringGlyphRangeFaults : Prop :=
  ∀ (s : State) (x y : Half) (p c : Byte) (chs : List Byte), HoldsText s p chs → p.toNat + chs.length ≤ 255 →
    s.readText (BitVec.ofNat 8 (p.toNat + chs.length)) = c → c ≠ 0x00#8 → ¬drawsOn s.cfg.newline c →
    Responsive (520 * chs.length) s → s.fault = 0#4 →
    ∃ t es, exec (.drawString x y p) s = .next t ∧ t.fault = 3#4 ∧ t.rsp = some 0x300000#24 ∧ t.busy = 0#1 ∧
      t.trace = s.trace ++ es ∧ pixels es = stringPixels s.cfg.newline s.cfg.glyph s.ras.fg s.ras.bg x x y chs ∧
      (t.ras.curX, t.ras.curY) = cursorAfter s.cfg.newline x y chs ∧
      t.ras.txtPtr = BitVec.ofNat 8 (p.toNat + chs.length) ∧ t.i2c = s.i2c ∧ t.text = s.text

/-- Rules R285, R200: whatever the environment does, a DRAW_STRING that hangs has asked for every pixel of the characters
before the one it hangs in and for the first few of that one, leaves the cursor at that one and chip-select asserted,
gives no response and raises no fault. -/
def Obligations.DrawStringHangKeepsItsPart : Prop :=
  ∀ (s t : State) (x y : Half) (p : Byte), exec (.drawString x y p) s = .next t → t.busy = 1#1 →
    ∃ (chs : List Byte) (c : Byte) (es : List Event) (part : List (Half × Half × Half)),
      HoldsText s p (chs ++ [c]) ∧ drawable c = true ∧ c ≠ s.cfg.newline ∧ t.trace = s.trace ++ es ∧
      pixels es = stringPixels s.cfg.newline s.cfg.glyph s.ras.fg s.ras.bg x x y chs ++ part ∧
      part <+: glyphPixels s.cfg.glyph s.ras.fg s.ras.bg t.ras.curX t.ras.curY c ∧
      (t.ras.curX, t.ras.curY) = cursorAfter s.cfg.newline x y chs ∧ t.ras.txtPtr = BitVec.ofNat 8 (p.toNat + chs.length) ∧
      t.spi.csN = 0#1 ∧ t.rsp = none ∧ t.fault = s.fault ∧ t.i2c = s.i2c ∧ t.text = s.text

/-! ### Rules over all commands -/

/-- Rules R30, R33 to R37, R46, R47, R311: each unit's registers are written by that unit's commands alone, in every
environment: I2C registers by I2C commands, SPI registers by the SPI, display and draw commands, FG and BG by WR_REG, the
cursor by DRAW_STRING, TEXT by TXT_WR, and the two divisors by WR_REG. -/
def Obligations.UnitsOwnTheirRegisters : Prop :=
  ∀ (i : Instr) (s t : State), exec i s = .next t →
    (¬isI2c i → { t.i2c with div := s.i2c.div } = s.i2c) ∧
    ((isI2c i ∨ isSystem i) → { t.spi with div := s.spi.div } = s.spi) ∧
    ((∀ r v, i ≠ .wrReg r v) → t.i2c.div = s.i2c.div ∧ t.spi.div = s.spi.div ∧ t.ras.fg = s.ras.fg ∧
      t.ras.bg = s.ras.bg) ∧
    ((∀ x y p, i ≠ .drawString x y p) → t.ras.curX = s.ras.curX ∧ t.ras.curY = s.ras.curY) ∧
    (¬isDraw i → t.ras = { s.ras with fg := t.ras.fg, bg := t.ras.bg }) ∧
    ((∀ a v, i ≠ .txtWr a v) → t.text = s.text) ∧ t.cfg = s.cfg ∧ t.epoch = s.epoch ∧ t.inputs = s.inputs

/-- Rules R38, R144: the I2C divisor influences nothing but the register itself: a command does the same on two states that
differ in I2C_DIV alone, and leaves them differing in I2C_DIV alone; RD_REG 1 reads it, and WR_REG 1 makes them equal. -/
def Obligations.I2cDivisorHasNoEffect : Prop :=
  (∀ (i : Instr) (s t : State) (d : Half), i ≠ .rdReg 1 → (∀ v, i ≠ .wrReg 1 v) → exec i s = .next t →
    exec i { s with i2c.div := d } = .next { t with i2c.div := d }) ∧
  ∀ (s : State) (d v : Half), exec (.wrReg 1 v) { s with i2c.div := d } = exec (.wrReg 1 v) s

/-- Rules R43, R176: the same of the SPI divisor, whose numbers are RD_REG 2 and WR_REG 2. -/
def Obligations.SpiDivisorHasNoEffect : Prop :=
  (∀ (i : Instr) (s t : State) (d : Half), i ≠ .rdReg 2 → (∀ v, i ≠ .wrReg 2 v) → exec i s = .next t →
    exec i { s with spi.div := d } = .next { t with spi.div := d }) ∧
  ∀ (s : State) (d v : Half), exec (.wrReg 2 v) { s with spi.div := d } = exec (.wrReg 2 v) s

/-- Rules R73, R256: no step, reset included, changes a parameter: the glyph ROM is read-only. -/
def Obligations.ParametersNeverChange : Prop := ∀ s t : State, step s = .next t → t.cfg = s.cfg

/-! ### Invariants -/

/-- Rule R57 with rules R150, R270, R284: the invariant holds after reset. The clauses on the I2C lines and the bit counter
(R39, R150) are marked in the spec '[from general knowledge, not in source]' (log 15). -/
def Obligations.InvAtReset : Prop := Inv State.reset

/-- Rule R57 (a) to (d) and (f), with rules R72, R150, R270 and R284: from every state that meets the invariant, a step of
any kind, with any environment, leads to a state that meets it. The clauses on the I2C lines and the bit counter (R39, R150)
are marked in the spec '[from general knowledge, not in source]' (log 15). -/
def Obligations.InvKeptByEveryStep : Prop := ∀ s t : State, Inv s → step s = .next t → Inv t

/-- Rules R36, R37, R39 to R42, R44, R150: after reset each bus register holds what the (empty) trace says, and both I2C lines
are released. The spec marks R39, R44 and R150 '[from general knowledge, not in source]' (log 15). -/
def Obligations.MirrorsAtReset : Prop := Mirrors State.reset

/-- Rules R36, R37, R40 to R42, R44: every step keeps each bus register at what the newest event of its kind says; rules R39
and R150: between commands SCL_O and SDA_O rest at the levels the newest I2C event leaves. The spec marks R39, R44 and R150,
the pin level, '[from general knowledge, not in source]' (log 15). That
SCK is at its rest level and MOSI at the last bit sent are rule R44's 0 and bit 0 in SPI_MODE 0 with bit 7 first; in the
other modes and bit order they are the model's (PRESUMED, log 12). -/
def Obligations.MirrorsKeptByEveryStep : Prop := ∀ s t : State, Mirrors s → step s = .next t → Mirrors t

/-! ### Pin level and display -/

/-- Rule R157: what is seen of the I2C lines during a step, read by a reader that sees the lines alone and stands where the
block stands, is exactly the I2C events the step appends, with clocks stretched at will and for an operation that never
completes too; and between commands the reader stands there again. So the line activity of a whole run reads back as the
I2C events of its trace. The pin rules are the spec's own, marked '[from general knowledge, not in source]'; which lines the
environment drives when is log 11. -/
def Obligations.PinActivityReadsBack : Prop :=
  I2cReader.fresh.Tracks State.reset ∧
  ∀ (s t : State) (r : I2cReader), Inv s → r.Tracks s → s.busy = 0#1 → s.inputs.head? ≠ some .reset → step s = .next t →
    ∃ es, t.trace = s.trace ++ es ∧ (r.read s.i2cActivity).1 = es.filter isI2cEvent ∧
      (t.busy = 0#1 → (r.read s.i2cActivity).2.Tracks t)

/-- Rule R178: an SPI transfer in SPI_MODE 0, bit 7 first, puts the bits of the byte out on MOSI, bit 7 first, one at each of
the eight rising edges of SCK, and shifts the slave's byte in; in every mode and bit order it leaves SCK at rest, the
slave's byte in the shifter and the last bit sent on MOSI (the other modes are the model's, log 12). -/
def Obligations.SpiShifterSendsMsbFirst : Prop :=
  ∀ (p : Params) (q : SpiPins) (o m : Byte),
    (p.spiMode = 0#2 → p.spiMsbFirst = true → q.sck = 0#1 →
      samplingEdge p = 1#1 ∧ (mosiAtEdges p 0#1 (q.lines.seen p (spiSteps p o m))).length = 8 ∧
      (∀ n, n < 8 →
        (mosiAtEdges p 0#1 (q.lines.seen p (spiSteps p o m)))[n]? = some (o.extractLsb' (7 - n) 1)) ∧
      q.transfer p o m = { shift := m, bitcnt := 0#4, sck := 0#1, mosi := o.extractLsb' 0 1 }) ∧
    q.transfer p o m = SpiPins.resting p o m

/-- Rule R201: under the reference display model a pixel written on the surface is the cell the display stores, for either
reading of the window end; it rests on the model of the environment, not of the block, and on a display that has received
nothing before (log 19). -/
def Obligations.PixelLandsOnItsCell : Prop :=
  ∀ (s t : State) (x y c : Half) (es : List Event) (incl : Bool), s.cfg.windowRamwr = true →
    s.cfg.cmdCaset ≠ s.cfg.cmdPaset → s.cfg.cmdCaset ≠ s.cfg.cmdRamwr → s.cfg.cmdPaset ≠ s.cfg.cmdRamwr →
    x.toNat < 128 → y.toNat < 128 → Responsive 13 s → exec (.writePixel x y c) s = .next t →
    t.trace = s.trace ++ es →
    (Display.show s.cfg incl es).cell x.toNat y.toNat = some c ∧ (Display.show s.cfg incl es).cells.length = 1 ∧
    (Display.show s.cfg incl es).known = true

/-- Rule R178: what is seen of the SPI bus as the events of a trace take place, from SCK at rest, read by a reader that sees
the bus alone, is exactly the SPI events of that trace: eight clocks are one S_XFER, each assignment of a line one S_CS or
S_DC. For every SPI_MODE and bit order (beyond mode 0 and bit 7 first they are the model's, log 12); the rule is the spec's
own, marked '[from general knowledge, not in source]'. -/
def Obligations.SpiActivityReadsBack : Prop :=
  ∀ (p : Params) (q : SpiPins) (es : List Event), q.sck = p.sckIdle →
    ((SpiReader.fresh p).read p (spiRun p q es)).1 = es.filter isSpiEvent

/-- Rule R313: the run of an adaptive host that ends is observed exactly as the run of a host with a list of commands, so a
statement about every list of host actions is one about every adaptive host (log 5). -/
def Obligations.AdaptiveHostIsAList : Prop :=
  ∀ (h : AdaptiveHost) (n : Nat) (s : State), s.inputs = [] → (h.observe n [] s).ending ≠ .running →
    ∃ ws : List CmdWord, ws.length ≤ n ∧
      observe ws.length [] { s with inputs := ws.map HostInput.command } = h.observe n [] s
end

