-- ==== Sys2Proof/Laws/State.lean ====
section
/-! SUPPORT. One lemma per field per update of State: what each update of Machine/Ops.lean and Machine/FrontEnd.lean leaves
in each field, and the same for the two framing lines. -/

namespace Sys2Proof.Machine

variable (s : State)

@[simp] theorem State.emit_i2c (e : Event) : (s.emit e).i2c = s.i2c := rfl
@[simp] theorem State.emit_spi (e : Event) : (s.emit e).spi = s.spi := rfl
@[simp] theorem State.emit_ras (e : Event) : (s.emit e).ras = s.ras := rfl
@[simp] theorem State.emit_text (e : Event) : (s.emit e).text = s.text := rfl
@[simp] theorem State.emit_fault (e : Event) : (s.emit e).fault = s.fault := rfl
@[simp] theorem State.emit_busy (e : Event) : (s.emit e).busy = s.busy := rfl
@[simp] theorem State.emit_rsp (e : Event) : (s.emit e).rsp = s.rsp := rfl
@[simp] theorem State.emit_trRev (e : Event) : (s.emit e).trRev = e :: s.trRev := rfl
@[simp] theorem State.emit_cfg (e : Event) : (s.emit e).cfg = s.cfg := rfl
@[simp] theorem State.emit_epoch (e : Event) : (s.emit e).epoch = s.epoch := rfl
@[simp] theorem State.emit_env (e : Event) : (s.emit e).env = s.env := rfl
@[simp] theorem State.emit_inputs (e : Event) : (s.emit e).inputs = s.inputs := rfl

@[simp] theorem State.nextAnswer_i2c : (s.nextAnswer).i2c = s.i2c := rfl
@[simp] theorem State.nextAnswer_spi : (s.nextAnswer).spi = s.spi := rfl
@[simp] theorem State.nextAnswer_ras : (s.nextAnswer).ras = s.ras := rfl
@[simp] theorem State.nextAnswer_text : (s.nextAnswer).text = s.text := rfl
@[simp] theorem State.nextAnswer_fault : (s.nextAnswer).fault = s.fault := rfl
@[simp] theorem State.nextAnswer_busy : (s.nextAnswer).busy = s.busy := rfl
@[simp] theorem State.nextAnswer_rsp : (s.nextAnswer).rsp = s.rsp := rfl
@[simp] theorem State.nextAnswer_trRev : (s.nextAnswer).trRev = s.trRev := rfl
@[simp] theorem State.nextAnswer_cfg : (s.nextAnswer).cfg = s.cfg := rfl
@[simp] theorem State.nextAnswer_epoch : (s.nextAnswer).epoch = s.epoch := rfl
@[simp] theorem State.nextAnswer_env : (s.nextAnswer).env = s.env.tail := rfl
@[simp] theorem State.nextAnswer_inputs : (s.nextAnswer).inputs = s.inputs := rfl

@[simp] theorem State.respond_i2c (w : RspWord) : (s.respond w).i2c = s.i2c := rfl
@[simp] theorem State.respond_spi (w : RspWord) : (s.respond w).spi = s.spi := rfl
@[simp] theorem State.respond_ras (w : RspWord) : (s.respond w).ras = s.ras := rfl
@[simp] theorem State.respond_text (w : RspWord) : (s.respond w).text = s.text := rfl
@[simp] theorem State.respond_fault (w : RspWord) : (s.respond w).fault = s.fault := rfl
@[simp] theorem State.respond_busy (w : RspWord) : (s.respond w).busy = 0#1 := rfl
@[simp] theorem State.respond_rsp (w : RspWord) : (s.respond w).rsp = some w := rfl
@[simp] theorem State.respond_trRev (w : RspWord) : (s.respond w).trRev = s.trRev := rfl
@[simp] theorem State.respond_cfg (w : RspWord) : (s.respond w).cfg = s.cfg := rfl
@[simp] theorem State.respond_epoch (w : RspWord) : (s.respond w).epoch = s.epoch := rfl
@[simp] theorem State.respond_env (w : RspWord) : (s.respond w).env = s.env := rfl
@[simp] theorem State.respond_inputs (w : RspWord) : (s.respond w).inputs = s.inputs := rfl

@[simp] theorem State.raise_i2c (c : FaultCode) : (s.raise c).i2c = s.i2c := rfl
@[simp] theorem State.raise_spi (c : FaultCode) : (s.raise c).spi = s.spi := rfl
@[simp] theorem State.raise_ras (c : FaultCode) : (s.raise c).ras = s.ras := rfl
@[simp] theorem State.raise_text (c : FaultCode) : (s.raise c).text = s.text := rfl
@[simp] theorem State.raise_fault (c : FaultCode) : (s.raise c).fault = if s.fault = 0#4 then c.code else s.fault := rfl
@[simp] theorem State.raise_busy (c : FaultCode) : (s.raise c).busy = 0#1 := rfl
@[simp] theorem State.raise_rsp (c : FaultCode) : (s.raise c).rsp = some (response c.code 0#1 0x0000#16) := rfl
@[simp] theorem State.raise_trRev (c : FaultCode) : (s.raise c).trRev = s.trRev := rfl
@[simp] theorem State.raise_cfg (c : FaultCode) : (s.raise c).cfg = s.cfg := rfl
@[simp] theorem State.raise_epoch (c : FaultCode) : (s.raise c).epoch = s.epoch := rfl
@[simp] theorem State.raise_env (c : FaultCode) : (s.raise c).env = s.env := rfl
@[simp] theorem State.raise_inputs (c : FaultCode) : (s.raise c).inputs = s.inputs := rfl

@[simp] theorem State.hang_i2c : (s.hang).i2c = s.i2c := rfl
@[simp] theorem State.hang_spi : (s.hang).spi = s.spi := rfl
@[simp] theorem State.hang_ras : (s.hang).ras = s.ras := rfl
@[simp] theorem State.hang_text : (s.hang).text = s.text := rfl
@[simp] theorem State.hang_fault : (s.hang).fault = s.fault := rfl
@[simp] theorem State.hang_busy : (s.hang).busy = 1#1 := rfl
@[simp] theorem State.hang_rsp : (s.hang).rsp = none := rfl
@[simp] theorem State.hang_trRev : (s.hang).trRev = s.trRev := rfl
@[simp] theorem State.hang_cfg : (s.hang).cfg = s.cfg := rfl
@[simp] theorem State.hang_epoch : (s.hang).epoch = s.epoch := rfl
@[simp] theorem State.hang_env : (s.hang).env = s.env := rfl
@[simp] theorem State.hang_inputs : (s.hang).inputs = s.inputs := rfl

@[simp] theorem State.accept_i2c : (s.accept).i2c = s.i2c := rfl
@[simp] theorem State.accept_spi : (s.accept).spi = s.spi := rfl
@[simp] theorem State.accept_ras : (s.accept).ras = s.ras := rfl
@[simp] theorem State.accept_text : (s.accept).text = s.text := rfl
@[simp] theorem State.accept_fault : (s.accept).fault = s.fault := rfl
@[simp] theorem State.accept_busy : (s.accept).busy = 1#1 := rfl
@[simp] theorem State.accept_rsp : (s.accept).rsp = none := rfl
@[simp] theorem State.accept_trRev : (s.accept).trRev = s.trRev := rfl
@[simp] theorem State.accept_cfg : (s.accept).cfg = s.cfg := rfl
@[simp] theorem State.accept_epoch : (s.accept).epoch = s.epoch := rfl
@[simp] theorem State.accept_env : (s.accept).env = s.env := rfl
@[simp] theorem State.accept_inputs : (s.accept).inputs = s.inputs := rfl

@[simp] theorem State.noResponse_i2c : (s.noResponse).i2c = s.i2c := rfl
@[simp] theorem State.noResponse_spi : (s.noResponse).spi = s.spi := rfl
@[simp] theorem State.noResponse_ras : (s.noResponse).ras = s.ras := rfl
@[simp] theorem State.noResponse_text : (s.noResponse).text = s.text := rfl
@[simp] theorem State.noResponse_fault : (s.noResponse).fault = s.fault := rfl
@[simp] theorem State.noResponse_busy : (s.noResponse).busy = s.busy := rfl
@[simp] theorem State.noResponse_rsp : (s.noResponse).rsp = none := rfl
@[simp] theorem State.noResponse_trRev : (s.noResponse).trRev = s.trRev := rfl
@[simp] theorem State.noResponse_cfg : (s.noResponse).cfg = s.cfg := rfl
@[simp] theorem State.noResponse_epoch : (s.noResponse).epoch = s.epoch := rfl
@[simp] theorem State.noResponse_env : (s.noResponse).env = s.env := rfl
@[simp] theorem State.noResponse_inputs : (s.noResponse).inputs = s.inputs := rfl

@[simp] theorem State.refuseBlocked_i2c : (s.refuseBlocked).i2c = s.i2c := rfl
@[simp] theorem State.refuseBlocked_spi : (s.refuseBlocked).spi = s.spi := rfl
@[simp] theorem State.refuseBlocked_ras : (s.refuseBlocked).ras = s.ras := rfl
@[simp] theorem State.refuseBlocked_text : (s.refuseBlocked).text = s.text := rfl
@[simp] theorem State.refuseBlocked_fault : (s.refuseBlocked).fault = s.fault := rfl
@[simp] theorem State.refuseBlocked_busy : (s.refuseBlocked).busy = 0#1 := rfl
@[simp] theorem State.refuseBlocked_rsp : (s.refuseBlocked).rsp = some (response 0xF#4 0#1 (s.fault.setWidth 16)) := rfl
@[simp] theorem State.refuseBlocked_trRev : (s.refuseBlocked).trRev = s.trRev := rfl
@[simp] theorem State.refuseBlocked_cfg : (s.refuseBlocked).cfg = s.cfg := rfl
@[simp] theorem State.refuseBlocked_epoch : (s.refuseBlocked).epoch = s.epoch := rfl
@[simp] theorem State.refuseBlocked_env : (s.refuseBlocked).env = s.env := rfl
@[simp] theorem State.refuseBlocked_inputs : (s.refuseBlocked).inputs = s.inputs := rfl

@[simp] theorem State.nextInput_i2c : (s.nextInput).i2c = s.i2c := rfl
@[simp] theorem State.nextInput_spi : (s.nextInput).spi = s.spi := rfl
@[simp] theorem State.nextInput_ras : (s.nextInput).ras = s.ras := rfl
@[simp] theorem State.nextInput_text : (s.nextInput).text = s.text := rfl
@[simp] theorem State.nextInput_fault : (s.nextInput).fault = s.fault := rfl
@[simp] theorem State.nextInput_busy : (s.nextInput).busy = s.busy := rfl
@[simp] theorem State.nextInput_rsp : (s.nextInput).rsp = s.rsp := rfl
@[simp] theorem State.nextInput_trRev : (s.nextInput).trRev = s.trRev := rfl
@[simp] theorem State.nextInput_cfg : (s.nextInput).cfg = s.cfg := rfl
@[simp] theorem State.nextInput_epoch : (s.nextInput).epoch = s.epoch := rfl
@[simp] theorem State.nextInput_env : (s.nextInput).env = s.env := rfl
@[simp] theorem State.nextInput_inputs : (s.nextInput).inputs = s.inputs.tail := rfl

@[simp] theorem State.presentNext_i2c (w : CmdWord) : (s.presentNext w).i2c = s.i2c := rfl
@[simp] theorem State.presentNext_spi (w : CmdWord) : (s.presentNext w).spi = s.spi := rfl
@[simp] theorem State.presentNext_ras (w : CmdWord) : (s.presentNext w).ras = s.ras := rfl
@[simp] theorem State.presentNext_text (w : CmdWord) : (s.presentNext w).text = s.text := rfl
@[simp] theorem State.presentNext_fault (w : CmdWord) : (s.presentNext w).fault = s.fault := rfl
@[simp] theorem State.presentNext_busy (w : CmdWord) : (s.presentNext w).busy = s.busy := rfl
@[simp] theorem State.presentNext_rsp (w : CmdWord) : (s.presentNext w).rsp = s.rsp := rfl
@[simp] theorem State.presentNext_trRev (w : CmdWord) : (s.presentNext w).trRev = s.trRev := rfl
@[simp] theorem State.presentNext_cfg (w : CmdWord) : (s.presentNext w).cfg = s.cfg := rfl
@[simp] theorem State.presentNext_epoch (w : CmdWord) : (s.presentNext w).epoch = s.epoch := rfl
@[simp] theorem State.presentNext_env (w : CmdWord) : (s.presentNext w).env = s.env := rfl
@[simp] theorem State.presentNext_inputs (w : CmdWord) : (s.presentNext w).inputs = .command w :: s.inputs := rfl

@[simp] theorem State.writeText_i2c (a v : Byte) : (s.writeText a v).i2c = s.i2c := rfl
@[simp] theorem State.writeText_spi (a v : Byte) : (s.writeText a v).spi = s.spi := rfl
@[simp] theorem State.writeText_ras (a v : Byte) : (s.writeText a v).ras = s.ras := rfl
@[simp] theorem State.writeText_text (a v : Byte) : (s.writeText a v).text = s.text.write a.toNat v := rfl
@[simp] theorem State.writeText_fault (a v : Byte) : (s.writeText a v).fault = s.fault := rfl
@[simp] theorem State.writeText_busy (a v : Byte) : (s.writeText a v).busy = s.busy := rfl
@[simp] theorem State.writeText_rsp (a v : Byte) : (s.writeText a v).rsp = s.rsp := rfl
@[simp] theorem State.writeText_trRev (a v : Byte) : (s.writeText a v).trRev = s.trRev := rfl
@[simp] theorem State.writeText_cfg (a v : Byte) : (s.writeText a v).cfg = s.cfg := rfl
@[simp] theorem State.writeText_epoch (a v : Byte) : (s.writeText a v).epoch = s.epoch := rfl
@[simp] theorem State.writeText_env (a v : Byte) : (s.writeText a v).env = s.env := rfl
@[simp] theorem State.writeText_inputs (a v : Byte) : (s.writeText a v).inputs = s.inputs := rfl

@[simp] theorem State.sent_i2c (fs : List (Bit × Byte)) : (s.sent fs).i2c = s.i2c := rfl
@[simp] theorem State.sent_spi (fs : List (Bit × Byte)) : (s.sent fs).spi = sentSpi s.cfg fs s.env s.spi := rfl
@[simp] theorem State.sent_ras (fs : List (Bit × Byte)) : (s.sent fs).ras = s.ras := rfl
@[simp] theorem State.sent_text (fs : List (Bit × Byte)) : (s.sent fs).text = s.text := rfl
@[simp] theorem State.sent_fault (fs : List (Bit × Byte)) : (s.sent fs).fault = s.fault := rfl
@[simp] theorem State.sent_busy (fs : List (Bit × Byte)) : (s.sent fs).busy = s.busy := rfl
@[simp] theorem State.sent_rsp (fs : List (Bit × Byte)) : (s.sent fs).rsp = s.rsp := rfl
@[simp] theorem State.sent_trRev (fs : List (Bit × Byte)) : (s.sent fs).trRev = (sentEvents fs s.env).reverse ++ s.trRev := rfl
@[simp] theorem State.sent_cfg (fs : List (Bit × Byte)) : (s.sent fs).cfg = s.cfg := rfl
@[simp] theorem State.sent_epoch (fs : List (Bit × Byte)) : (s.sent fs).epoch = s.epoch := rfl
@[simp] theorem State.sent_env (fs : List (Bit × Byte)) : (s.sent fs).env = s.env.drop fs.length := rfl
@[simp] theorem State.sent_inputs (fs : List (Bit × Byte)) : (s.sent fs).inputs = s.inputs := rfl

@[simp] theorem assignCs_i2c (l : Bit) : (assignCs l s).i2c = s.i2c := rfl
@[simp] theorem assignCs_spi (l : Bit) : (assignCs l s).spi = { s.spi with csN := l } := rfl
@[simp] theorem assignCs_ras (l : Bit) : (assignCs l s).ras = s.ras := rfl
@[simp] theorem assignCs_text (l : Bit) : (assignCs l s).text = s.text := rfl
@[simp] theorem assignCs_fault (l : Bit) : (assignCs l s).fault = s.fault := rfl
@[simp] theorem assignCs_busy (l : Bit) : (assignCs l s).busy = s.busy := rfl
@[simp] theorem assignCs_rsp (l : Bit) : (assignCs l s).rsp = s.rsp := rfl
@[simp] theorem assignCs_trRev (l : Bit) : (assignCs l s).trRev = .sCs l :: s.trRev := rfl
@[simp] theorem assignCs_cfg (l : Bit) : (assignCs l s).cfg = s.cfg := rfl
@[simp] theorem assignCs_epoch (l : Bit) : (assignCs l s).epoch = s.epoch := rfl
@[simp] theorem assignCs_env (l : Bit) : (assignCs l s).env = s.env := rfl
@[simp] theorem assignCs_inputs (l : Bit) : (assignCs l s).inputs = s.inputs := rfl

@[simp] theorem assignDc_i2c (l : Bit) : (assignDc l s).i2c = s.i2c := rfl
@[simp] theorem assignDc_spi (l : Bit) : (assignDc l s).spi = { s.spi with dc := l } := rfl
@[simp] theorem assignDc_ras (l : Bit) : (assignDc l s).ras = s.ras := rfl
@[simp] theorem assignDc_text (l : Bit) : (assignDc l s).text = s.text := rfl
@[simp] theorem assignDc_fault (l : Bit) : (assignDc l s).fault = s.fault := rfl
@[simp] theorem assignDc_busy (l : Bit) : (assignDc l s).busy = s.busy := rfl
@[simp] theorem assignDc_rsp (l : Bit) : (assignDc l s).rsp = s.rsp := rfl
@[simp] theorem assignDc_trRev (l : Bit) : (assignDc l s).trRev = .sDc l :: s.trRev := rfl
@[simp] theorem assignDc_cfg (l : Bit) : (assignDc l s).cfg = s.cfg := rfl
@[simp] theorem assignDc_epoch (l : Bit) : (assignDc l s).epoch = s.epoch := rfl
@[simp] theorem assignDc_env (l : Bit) : (assignDc l s).env = s.env := rfl
@[simp] theorem assignDc_inputs (l : Bit) : (assignDc l s).inputs = s.inputs := rfl

theorem State.trace_emit (e : Event) : (s.emit e).trace = s.trace ++ [e] := by
  simp [State.trace]

end Sys2Proof.Machine
end

