-- ==== Sys2Proof/Laws/Pins.lean ====
section
/-! SUPPORT. What each pin-level step list leaves in the hidden registers: the rest levels of rule R150 and the shift
registers (rules R151 to R156, R178). -/

namespace Sys2Proof.Machine

theorem run_startSteps (p : I2cPins) : p.run startSteps = { p with scl := 0#1, sda := 0#1 } := rfl

theorem run_restartSteps (p : I2cPins) : p.run restartSteps = { p with scl := 0#1, sda := 0#1 } := rfl

theorem run_ackSteps (p : I2cPins) (k : Bit) : p.run (ackSteps k) = { p with scl := 0#1, sda := k } := rfl

theorem run_stopSteps (p : I2cPins) : p.run stopSteps = { p with scl := 1#1, sda := 1#1 } := rfl

/-- Shifting a zero bit in eight times leaves nothing of the byte. -/
theorem shiftOut_eight (b : Byte) :
    (fun x : Byte => (x.extractLsb' 0 7 ++ 0#1 : Byte))^[8] b = 0x00#8 := by
  revert b; decide

theorem run_sendSteps (p : I2cPins) (b : Byte) (a : Bit) :
    p.run (sendSteps b a) = { shift := 0x00#8, bitcnt := 0#4, scl := 0#1, sda := 1#1 } :=
  congrArg (fun x => ({ shift := x, bitcnt := 0#4, scl := 0#1, sda := 1#1 } : I2cPins)) (shiftOut_eight b)

/-- One bit shifted in below seven kept ones, bit by bit. -/
theorem getLsbD_shiftIn (x : Byte) (b : Bit) (i : Nat) :
    (x.extractLsb' 0 7 ++ b : Byte).getLsbD i =
      if i = 0 then b.getLsbD 0 else (decide (i - 1 < 7) && x.getLsbD (i - 1)) := by
  refine (@BitVec.getLsbD_append 7 1 i (x.extractLsb' 0 7) b).trans ?_
  rcases i with _ | i <;> simp

/-- Shifting the bits of a byte in, bit 7 first, leaves that byte whatever was there before. -/
theorem shiftIn_msbFirst (x d : Byte) :
    (msbFirst d).foldl (fun x b => (x.extractLsb' 0 7 ++ b : Byte)) x = d := by
  simp only [msbFirst, List.foldl_cons, List.foldl_nil]
  apply BitVec.eq_of_getLsbD_eq
  intro i hi
  simp only [getLsbD_shiftIn, BitVec.getLsbD_extractLsb']
  interval_cases i <;> simp

theorem run_recvSteps (p : I2cPins) (d : Byte) :
    p.run (recvSteps d) = { shift := d, bitcnt := 0#4, scl := 0#1, sda := 1#1 } := by
  have h : p.run (recvSteps d) =
      ⟨(msbFirst d).foldl (fun x b => (x.extractLsb' 0 7 ++ (1#1 &&& b) : Byte)) p.shift, 0#4, 0#1, 1#1⟩ := rfl
  have e : (fun (x : Byte) (b : Bit) => (x.extractLsb' 0 7 ++ (1#1 &&& b) : Byte)) =
      fun x b => (x.extractLsb' 0 7 ++ b : Byte) := by
    funext x b
    have hb : (1#1 : Bit) &&& b = b := by revert b; decide
    rw [hb]
  rw [h, e, shiftIn_msbFirst]

/-- One clock of an SPI transfer in any mode: a bit out, a bit in, SCK back at rest (rule R178). -/
theorem foldl_spiBitSteps (p : Params) (n : BitVec 4) (b : Bit) (l : SpiLines) :
    (spiBitSteps p n b).foldl (SpiPinOp.apply p) l =
      ⟨⟨shiftBit p l.pins.shift b, n, p.sckIdle, firstBit p l.pins.shift⟩, b, b⟩ := by
  unfold spiBitSteps
  split <;> rfl

/-- Shifting the bits of a byte in, in the order they go over the bus, leaves that byte. -/
theorem foldl_shiftBit (p : Params) (x d : Byte) : (bitsInOrder p d).foldl (shiftBit p) x = d := by
  cases h : p.spiMsbFirst
  · have e : shiftBit p = fun (y : Byte) (b : Bit) => (b ++ y.extractLsb' 1 7 : Byte) := by
      funext y b; simp [shiftBit, h]
    have hb : bitsInOrder p d = (msbFirst d).reverse := by simp [bitsInOrder, h]
    rw [e, hb]
    simp only [msbFirst, List.reverse_cons, List.reverse_nil, List.nil_append, List.cons_append, List.foldl_cons,
      List.foldl_nil]
    apply BitVec.eq_of_getLsbD_eq
    intro i hi
    have hg : ∀ (y : Byte) (b : Bit) (j : Nat), (b ++ y.extractLsb' 1 7 : Byte).getLsbD j =
        if j < 7 then y.getLsbD (1 + j) else b.getLsbD (j - 7) := by
      intro y b j
      refine (@BitVec.getLsbD_append 1 7 j b (y.extractLsb' 1 7)).trans ?_
      by_cases hj : j < 7 <;> simp [hj]
    simp only [hg, BitVec.getLsbD_extractLsb']
    interval_cases i <;> simp
  · have e : shiftBit p = fun (y : Byte) (b : Bit) => (y.extractLsb' 0 7 ++ b : Byte) := by
      funext y b; simp [shiftBit, h]
    have hb : bitsInOrder p d = msbFirst d := by simp [bitsInOrder, h]
    rw [e, hb, shiftIn_msbFirst]

/-- A bit moves towards the end it goes out at: seven shifts bring the last bit there. -/
theorem firstBit_shifted (p : Params) (o : Byte) (c0 c1 c2 c3 c4 c5 c6 : Bit) :
    firstBit p ([c0, c1, c2, c3, c4, c5, c6].foldl (shiftBit p) o) = lastBit p o := by
  cases h : p.spiMsbFirst
  · have hg : ∀ (y : Byte) (b : Bit) (j : Nat), (b ++ y.extractLsb' 1 7 : Byte).getLsbD j =
        if j < 7 then y.getLsbD (1 + j) else b.getLsbD (j - 7) := by
      intro y b j
      refine (@BitVec.getLsbD_append 1 7 j b (y.extractLsb' 1 7)).trans ?_
      by_cases hj : j < 7 <;> simp [hj]
    simp only [firstBit, lastBit, shiftBit, h, List.foldl_cons, List.foldl_nil, Bool.false_eq_true, if_false]
    apply BitVec.eq_of_getLsbD_eq
    intro i hi
    simp only [BitVec.getLsbD_extractLsb', hg]
    interval_cases i
    simp
  · simp only [firstBit, lastBit, shiftBit, h, List.foldl_cons, List.foldl_nil, if_true]
    apply BitVec.eq_of_getLsbD_eq
    intro i hi
    simp only [BitVec.getLsbD_extractLsb', getLsbD_shiftIn]
    interval_cases i
    simp

/-- The bits of a byte in bus order are eight. -/
theorem bitsInOrder_eight (p : Params) (d : Byte) :
    ∃ c0 c1 c2 c3 c4 c5 c6 c7, bitsInOrder p d = [c0, c1, c2, c3, c4, c5, c6, c7] := by
  unfold bitsInOrder
  split <;> exact ⟨_, _, _, _, _, _, _, _, rfl⟩

/-- A transfer leaves the pins at rest with the slave's byte in the shifter, whatever it found (rule R178). -/
theorem transfer_eq (q : SpiPins) (p : Params) (o m : Byte) : q.transfer p o m = SpiPins.resting p o m := by
  obtain ⟨c0, c1, c2, c3, c4, c5, c6, c7, h⟩ := bitsInOrder_eight p m
  have hs := foldl_shiftBit p o m
  have hm := firstBit_shifted p o c0 c1 c2 c3 c4 c5 c6
  rw [h] at hs
  simp only [List.foldl_cons, List.foldl_nil] at hs hm
  simp only [SpiPins.transfer, spiSteps, h, List.zip_cons_cons, List.zip_nil_right, List.flatMap_cons, List.flatMap_nil,
    List.append_nil, List.foldl_cons, List.foldl_append, foldl_spiBitSteps, List.foldl_nil]
  simp only [SpiPinOp.apply, SpiPins.lines, hs, hm, SpiPins.resting]

end Sys2Proof.Machine
end

