-- ==== Sys2Proof/Laws/BusReader.lean ====
section
/-! SUPPORT. The small laws of the bus readers and of observed runs: what is seen of a list of steps, and what a reader makes
of it, goes part by part; clock stretching and its absence; comparing runs is an equivalence (rule R314). -/

namespace Sys2Proof.Machine

/-! ### The I2C bus, part by part -/

@[simp] theorem I2cLines.samples_nil (l : I2cLines) : l.samples [] = [] := rfl

@[simp] theorem I2cLines.samples_cons (l : I2cLines) (op : I2cPinOp) (ops : List I2cPinOp) :
    l.samples (op :: ops) = (op.apply l).sample :: (op.apply l).samples ops := rfl

theorem I2cLines.samples_append (l : I2cLines) (xs ys : List I2cPinOp) :
    l.samples (xs ++ ys) = l.samples xs ++ (xs.foldl I2cPinOp.apply l).samples ys := by
  induction xs generalizing l with
  | nil => rfl
  | cons x xs ih => simp [ih]

@[simp] theorem I2cReader.read_nil (r : I2cReader) : r.read [] = ([], r) := rfl

@[simp] theorem I2cReader.read_cons (r : I2cReader) (c : I2cSample) (cs : List I2cSample) :
    r.read (c :: cs) = ((r.see c).1 ++ ((r.see c).2.read cs).1, ((r.see c).2.read cs).2) := rfl

theorem I2cReader.read_append (r : I2cReader) (xs ys : List I2cSample) :
    r.read (xs ++ ys) = ((r.read xs).1 ++ ((r.read xs).2.read ys).1, ((r.read xs).2.read ys).2) := by
  induction xs generalizing r with
  | nil => rfl
  | cons x xs ih => simp [ih, List.append_assoc]

/-- Where nothing has changed on the lines the reader sees nothing. -/
theorem I2cReader.see_last (r : I2cReader) : r.see r.last = ([], r) := by
  unfold I2cReader.see
  split
  · rename_i h; exact absurd rfl h.2.2
  · split
    · rename_i h; exact absurd (h.1.symm.trans h.2) (by decide)
    · split
      · rename_i h; exact absurd (h.1.symm.trans h.2) (by decide)
      · rfl

/-- With no answer about stretching left, nothing is stretched. -/
@[simp] theorem stretched_nil (ops : List I2cPinOp) : stretched [] ops = ops := by
  induction ops with
  | nil => rfl
  | cons op ops ih => simp [stretched, ih]

/-- One clock of a byte sent, its clock stretched or not. -/
theorem stretched_sendBit (h : Bool) (hs : List Bool) (n : BitVec 4) (ops : List I2cPinOp) :
    stretched (h :: hs) (sendBitSteps n ++ ops) =
      [.count n, .driveMsb] ++ (if h then [.hold] else []) ++ [.scl 1#1, .wait, .scl 0#1, .shiftOut] ++
        stretched hs ops := by
  cases h <;> cases hs <;> simp [sendBitSteps, stretched]

/-- One clock of a byte received, its clock stretched or not; what follows does not begin by waiting. -/
theorem stretched_recvBit (h : Bool) (hs : List Bool) (n : BitVec 4) (b : Bit) (ops : List I2cPinOp)
    (hw : ops.head? ≠ some .wait) :
    stretched (h :: hs) (recvBitSteps n b ++ ops) =
      [.count n, .env b] ++ (if h then [.hold] else []) ++ [.scl 1#1, .wait, .shiftIn, .scl 0#1] ++
        stretched hs ops := by
  cases h <;> cases hs <;> rcases ops with _ | ⟨op, ops⟩ <;> simp [recvBitSteps, stretched] at hw ⊢ <;>
    cases op <;> simp_all [stretched]

/-- Holding the clock down changes no register of unit U1: stretching leaves the pins where they would be. -/
theorem hold_pins (l : I2cLines) : (I2cPinOp.hold.apply l).pins = l.pins := rfl

/-! ### The SPI bus, part by part -/

theorem SpiLines.seen_append (p : Params) (l : SpiLines) (xs ys : List SpiPinOp) :
    l.seen p (xs ++ ys) = l.seen p xs ++ (xs.foldl (SpiPinOp.apply p) l).seen p ys := by
  induction xs generalizing l with
  | nil => rfl
  | cons x xs ih => simp [SpiLines.seen, ih]

theorem SpiReader.read_append (p : Params) (r : SpiReader) (xs ys : List SpiSeen) :
    r.read p (xs ++ ys) = ((r.read p xs).1 ++ ((r.read p xs).2.read p ys).1, ((r.read p xs).2.read p ys).2) := by
  induction xs generalizing r with
  | nil => rfl
  | cons x xs ih => simp [SpiReader.read, ih, List.append_assoc]

/-- SCK rests again after every event that leaves it at rest before. -/
theorem SpiPins.after_sck (q : SpiPins) (p : Params) (e : Event) (h : q.sck = p.sckIdle) : (q.after p e).sck = p.sckIdle := by
  cases e <;> first | exact h | (simp only [SpiPins.after, transfer_eq]; rfl)

/-- An event of another bus moves no line of this one. -/
theorem spiActivity_other (p : Params) (q : SpiPins) (e : Event) (h : isSpiEvent e = false) : spiActivity p q e = [] := by
  cases e <;> first | rfl | cases h

/-- The bits of a byte make up that byte again, bit 7 first. -/
theorem byteOfBits_msbFirst (d : Byte) : byteOfBits (msbFirst d) = some d := by
  revert d; decide

/-- The bits of a byte in bus order make up that byte again. -/
theorem byteInOrder_bitsInOrder (p : Params) (d : Byte) : byteInOrder p (bitsInOrder p d) = some d := by
  unfold byteInOrder bitsInOrder
  split
  · exact byteOfBits_msbFirst d
  · rw [List.reverse_reverse]; exact byteOfBits_msbFirst d

/-! ### Observed runs (rule R314) -/

/-- A run that has ended is observably equal to itself. -/
theorem ObservablyEqual.refl {n : Nat} {s : State} (h : (observe n [] s).ending ≠ .running) : ObservablyEqual n s n s :=
  ⟨h, rfl, rfl, rfl⟩

theorem ObservablyEqual.symm {m n : Nat} {s t : State} (h : ObservablyEqual m s n t) : ObservablyEqual n t m s :=
  ⟨fun e => h.1 (h.2.2.2.trans e), h.2.1.symm, h.2.2.1.symm, h.2.2.2.symm⟩

theorem ObservablyEqual.trans {k m n : Nat} {r s t : State} (h : ObservablyEqual k r m s) (h' : ObservablyEqual m s n t) :
    ObservablyEqual k r n t :=
  ⟨h.1, h.2.1.trans h'.2.1, h.2.2.1.trans h'.2.2.1, h.2.2.2.trans h'.2.2.2⟩

end Sys2Proof.Machine
end

