-- ==== Sys2Proof/Laws/Flow.lean ====
section
/-! SUPPORT. The laws of the course of a command: what a composed course keeps if each of its parts keeps it, and the
three ways a command ends. -/

namespace Sys2Proof.Machine

/-- The state a course stands at. -/
def Flow.state : Flow → State
  | .go s => s
  | .hung s => s
  | .faulted _ s => s

@[simp] theorem Flow.bind_go (s : State) (k : State → Flow) : (Flow.go s).bind k = k s := rfl
@[simp] theorem Flow.bind_hung (s : State) (k : State → Flow) : (Flow.hung s).bind k = .hung s := rfl
@[simp] theorem Flow.bind_faulted (c : FaultCode) (s : State) (k : State → Flow) :
    (Flow.faulted c s).bind k = .faulted c s := rfl
@[simp] theorem Flow.state_go (s : State) : (Flow.go s).state = s := rfl
@[simp] theorem Flow.state_hung (s : State) : (Flow.hung s).state = s := rfl
@[simp] theorem Flow.state_faulted (c : FaultCode) (s : State) : (Flow.faulted c s).state = s := rfl

@[simp] theorem Flow.forEach_nil {α : Type} (body : α → State → Flow) (s : State) :
    Flow.forEach body [] s = .go s := rfl
@[simp] theorem Flow.forEach_cons {α : Type} (body : α → State → Flow) (x : α) (xs : List α) (s : State) :
    Flow.forEach body (x :: xs) s = (body x s).bind (Flow.forEach body xs) := rfl

theorem Flow.bind_assoc (f : Flow) (k l : State → Flow) :
    (f.bind k).bind l = f.bind fun s => (k s).bind l := by
  cases f <;> rfl

theorem Flow.forEach_append {α : Type} (body : α → State → Flow) (xs ys : List α) (s : State) :
    Flow.forEach body (xs ++ ys) s = (Flow.forEach body xs s).bind (Flow.forEach body ys) := by
  induction xs generalizing s with
  | nil => rfl
  | cons x xs ih =>
    simp only [List.cons_append, Flow.forEach_cons, Flow.bind_assoc]
    congr 1; funext s; exact ih s

/-- A transitive relation that both parts keep is kept by one after the other, whichever way the course ends. -/
theorem Flow.bind_keeps {R : State → State → Prop} (htr : ∀ {a b c}, R a b → R b c → R a c)
    {s : State} {f : Flow} {k : State → Flow} (hf : R s f.state) (hk : ∀ t, R t (k t).state) :
    R s (f.bind k).state := by
  cases f with
  | go t => exact htr hf (hk t)
  | hung t => exact hf
  | faulted c t => exact hf

theorem Flow.forEach_keeps {α : Type} {R : State → State → Prop} (hrf : ∀ a, R a a)
    (htr : ∀ {a b c}, R a b → R b c → R a c) {body : α → State → Flow} (hb : ∀ x t, R t (body x t).state)
    (xs : List α) (s : State) : R s (Flow.forEach body xs s).state := by
  induction xs generalizing s with
  | nil => exact hrf s
  | cons x xs ih => exact Flow.bind_keeps (R := R) htr (hb x s) fun t => ih t

theorem Flow.times_keeps {R : State → State → Prop} (hrf : ∀ a, R a a)
    (htr : ∀ {a b c}, R a b → R b c → R a c) {body : State → Flow} (hb : ∀ t, R t (body t).state)
    (n : Nat) (s : State) : R s (Flow.times body n s).state := by
  induction n generalizing s with
  | zero => exact hrf s
  | succ n ih => exact Flow.bind_keeps (R := R) htr (hb s) fun t => ih t

/-- A command ends in exactly one of three ways (rules R110, R280, R284). -/
theorem conclude_cases (rsp : State → RspWord) (f : Flow) :
    (∃ t, f = .go t ∧ conclude rsp f = t.respond (rsp t)) ∨
    (∃ t, f = .hung t ∧ conclude rsp f = t.hang) ∨
    (∃ c t, f = .faulted c t ∧ conclude rsp f = t.raise c) := by
  cases f with
  | go t => exact .inl ⟨t, rfl, rfl⟩
  | hung t => exact .inr (.inl ⟨t, rfl, rfl⟩)
  | faulted c t => exact .inr (.inr ⟨c, t, rfl, rfl⟩)

/-- The end of a command touches FAULT, BUSY and the response port alone. -/
theorem conclude_frame (rsp : State → RspWord) (f : Flow) :
    conclude rsp f = { f.state with
      fault := (conclude rsp f).fault, busy := (conclude rsp f).busy, rsp := (conclude rsp f).rsp } := by
  cases f <;> rfl

end Sys2Proof.Machine
end

