-- ==== Sys2Proof/Laws/Frames.lean ====
section
/-! SUPPORT. What framed writes do (rule R190): all that they may change, whatever the environment answers; the closed form
of their effect when it lets every transfer complete; and where they stop when it does not. -/

namespace Sys2Proof.Machine

/-- All that framed writes, pixels and glyphs may change: unit U2, the trace by events that are no I2C events, the
answers used up, and the hidden counters of unit U3. -/
structure DisplayOnly (s t : State) : Prop where
  same   : t = { s with spi := { t.spi with div := s.spi.div }, trRev := t.trRev, env := t.env,
                        ras := { s.ras with col := t.ras.col, row := t.ras.row, gidx := t.ras.gidx } }
  events : ∃ es, t.trRev = es ++ s.trRev ∧ ∀ e ∈ es, isI2cEvent e = false

theorem DisplayOnly.refl (s : State) : DisplayOnly s s := ⟨rfl, [], rfl, by simp⟩

theorem DisplayOnly.trans {a b c : State} (h : DisplayOnly a b) (k : DisplayOnly b c) : DisplayOnly a c := by
  obtain ⟨es, he, hes⟩ := h.events
  obtain ⟨fs, hf, hfs⟩ := k.events
  refine ⟨?_, fs ++ es, by rw [hf, he, List.append_assoc], fun e h' => ?_⟩
  · have h1 := h.same
    have h2 := k.same
    rw [h1] at h2
    rw [h2]
  · rcases List.mem_append.1 h' with h' | h'
    · exact hfs e h'
    · exact hes e h'

theorem DisplayOnly.emit (s : State) {e : Event} (he : isI2cEvent e = false) : DisplayOnly s (s.emit e) :=
  ⟨rfl, [e], rfl, by simpa using he⟩

theorem DisplayOnly.assignCs (l : Bit) (s : State) : DisplayOnly s (assignCs l s) :=
  ⟨rfl, [.sCs l], rfl, by simp [isI2cEvent]⟩

theorem DisplayOnly.assignDc (l : Bit) (s : State) : DisplayOnly s (assignDc l s) :=
  ⟨rfl, [.sDc l], rfl, by simp [isI2cEvent]⟩

/-- The transfer: complete, with event, SPI_RX and shifter together, or not at all (rule R171). -/
theorem spiTransfer_cases (o : Byte) (s : State) :
    (s.answer.done = true ∧ spiTransfer o s = .go { s with
      spi := { s.spi with rx := s.answer.miso, pins := SpiPins.resting s.cfg o s.answer.miso },
      trRev := .sXfer o s.answer.miso :: s.trRev, env := s.env.tail }) ∨
    (s.answer.done = false ∧ spiTransfer o s = .hung s.nextAnswer) := by
  cases h : s.answer.done
  · exact .inr ⟨rfl, by simp [spiTransfer, h]⟩
  · refine .inl ⟨rfl, ?_⟩
    simp only [spiTransfer, h, transfer_eq]
    rfl

theorem DisplayOnly.transfer (o : Byte) (s : State) : DisplayOnly s (spiTransfer o s).state := by
  rcases spiTransfer_cases o s with ⟨-, h⟩ | ⟨-, h⟩ <;> rw [h]
  · exact ⟨rfl, [.sXfer o s.answer.miso], rfl, by simp [isI2cEvent]⟩
  · exact ⟨rfl, [], rfl, by simp⟩

/-- The answer of a framed write's transfer is asked on the trace with its two assignments in it. -/
def frameAnswer (dc : Bit) (s : State) : EnvAnswer := (assignCs 0#1 (assignDc dc s)).answer

/-- A framed write completes with four events, or hangs with two and chip-select asserted (rules R190, R200). -/
theorem frame_cases (dc : Bit) (o : Byte) (s : State) :
    ((frameAnswer dc s).done = true ∧ frame dc o s = .go { s with
      spi := ⟨1#1, dc, (frameAnswer dc s).miso, s.spi.div, SpiPins.resting s.cfg o (frameAnswer dc s).miso⟩,
      trRev := .sCs 1#1 :: .sXfer o (frameAnswer dc s).miso :: .sCs 0#1 :: .sDc dc :: s.trRev, env := s.env.tail }) ∨
    ((frameAnswer dc s).done = false ∧ frame dc o s = .hung (assignCs 0#1 (assignDc dc s)).nextAnswer) := by
  rcases spiTransfer_cases o (assignCs 0#1 (assignDc dc s)) with ⟨hd, h⟩ | ⟨hd, h⟩
  · refine .inl ⟨hd, ?_⟩
    simp only [frame, h, Flow.bind_go]
    rfl
  · exact .inr ⟨hd, by simp [frame, h]⟩

theorem DisplayOnly.frame (dc : Bit) (o : Byte) (s : State) : DisplayOnly s (Machine.frame dc o s).state :=
  Flow.bind_keeps (R := DisplayOnly) DisplayOnly.trans
    (((DisplayOnly.assignDc dc s).trans (.assignCs 0#1 _)).trans (.transfer o _)) fun t => .assignCs 1#1 t

theorem DisplayOnly.frames (l : List (Bit × Byte)) (s : State) : DisplayOnly s (Machine.frames l s).state := by
  induction l generalizing s with
  | nil => exact .refl s
  | cons f l ih => exact Flow.bind_keeps (R := DisplayOnly) DisplayOnly.trans (.frame f.1 f.2 s) fun t => ih t

/-! ### The closed form -/

@[simp] theorem sent_nil (s : State) : s.sent [] = s := by
  cases s; rename_i env _; cases env <;> rfl

theorem sent_cons (s : State) (f : Bit × Byte) (fs : List (Bit × Byte)) (a : EnvAnswer) (as : List EnvAnswer)
    (h : s.env = a :: as) :
    s.sent (f :: fs) = State.sent { s with
      spi := ⟨1#1, f.1, a.miso, s.spi.div, SpiPins.resting s.cfg f.2 a.miso⟩,
      trRev := .sCs 1#1 :: .sXfer f.2 a.miso :: .sCs 0#1 :: .sDc f.1 :: s.trRev, env := as } fs := by
  simp [State.sent, h, sentSpi, sentEvents]

theorem frame_go {s : State} {a : EnvAnswer} {as : List EnvAnswer} (h : s.env = a :: as) (hd : a.done = true)
    (f : Bit × Byte) :
    frame f.1 f.2 s = .go { s with
      spi := ⟨1#1, f.1, a.miso, s.spi.div, SpiPins.resting s.cfg f.2 a.miso⟩,
      trRev := .sCs 1#1 :: .sXfer f.2 a.miso :: .sCs 0#1 :: .sDc f.1 :: s.trRev, env := as } := by
  have hf : frameAnswer f.1 s = a := by simp [frameAnswer, State.answer, h]
  rcases frame_cases f.1 f.2 s with ⟨-, he⟩ | ⟨hn, -⟩
  · rw [he, hf, h]; rfl
  · rw [hf, hd] at hn; cases hn

/-- Framed writes in a responsive environment: all of them, in closed form. -/
theorem frames_go (l : List (Bit × Byte)) (s : State) (h : Responsive l.length s) : frames l s = .go (s.sent l) := by
  induction l generalizing s with
  | nil => simp [frames]
  | cons f fs ih =>
    obtain ⟨hl, hd⟩ := h
    match he : s.env with
    | [] => simp [he] at hl
    | a :: as =>
      have ha : a.done = true := hd a (by simp [he])
      have step := frame_go he ha f
      simp only [frames, Flow.forEach_cons, step, Flow.bind_go] at ih ⊢
      rw [sent_cons s f fs a as he]
      refine ih _ ⟨by simpa [he] using hl, fun b hb => hd b ?_⟩
      simpa [he] using Or.inr hb

theorem Responsive.mono {m n : Nat} {s : State} (h : Responsive n s) (hm : m ≤ n) : Responsive m s :=
  ⟨hm.trans h.1, fun a ha => h.2 a (List.take_subset_take_left _ hm ha)⟩

theorem Responsive.sent {n : Nat} {s : State} {l : List (Bit × Byte)} (h : Responsive (l.length + n) s) :
    Responsive n (s.sent l) := by
  refine ⟨by simpa using Nat.le_sub_of_add_le' h.1, fun a ha => h.2 a ?_⟩
  rw [State.sent_env] at ha
  rw [List.take_add]
  exact List.mem_append_right _ ha

theorem Responsive.of_env {n : Nat} {s t : State} (h : Responsive n s) (he : t.env = s.env) : Responsive n t := by
  unfold Responsive; rwa [he]

theorem sentEvents_append (l m : List (Bit × Byte)) (env : List EnvAnswer) (h : l.length ≤ env.length) :
    sentEvents (l ++ m) env = sentEvents l env ++ sentEvents m (env.drop l.length) := by
  induction l generalizing env with
  | nil => simp [sentEvents]
  | cons f l ih =>
    cases env with
    | nil => simp at h
    | cons a env => simp [sentEvents, ih env (by simpa using h)]

theorem sentSpi_append (p : Params) (l m : List (Bit × Byte)) (env : List EnvAnswer) (u : SpiUnit) (h : l.length ≤ env.length) :
    sentSpi p (l ++ m) env u = sentSpi p m (env.drop l.length) (sentSpi p l env u) := by
  induction l generalizing env u with
  | nil => simp [sentSpi]
  | cons f l ih =>
    cases env with
    | nil => simp at h
    | cons a env => simp [sentSpi, ih env _ (by simpa using h)]

theorem sent_append (l m : List (Bit × Byte)) (s : State) (h : l.length ≤ s.env.length) :
    (s.sent l).sent m = s.sent (l ++ m) := by
  simp only [State.sent, sentEvents_append l m _ h, sentSpi_append s.cfg l m _ _ h, List.reverse_append, List.append_assoc,
    List.drop_drop, List.length_append]

theorem length_sentEvents (l : List (Bit × Byte)) (env : List EnvAnswer) (h : l.length ≤ env.length) :
    (sentEvents l env).length = 4 * l.length := by
  induction l generalizing env with
  | nil => simp [sentEvents]
  | cons f l ih =>
    cases env with
    | nil => simp at h
    | cons a env => simp [sentEvents, ih env (by simpa using h)]; omega

/-- Framed writes put no pixel marker in the trace (rule R7). -/
theorem pixels_sentEvents (l : List (Bit × Byte)) (env : List EnvAnswer) : pixels (sentEvents l env) = [] := by
  induction l generalizing env with
  | nil => simp [sentEvents, pixels]
  | cons f l ih =>
    cases env with
    | nil => simp [sentEvents, pixels]
    | cons a env => simpa [sentEvents, pixels] using ih env

/-! ### Where framed writes stop -/

/-- Framed writes whose transfer number `k` never completes: everything before it has taken effect, with its two line
assignments (rules R200, R285). -/
theorem frames_hung (l : List (Bit × Byte)) (s : State) (k : Nat) (f : Bit × Byte) (a : EnvAnswer)
    (hf : l[k]? = some f) (hr : Responsive k s) (ha : s.env[k]? = some a) (hd : a.done = false) :
    frames l s = .hung (assignCs 0#1 (assignDc f.1 (s.sent (l.take k)))).nextAnswer := by
  induction k generalizing l s with
  | zero =>
    match l, hf with
    | g :: fs, hf =>
      obtain rfl : g = f := by simpa using hf
      match he : s.env with
      | [] => simp [he] at ha
      | b :: as =>
        obtain rfl : b = a := by simpa [he] using ha
        have hb : frameAnswer g.1 s = b := by simp [frameAnswer, State.answer, he]
        rcases frame_cases g.1 g.2 s with ⟨hn, -⟩ | ⟨-, h⟩
        · rw [hb, hd] at hn; cases hn
        · simp [frames, h]
  | succ k ih =>
    match l, hf with
    | g :: fs, hf =>
      match he : s.env with
      | [] => simp [he] at ha
      | b :: as =>
        have hb : b.done = true := hr.2 b (by simp [he])
        have step := frame_go he hb g
        simp only [frames, Flow.forEach_cons, step, Flow.bind_go] at ih ⊢
        rw [List.take_succ_cons, sent_cons s g (fs.take k) b as he]
        refine ih fs _ (by simpa using hf) ⟨by simpa [he] using hr.1, fun c hc => hr.2 c ?_⟩ (by simpa [he] using ha)
        simpa [he] using Or.inr hc

end Sys2Proof.Machine
end

