-- ==== Sys2Proof/Laws/Display.lean ====
section
/-! SUPPORT. The composed display operations in a responsive environment, in closed form, and what they may change in any
environment (rules R193 to R196). -/

namespace Sys2Proof.Machine

@[simp] theorem length_data16 (h : Half) : (data16 h).length = 2 := rfl

theorem length_windowFrames (p : Params) (x0 y0 x1 y1 : Half) :
    (windowFrames p x0 y0 x1 y1).length = if p.windowRamwr then 11 else 10 := by
  cases h : p.windowRamwr <;> simp [windowFrames, h]

/-- The framed writes of one pixel (rule R195). -/
def pixelFrames (p : Params) (x y c : Half) : List (Bit × Byte) :=
  windowFrames p x y (x + 1#16) (y + 1#16) ++ data16 c

theorem length_pixelFrames (p : Params) (x y c : Half) :
    (pixelFrames p x y c).length = if p.windowRamwr then 13 else 12 := by
  simp only [pixelFrames, List.length_append, length_windowFrames, length_data16]
  split <;> rfl

theorem frames_append (l m : List (Bit × Byte)) (s : State) :
    frames (l ++ m) s = (frames l s).bind (frames m) := Flow.forEach_append _ l m s

/-- A pixel is its marker and then its framed writes. -/
theorem writePixel_eq (x y c : Half) (s : State) :
    writePixel x y c s = frames (pixelFrames s.cfg x y c) (s.emit (.pix x y c)) := by
  simp only [writePixel, setWindow, pixelFrames, frames_append]
  rfl

theorem writePixel_go (x y c : Half) (s : State) (h : Responsive 13 s) :
    writePixel x y c s = .go ((s.emit (.pix x y c)).sent (pixelFrames s.cfg x y c)) := by
  rw [writePixel_eq]
  refine frames_go _ _ (Responsive.of_env (h.mono ?_) rfl)
  rw [length_pixelFrames]; split <;> omega

theorem DisplayOnly.writePixel (x y c : Half) (s : State) : DisplayOnly s (Machine.writePixel x y c s).state := by
  rw [writePixel_eq]
  exact (DisplayOnly.emit s rfl).trans (.frames _ _)

theorem DisplayOnly.setWindow (x0 y0 x1 y1 : Half) (s : State) :
    DisplayOnly s (Machine.setWindow x0 y0 x1 y1 s).state := .frames _ s

theorem DisplayOnly.lcdData16 (h : Half) (s : State) : DisplayOnly s (Machine.lcdData16 h s).state := .frames _ s

theorem DisplayOnly.times (h : Half) (n : Nat) (s : State) :
    DisplayOnly s (Flow.times (Machine.lcdData16 h) n s).state := by
  induction n generalizing s with
  | zero => exact .refl s
  | succ n ih => exact Flow.bind_keeps (R := DisplayOnly) DisplayOnly.trans (.lcdData16 h s) fun t => ih t

/-- A colour word `n` times is one list of framed writes. -/
theorem times_lcdData16 (h : Half) (n : Nat) (s : State) :
    Flow.times (lcdData16 h) n s = frames (List.replicate n (data16 h)).flatten s := by
  induction n generalizing s with
  | zero => rfl
  | succ n ih =>
    simp only [Flow.times, List.replicate_succ, List.flatten_cons, frames_append]
    congr 1
    funext t; exact ih t

/-- The framed writes of CLEAR (rule R196). -/
def clearFrames (p : Params) (h : Half) : List (Bit × Byte) :=
  windowFrames p 0#16 0#16 p.clearX1 p.clearY1 ++
    (List.replicate (Config.surfW * Config.surfH) (data16 h)).flatten

theorem clear_eq (h : Half) (s : State) :
    (setWindow 0#16 0#16 s.cfg.clearX1 s.cfg.clearY1 s).bind
      (Flow.times (lcdData16 h) (Config.surfW * Config.surfH)) = frames (clearFrames s.cfg h) s := by
  rw [clearFrames, frames_append, setWindow]
  congr 1
  funext t; exact times_lcdData16 h _ t

theorem length_clearFrames (p : Params) (h : Half) :
    (clearFrames p h).length = (if p.windowRamwr then 11 else 10) + 32768 := by
  have hd : ∀ n : Nat, ((List.replicate n (data16 h)).flatten).length = 2 * n := by
    intro n
    induction n with
    | zero => rfl
    | succ n ih => rw [List.replicate_succ, List.flatten_cons, List.length_append, ih, length_data16]; omega
  rw [clearFrames, List.length_append, length_windowFrames, hd]
  rfl

end Sys2Proof.Machine
end

