-- ==== Sys2Proof/Laws/PerInstr.lean ====
section
/-! SUPPORT. Per-command facts about the encoding: the word of a command shows the `match` bits of its row of
spec/opcode_table.json under the row's `mask` (rule R105). -/

namespace Sys2Proof.Laws.TableRow

/-- The `match` and `mask` of a command's row, copied from spec/opcode_table.json. -/
def row : Instr → CmdWord × CmdWord
  | .nop => (0x000000000000000000#72, 0xFFFFFFFFFFFFFFFFFF#72)
  | .rdReg _ => (0x010000000000000000#72, 0xFFFFFFFFFFFF00FFFF#72)
  | .wrReg _ _ => (0x020000000000000000#72, 0xFFFFFFFFFFFF000000#72)
  | .txtWr _ _ => (0x030000000000000000#72, 0xFFFFFFFFFFFFFF0000#72)
  | .txtRd _ => (0x040000000000000000#72, 0xFFFFFFFFFFFFFF00FF#72)
  | .i2cStart => (0x100000000000000000#72, 0xFFFFFFFFFFFFFFFFFF#72)
  | .i2cRestart => (0x110000000000000000#72, 0xFFFFFFFFFFFFFFFFFF#72)
  | .i2cSend _ => (0x120000000000000000#72, 0xFFFFFFFFFFFFFFFF00#72)
  | .i2cRecv => (0x130000000000000000#72, 0xFFFFFFFFFFFFFFFFFF#72)
  | .i2cAck _ => (0x140000000000000000#72, 0xFFFFFFFFFFFFFFFFFE#72)
  | .i2cStop => (0x150000000000000000#72, 0xFFFFFFFFFFFFFFFFFF#72)
  | .spiXfer _ => (0x200000000000000000#72, 0xFFFFFFFFFFFFFFFF00#72)
  | .spiCs _ => (0x210000000000000000#72, 0xFFFFFFFFFFFFFFFFFE#72)
  | .spiDc _ => (0x220000000000000000#72, 0xFFFFFFFFFFFFFFFFFE#72)
  | .lcdCmd _ => (0x230000000000000000#72, 0xFFFFFFFFFFFFFFFF00#72)
  | .lcdData _ => (0x240000000000000000#72, 0xFFFFFFFFFFFFFFFF00#72)
  | .lcdData16 _ => (0x250000000000000000#72, 0xFFFFFFFFFFFFFF0000#72)
  | .setWindow _ _ _ _ => (0x260000000000000000#72, 0xFF0000000000000000#72)
  | .writePixel _ _ _ => (0x270000000000000000#72, 0xFFFFFF000000000000#72)
  | .clear _ => (0x280000000000000000#72, 0xFFFFFFFFFFFFFF0000#72)
  | .drawChar _ _ _ => (0x300000000000000000#72, 0xFFFFFFFF0000000000#72)
  | .drawString _ _ _ => (0x310000000000000000#72, 0xFFFFFFFF0000000000#72)

/-- The word of the command shows its row's opcode and has every reserved bit 0. -/
def Statement (i : Instr) : Prop := encode i &&& (row i).2 = (row i).1

theorem nop : Statement .nop := by unfold Statement; decide
theorem rdReg (r : Byte) : Statement (.rdReg r) := by
  apply BitVec.eq_of_getLsbD_eq
  intro i hi
  simp only [row, encode, Instr.opcode, Instr.operands, BitVec.getLsbD_and, BitVec.getLsbD_append]
  interval_cases i <;> simp
theorem wrReg (r : Byte) (v : Half) : Statement (.wrReg r v) := by
  apply BitVec.eq_of_getLsbD_eq
  intro i hi
  simp only [row, encode, Instr.opcode, Instr.operands, BitVec.getLsbD_and, BitVec.getLsbD_append]
  interval_cases i <;> simp
theorem txtWr (a : Byte) (v : Byte) : Statement (.txtWr a v) := by
  apply BitVec.eq_of_getLsbD_eq
  intro i hi
  simp only [row, encode, Instr.opcode, Instr.operands, BitVec.getLsbD_and, BitVec.getLsbD_append]
  interval_cases i <;> simp
theorem txtRd (a : Byte) : Statement (.txtRd a) := by
  apply BitVec.eq_of_getLsbD_eq
  intro i hi
  simp only [row, encode, Instr.opcode, Instr.operands, BitVec.getLsbD_and, BitVec.getLsbD_append]
  interval_cases i <;> simp
theorem i2cStart : Statement .i2cStart := by unfold Statement; decide
theorem i2cRestart : Statement .i2cRestart := by unfold Statement; decide
theorem i2cSend (b : Byte) : Statement (.i2cSend b) := by
  apply BitVec.eq_of_getLsbD_eq
  intro i hi
  simp only [row, encode, Instr.opcode, Instr.operands, BitVec.getLsbD_and, BitVec.getLsbD_append]
  interval_cases i <;> simp
theorem i2cRecv : Statement .i2cRecv := by unfold Statement; decide
theorem i2cAck (l : Bit) : Statement (.i2cAck l) := by
  apply BitVec.eq_of_getLsbD_eq
  intro i hi
  simp only [row, encode, Instr.opcode, Instr.operands, BitVec.getLsbD_and, BitVec.getLsbD_append]
  interval_cases i <;> simp
theorem i2cStop : Statement .i2cStop := by unfold Statement; decide
theorem spiXfer (b : Byte) : Statement (.spiXfer b) := by
  apply BitVec.eq_of_getLsbD_eq
  intro i hi
  simp only [row, encode, Instr.opcode, Instr.operands, BitVec.getLsbD_and, BitVec.getLsbD_append]
  interval_cases i <;> simp
theorem spiCs (l : Bit) : Statement (.spiCs l) := by
  apply BitVec.eq_of_getLsbD_eq
  intro i hi
  simp only [row, encode, Instr.opcode, Instr.operands, BitVec.getLsbD_and, BitVec.getLsbD_append]
  interval_cases i <;> simp
theorem spiDc (l : Bit) : Statement (.spiDc l) := by
  apply BitVec.eq_of_getLsbD_eq
  intro i hi
  simp only [row, encode, Instr.opcode, Instr.operands, BitVec.getLsbD_and, BitVec.getLsbD_append]
  interval_cases i <;> simp
theorem lcdCmd (b : Byte) : Statement (.lcdCmd b) := by
  apply BitVec.eq_of_getLsbD_eq
  intro i hi
  simp only [row, encode, Instr.opcode, Instr.operands, BitVec.getLsbD_and, BitVec.getLsbD_append]
  interval_cases i <;> simp
theorem lcdData (b : Byte) : Statement (.lcdData b) := by
  apply BitVec.eq_of_getLsbD_eq
  intro i hi
  simp only [row, encode, Instr.opcode, Instr.operands, BitVec.getLsbD_and, BitVec.getLsbD_append]
  interval_cases i <;> simp
theorem lcdData16 (h : Half) : Statement (.lcdData16 h) := by
  apply BitVec.eq_of_getLsbD_eq
  intro i hi
  simp only [row, encode, Instr.opcode, Instr.operands, BitVec.getLsbD_and, BitVec.getLsbD_append]
  interval_cases i <;> simp
theorem setWindow (x0 : Half) (y0 : Half) (x1 : Half) (y1 : Half) : Statement (.setWindow x0 y0 x1 y1) := by
  apply BitVec.eq_of_getLsbD_eq
  intro i hi
  simp only [row, encode, Instr.opcode, Instr.operands, BitVec.getLsbD_and, BitVec.getLsbD_append]
  interval_cases i <;> simp
theorem writePixel (x : Half) (y : Half) (c : Half) : Statement (.writePixel x y c) := by
  apply BitVec.eq_of_getLsbD_eq
  intro i hi
  simp only [row, encode, Instr.opcode, Instr.operands, BitVec.getLsbD_and, BitVec.getLsbD_append]
  interval_cases i <;> simp
theorem clear (h : Half) : Statement (.clear h) := by
  apply BitVec.eq_of_getLsbD_eq
  intro i hi
  simp only [row, encode, Instr.opcode, Instr.operands, BitVec.getLsbD_and, BitVec.getLsbD_append]
  interval_cases i <;> simp
theorem drawChar (x : Half) (y : Half) (s : Byte) : Statement (.drawChar x y s) := by
  apply BitVec.eq_of_getLsbD_eq
  intro i hi
  simp only [row, encode, Instr.opcode, Instr.operands, BitVec.getLsbD_and, BitVec.getLsbD_append]
  interval_cases i <;> simp
theorem drawString (x : Half) (y : Half) (p : Byte) : Statement (.drawString x y p) := by
  apply BitVec.eq_of_getLsbD_eq
  intro i hi
  simp only [row, encode, Instr.opcode, Instr.operands, BitVec.getLsbD_and, BitVec.getLsbD_append]
  interval_cases i <;> simp

end Sys2Proof.Laws.TableRow
end

