-- ==== Sys2Proof/Laws/Encoding.lean ====
section
/-! SUPPORT. The bits of the encoding, one lemma for each function the encoder and the decoder are made of. -/

namespace Sys2Proof

/-- A row found by its opcode is a row of the table and has that opcode. -/
theorem rowOf_mem {op : Byte} {r : Row} (h : rowOf op = some r) : r ∈ opTable ∧ r.op = op :=
  ⟨List.mem_of_find?_eq_some h, by simpa using List.find?_some h⟩

/-- The reserved bit positions of a format (rule R102). -/
def Format.reservedAt : Format → Nat → Bool
  | .N, n => n < 64
  | .B, n => 8 ≤ n && n < 64
  | .L, n => 1 ≤ n && n < 64
  | .H, n => 16 ≤ n && n < 64
  | .W, _ => false
  | .P, n => 48 ≤ n && n < 64
  | .C, n => 40 ≤ n && n < 64
  | .S, n => 40 ≤ n && n < 64
  | .RR, n => (24 ≤ n && n < 64) || n < 16
  | .RW, n => 24 ≤ n && n < 64
  | .TW, n => 16 ≤ n && n < 64
  | .TR, n => (16 ≤ n && n < 64) || n < 8

theorem getLsbD_reserved (f : Format) : ∀ n, n < 72 → f.reserved.getLsbD n = f.reservedAt n := by
  cases f <;> decide

theorem getLsbD_field (lo k : Nat) (w : CmdWord) (n : Nat) :
    (field lo k w).getLsbD n = (decide (n < k) && w.getLsbD (lo + n)) := by
  simp [field]

theorem getLsbD_encode (i : Instr) (n : Nat) :
    (encode i).getLsbD n = if n < 64 then i.operands.getLsbD n else i.opcode.getLsbD (n - 64) := by
  refine (@BitVec.getLsbD_append 8 64 n i.opcode i.operands).trans ?_
  split <;> simp_all

/-- The opcode field of a command's word is its opcode (rule R101). -/
theorem field_opcode_encode (i : Instr) : field 64 8 (encode i) = i.opcode := by
  apply BitVec.eq_of_getLsbD_eq
  intro n hn
  rw [getLsbD_field, getLsbD_encode]
  simp [hn]

/-- A command's word under its row's mask is its row's match, for every command at once (rule R105). -/
theorem encode_row (i : Instr) : encode i &&& (Laws.TableRow.row i).2 = (Laws.TableRow.row i).1 := by
  cases i
  · exact Laws.TableRow.nop
  · exact Laws.TableRow.rdReg _
  · exact Laws.TableRow.wrReg _ _
  · exact Laws.TableRow.txtWr _ _
  · exact Laws.TableRow.txtRd _
  · exact Laws.TableRow.i2cStart
  · exact Laws.TableRow.i2cRestart
  · exact Laws.TableRow.i2cSend _
  · exact Laws.TableRow.i2cRecv
  · exact Laws.TableRow.i2cAck _
  · exact Laws.TableRow.i2cStop
  · exact Laws.TableRow.spiXfer _
  · exact Laws.TableRow.spiCs _
  · exact Laws.TableRow.spiDc _
  · exact Laws.TableRow.lcdCmd _
  · exact Laws.TableRow.lcdData _
  · exact Laws.TableRow.lcdData16 _
  · exact Laws.TableRow.setWindow _ _ _ _
  · exact Laws.TableRow.writePixel _ _ _
  · exact Laws.TableRow.clear _
  · exact Laws.TableRow.drawChar _ _ _
  · exact Laws.TableRow.drawString _ _ _

/-- Bit `n` of the operand field of a command (rule R102). -/
def Instr.operandBit : Instr → Nat → Bool
  | .nop, _ => false
  | .rdReg r, n => decide (16 ≤ n) && r.getLsbD (n - 16)
  | .wrReg r v, n => if n < 16 then v.getLsbD n else r.getLsbD (n - 16)
  | .txtWr a v, n => if n < 8 then v.getLsbD n else a.getLsbD (n - 8)
  | .txtRd a, n => decide (8 ≤ n) && a.getLsbD (n - 8)
  | .i2cStart, _ => false
  | .i2cRestart, _ => false
  | .i2cSend b, n => b.getLsbD n
  | .i2cRecv, _ => false
  | .i2cAck l, n => l.getLsbD n
  | .i2cStop, _ => false
  | .spiXfer b, n => b.getLsbD n
  | .spiCs l, n => l.getLsbD n
  | .spiDc l, n => l.getLsbD n
  | .lcdCmd b, n => b.getLsbD n
  | .lcdData b, n => b.getLsbD n
  | .lcdData16 h, n => h.getLsbD n
  | .setWindow x0 y0 x1 y1, n =>
    if n < 16 then y1.getLsbD n
    else if n < 32 then x1.getLsbD (n - 16)
    else if n < 48 then y0.getLsbD (n - 32)
    else x0.getLsbD (n - 48)
  | .writePixel x y c, n =>
    if n < 16 then c.getLsbD n else if n < 32 then y.getLsbD (n - 16) else x.getLsbD (n - 32)
  | .clear h, n => h.getLsbD n
  | .drawChar x y s, n =>
    if n < 8 then s.getLsbD n else if n < 24 then y.getLsbD (n - 8) else x.getLsbD (n - 24)
  | .drawString x y p, n =>
    if n < 8 then p.getLsbD n else if n < 24 then y.getLsbD (n - 8) else x.getLsbD (n - 24)

theorem getLsbD_operands (i : Instr) (n : Nat) : i.operands.getLsbD n = i.operandBit n := by
  have beyond : ∀ {k m : Nat} (v : BitVec k), k ≤ m → v.getLsbD m = false := fun v h => BitVec.getLsbD_of_ge v _ h
  cases i
  all_goals simp only [Instr.operands, Instr.operandBit, BitVec.getLsbD_append, BitVec.getLsbD_zero, Nat.sub_sub]
  all_goals repeat' split
  all_goals first
    | rfl
    | (simp [*]; done)
    | (simp [*]; omega)
    | (rw [beyond _ (Nat.not_lt.1 ‹_›)]; done)
    | (rw [beyond _ (Nat.not_lt.1 ‹_›)]; simp)

end Sys2Proof
end

