-- ==== Sys2Proof/Laws/Raster.lean ====
section
/-! SUPPORT. What the rasterizer draws in a responsive environment (rules R222 to R234), and what it may change in any
environment. -/

namespace Sys2Proof.Machine

theorem glyphIndex?_of_drawable {ch : Byte} (h : drawable ch = true) : ∃ k, glyphIndex? ch = some k := by
  simp only [drawable, Bool.and_eq_true, decide_eq_true_eq] at h
  exact ⟨_, dif_pos h⟩

theorem glyphIndex?_none {ch : Byte} (h : drawable ch = false) : glyphIndex? ch = none := by
  refine dif_neg fun hc => ?_
  have : drawable ch = true := by simpa [drawable, Config.glyphFirst, Config.glyphLast] using hc
  rw [this] at h; cases h

theorem DisplayOnly.drawCell (x y : Half) (k : Fin 95) (c : Fin 5 × Fin 8) (s : State) :
    DisplayOnly s (Machine.drawCell x y k c s).state := by
  unfold Machine.drawCell
  have h : DisplayOnly s { s with ras.col := BitVec.ofNat 3 c.1.val, ras.row := BitVec.ofNat 3 c.2.val } :=
    ⟨rfl, [], rfl, by simp⟩
  dsimp only
  split
  · exact h
  · exact h.trans (.writePixel _ _ _ _)

theorem DisplayOnly.drawGlyph (x y : Half) (ch : Byte) (s : State) :
    DisplayOnly s (Machine.drawGlyph x y ch s).state := by
  unfold Machine.drawGlyph
  split
  · exact .refl s
  · rename_i k _
    have h : DisplayOnly s { s with ras.gidx := BitVec.ofNat 7 k.val } := ⟨rfl, [], rfl, by simp⟩
    exact h.trans (Flow.forEach_keeps (R := DisplayOnly) .refl DisplayOnly.trans (fun c t => .drawCell x y k c t) _ _)

/-- The pixel of one cell, if it is not skipped (rules R222, R224, R225). -/
def cellPixel (g : Glyphs) (fg bg x y : Half) (k : Fin 95) (c : Fin 5 × Fin 8) : Option (Half × Half × Half) :=
  if x.toNat + c.1.val ≤ 128 ∧ y.toNat + c.2.val ≤ 128 then
    some (BitVec.ofNat 16 (x.toNat + c.1.val), BitVec.ofNat 16 (y.toNat + c.2.val),
      if g[k][c.1].getLsbD c.2.val then fg else bg)
  else none

theorem cellPixels_eq (g : Glyphs) (fg bg x y : Half) (k : Fin 95) :
    glyphCells.filterMap (cellPixel g fg bg x y k) = charPixels g fg bg x y k := by
  have inner : ∀ (i : Fin 5) (l : List (Fin 8)),
      (l.map fun j => (i, j)).filterMap (cellPixel g fg bg x y k) =
        (l.filter fun j => x.toNat + i.val ≤ 128 ∧ y.toNat + j.val ≤ 128).map fun j =>
          (BitVec.ofNat 16 (x.toNat + i.val), BitVec.ofNat 16 (y.toNat + j.val),
            if g[k][i].getLsbD j.val then fg else bg) := by
    intro i l
    induction l with
    | nil => rfl
    | cons j l ih =>
      simp only [List.map_cons, List.filterMap_cons, List.filter_cons, ih, cellPixel]
      by_cases h : x.toNat + i.val ≤ 128 ∧ y.toNat + j.val ≤ 128 <;> simp [h]
  unfold glyphCells charPixels
  generalize List.finRange 5 = L
  induction L with
  | nil => rfl
  | cons i L ih => rw [List.flatMap_cons, List.flatMap_cons, List.filterMap_append, ih, inner]

/-- The framed bytes of events one after another. -/
theorem framedBytes_append (c d : Bit) (a b : List Event) :
    ∃ c' d', framedBytes c d (a ++ b) = framedBytes c d a ++ framedBytes c' d' b := by
  induction a generalizing c d with
  | nil => exact ⟨c, d, rfl⟩
  | cons e a ih =>
    cases e
    case sCs l => exact ih l d
    case sDc l => exact ih c l
    case sXfer o m =>
      obtain ⟨c', d', h⟩ := ih c d
      refine ⟨c', d', ?_⟩
      simp only [List.cons_append, framedBytes, h]
      split <;> rfl
    all_goals exact ih c d

/-- The framed bytes of framed writes are those writes (rule R190). -/
theorem framedBytes_sentEvents (c d : Bit) (l : List (Bit × Byte)) (env : List EnvAnswer) (h : l.length ≤ env.length) :
    framedBytes c d (sentEvents l env) = l := by
  induction l generalizing c d env with
  | nil => rfl
  | cons f l ih =>
    cases env with
    | nil => simp at h
    | cons a env => simp [sentEvents, framedBytes, ih 1#1 f.1 env (by simpa using h)]

/-- The framed writes of pixels one after another. -/
def pixelsFrames (p : Params) (ps : List (Half × Half × Half)) : List (Bit × Byte) :=
  ps.flatMap fun q => pixelFrames p q.1 q.2.1 q.2.2

/-- What a completed part of a draw has done: the display relation, the pixels it asked for, the bytes it sent for them,
the number of its events, and at most `n` answers used. -/
structure Drawn (s : State) (f : Flow) (n : Nat) (ps : List (Half × Half × Half)) (t : State) : Prop where
  go     : f = .go t
  only   : DisplayOnly s t
  trace  : ∃ es, t.trRev = es.reverse ++ s.trRev ∧ pixels es = ps ∧
    (∀ c d, framedBytes c d es = pixelsFrames s.cfg ps) ∧ es.length = (if s.cfg.windowRamwr then 53 else 49) * ps.length
  env    : ∃ m ≤ n, t.env = s.env.drop m

theorem pixels_append (a b : List Event) : pixels (a ++ b) = pixels a ++ pixels b := by
  simp [pixels, List.filterMap_append]

theorem DisplayOnly.cfg {s t : State} (h : DisplayOnly s t) : t.cfg = s.cfg := by rw [h.same]

theorem Responsive.drop {m n : Nat} {s t : State} (h : Responsive (m + n) s) (he : ∃ k ≤ m, t.env = s.env.drop k) :
    Responsive n t := by
  obtain ⟨k, hk, he⟩ := he
  refine ⟨by rw [he, List.length_drop]; have := h.1; omega, fun a ha => ?_⟩
  rw [he] at ha
  refine (h.mono (by omega : k + n ≤ m + n)).2 a ?_
  rw [List.take_add]
  exact List.mem_append_right _ ha

theorem Drawn.bind {s t u : State} {f : Flow} {k : State → Flow} {m n : Nat} {ps qs : List (Half × Half × Half)}
    (h : Drawn s f m ps t) (h' : Drawn t (k t) n qs u) : Drawn s (f.bind k) (m + n) (ps ++ qs) u := by
  obtain ⟨es, he, hp, hf, hl⟩ := h.trace
  obtain ⟨es', he', hp', hf', hl'⟩ := h'.trace
  obtain ⟨a, ha, hae⟩ := h.env
  obtain ⟨b, hb, hbe⟩ := h'.env
  refine ⟨by rw [h.go, Flow.bind_go, h'.go], h.only.trans h'.only, ⟨es ++ es', ?_, ?_, fun c d => ?_, ?_⟩, a + b,
    by omega, ?_⟩
  · rw [he', he, List.reverse_append, List.append_assoc]
  · rw [pixels_append, hp, hp']
  · obtain ⟨c', d', h2⟩ := framedBytes_append c d es es'
    rw [h2, hf, hf', h.only.cfg, pixelsFrames, pixelsFrames, pixelsFrames, List.flatMap_append]
  · rw [List.length_append, List.length_append, hl, hl', h.only.cfg, Nat.mul_add]
  · rw [hbe, hae, List.drop_drop]

theorem writePixel_drawn (x y c : Half) (s : State) (h : Responsive 13 s) :
    ∃ t, Drawn s (writePixel x y c s) 13 [(x, y, c)] t := by
  have hd := DisplayOnly.writePixel x y c s
  have hw := writePixel_go x y c s h
  have hl := length_pixelFrames s.cfg x y c
  have hp := pixels_sentEvents (pixelFrames s.cfg x y c) s.env
  have hlen : (pixelFrames s.cfg x y c).length ≤ 13 := by rw [hl]; split <;> omega
  rw [hw] at hd
  refine ⟨_, hw, hd, ⟨.pix x y c :: sentEvents (pixelFrames s.cfg x y c) s.env, ?_, ?_, fun _ d => ?_, ?_⟩, _, hlen, rfl⟩
  · simp only [List.reverse_cons, List.append_assoc]; rfl
  · simp only [pixels] at hp
    simp only [pixels, List.filterMap_cons, hp]
  · rw [framedBytes, framedBytes_sentEvents _ d _ _ (hlen.trans h.1)]
    · simp [pixelsFrames]
    all_goals simp
  · rw [List.length_cons, length_sentEvents _ _ (hlen.trans h.1), hl, List.length_singleton]
    split <;> rfl

theorem drawCell_drawn (x y : Half) (k : Fin 95) (c : Fin 5 × Fin 8) (s : State) (h : Responsive 13 s) :
    ∃ t, Drawn s (drawCell x y k c s) 13 (cellPixel s.cfg.glyph s.ras.fg s.ras.bg x y k c).toList t := by
  have hd := DisplayOnly.drawCell x y k c s
  by_cases hc : x.toNat + c.1.val ≤ 128 ∧ y.toNat + c.2.val ≤ 128
  · have hn : ¬(x.toNat + c.1.val > Config.clipMax ∨ y.toNat + c.2.val > Config.clipMax) := by
      simp only [Config.clipMax]; omega
    simp only [drawCell, if_neg hn] at hd ⊢
    obtain ⟨t, ht⟩ := writePixel_drawn (BitVec.ofNat 16 (x.toNat + c.1.val)) (BitVec.ofNat 16 (y.toNat + c.2.val))
      (if glyphBit s.cfg.glyph k c.1 c.2 then s.ras.fg else s.ras.bg)
      { s with ras.col := BitVec.ofNat 3 c.1.val, ras.row := BitVec.ofNat 3 c.2.val } (h.of_env rfl)
    have hp : (cellPixel s.cfg.glyph s.ras.fg s.ras.bg x y k c).toList =
        [(BitVec.ofNat 16 (x.toNat + c.1.val), BitVec.ofNat 16 (y.toNat + c.2.val),
          if glyphBit s.cfg.glyph k c.1 c.2 then s.ras.fg else s.ras.bg)] := by
      rw [cellPixel, if_pos hc]; rfl
    rw [ht.go] at hd
    exact ⟨t, ht.go, hd, by rw [hp]; exact ht.trace, ht.env⟩
  · have hn : x.toNat + c.1.val > Config.clipMax ∨ y.toNat + c.2.val > Config.clipMax := by
      simp only [Config.clipMax]; omega
    simp only [drawCell, if_pos hn] at hd ⊢
    refine ⟨_, rfl, hd, ⟨[], rfl, ?_, fun _ _ => ?_, ?_⟩, 0, by omega, rfl⟩ <;>
      simp [cellPixel, if_neg hc, pixels, framedBytes, pixelsFrames]

theorem DisplayOnly.fg {s t : State} (h : DisplayOnly s t) : t.ras.fg = s.ras.fg := by rw [h.same]
theorem DisplayOnly.bg {s t : State} (h : DisplayOnly s t) : t.ras.bg = s.ras.bg := by rw [h.same]

theorem drawCells_drawn (x y : Half) (k : Fin 95) (cells : List (Fin 5 × Fin 8)) (s : State)
    (h : Responsive (13 * cells.length) s) :
    ∃ t, Drawn s (Flow.forEach (drawCell x y k) cells s) (13 * cells.length)
      (cells.filterMap (cellPixel s.cfg.glyph s.ras.fg s.ras.bg x y k)) t := by
  induction cells generalizing s with
  | nil => exact ⟨s, rfl, .refl s, ⟨[], rfl, rfl, fun _ _ => rfl, rfl⟩, 0, le_rfl, rfl⟩
  | cons c cells ih =>
    have hlen : 13 * (c :: cells).length = 13 + 13 * cells.length := by rw [List.length_cons]; omega
    rw [hlen] at h ⊢
    obtain ⟨t, ht⟩ := drawCell_drawn x y k c s (h.mono (by omega))
    obtain ⟨u, hu⟩ := ih t (h.drop ht.env)
    refine ⟨u, ?_⟩
    have hb := ht.bind hu
    rw [ht.only.cfg, ht.only.fg, ht.only.bg] at hb
    have hf : (c :: cells).filterMap (cellPixel s.cfg.glyph s.ras.fg s.ras.bg x y k) =
        (cellPixel s.cfg.glyph s.ras.fg s.ras.bg x y k c).toList ++
          cells.filterMap (cellPixel s.cfg.glyph s.ras.fg s.ras.bg x y k) := by
      rw [List.filterMap_cons]; cases cellPixel s.cfg.glyph s.ras.fg s.ras.bg x y k c <;> rfl
    rw [hf]; exact hb

/-- A drawable character draws exactly its unclipped cells, in order (rules R225, R226 c). -/
theorem drawGlyph_drawn (x y : Half) (ch : Byte) (k : Fin 95) (s : State) (hk : glyphIndex? ch = some k)
    (h : Responsive 520 s) :
    ∃ t, Drawn s (drawGlyph x y ch s) 520 (charPixels s.cfg.glyph s.ras.fg s.ras.bg x y k) t := by
  have hd := DisplayOnly.drawGlyph x y ch s
  simp only [drawGlyph, hk] at hd ⊢
  obtain ⟨t, ht⟩ := drawCells_drawn x y k glyphCells { s with ras.gidx := BitVec.ofNat 7 k.val } (h.of_env rfl)
  rw [cellPixels_eq] at ht
  rw [ht.go] at hd ⊢
  exact ⟨t, rfl, hd, ht.trace, ht.env⟩

/-! ### The pixels asked for in any environment -/

/-- What a part of a draw has asked for, however it ends: the first few of `ps`, and all of them if it goes on. -/
def Asked (s : State) (f : Flow) (ps : List (Half × Half × Half)) : Prop :=
  ∃ es, f.state.trRev = es.reverse ++ s.trRev ∧ pixels es <+: ps ∧ ((∃ t, f = .go t) → pixels es = ps)

theorem Asked.nothing {s t : State} (h : t.trRev = s.trRev) : Asked s (.go t) [] :=
  ⟨[], h, List.nil_prefix, fun _ => rfl⟩

theorem Asked.bind {s : State} {f : Flow} {k : State → Flow} {ps qs : List (Half × Half × Half)} (h : Asked s f ps)
    (h' : ∀ t, f = .go t → Asked t (k t) qs) : Asked s (f.bind k) (ps ++ qs) := by
  obtain ⟨es, he, hp, hg⟩ := h
  cases f with
  | go t =>
    obtain ⟨es', he', hp', hg'⟩ := h' t rfl
    have hps := hg ⟨t, rfl⟩
    simp only [Flow.bind_go]
    refine ⟨es ++ es', ?_, ?_, fun hgo => ?_⟩
    · rw [he', List.reverse_append, List.append_assoc, ← he]; rfl
    · rw [pixels_append, hps]; exact (List.prefix_append_right_inj ps).2 hp'
    · rw [pixels_append, hps, hg' hgo]
  | hung t => exact ⟨es, he, hp.trans (List.prefix_append _ _), fun ⟨_, h⟩ => by cases h⟩
  | faulted c t => exact ⟨es, he, hp.trans (List.prefix_append _ _), fun ⟨_, h⟩ => by cases h⟩

/-- Framed writes ask for no pixel. -/
theorem frames_asked (l : List (Bit × Byte)) (s : State) : Asked s (frames l s) [] := by
  induction l generalizing s with
  | nil => exact .nothing rfl
  | cons f l ih =>
    refine Asked.bind (ps := []) (qs := []) ?_ fun t _ => ih t
    show Asked s (frame f.1 f.2 s) []
    rcases frame_cases f.1 f.2 s with ⟨-, h⟩ | ⟨-, h⟩ <;> rw [h]
    · exact ⟨[.sDc f.1, .sCs 0#1, .sXfer f.2 _, .sCs 1#1], rfl, List.nil_prefix, fun _ => rfl⟩
    · exact ⟨[.sDc f.1, .sCs 0#1], rfl, List.nil_prefix, fun _ => rfl⟩

theorem writePixel_asked (x y c : Half) (s : State) : Asked s (writePixel x y c s) [(x, y, c)] := by
  rw [writePixel_eq]
  obtain ⟨es, he, hp, -⟩ := frames_asked (pixelFrames s.cfg x y c) (s.emit (.pix x y c))
  have hn : pixels es = [] := List.prefix_nil.1 hp
  have hp' : pixels (.pix x y c :: es) = [(x, y, c)] := by
    simp only [pixels] at hn
    simp only [pixels, List.filterMap_cons, hn]
  refine ⟨.pix x y c :: es, ?_, ?_, fun _ => hp'⟩
  · rw [he, List.reverse_cons, List.append_assoc]; rfl
  · rw [hp']

theorem drawCell_asked (x y : Half) (k : Fin 95) (c : Fin 5 × Fin 8) (s : State) :
    Asked s (drawCell x y k c s) (cellPixel s.cfg.glyph s.ras.fg s.ras.bg x y k c).toList := by
  by_cases hc : x.toNat + c.1.val ≤ 128 ∧ y.toNat + c.2.val ≤ 128
  · have hn : ¬(x.toNat + c.1.val > Config.clipMax ∨ y.toNat + c.2.val > Config.clipMax) := by
      simp only [Config.clipMax]; omega
    simp only [drawCell, if_neg hn, cellPixel, if_pos hc]
    exact writePixel_asked _ _ _ { s with ras.col := BitVec.ofNat 3 c.1.val, ras.row := BitVec.ofNat 3 c.2.val }
  · have hn : x.toNat + c.1.val > Config.clipMax ∨ y.toNat + c.2.val > Config.clipMax := by
      simp only [Config.clipMax]; omega
    simp only [drawCell, if_pos hn, cellPixel, if_neg hc]
    exact .nothing rfl

theorem drawCells_asked (x y : Half) (k : Fin 95) (cells : List (Fin 5 × Fin 8)) (s : State) :
    Asked s (Flow.forEach (drawCell x y k) cells s)
      (cells.filterMap (cellPixel s.cfg.glyph s.ras.fg s.ras.bg x y k)) := by
  induction cells generalizing s with
  | nil => exact .nothing rfl
  | cons c cells ih =>
    have hf : (c :: cells).filterMap (cellPixel s.cfg.glyph s.ras.fg s.ras.bg x y k) =
        (cellPixel s.cfg.glyph s.ras.fg s.ras.bg x y k c).toList ++
          cells.filterMap (cellPixel s.cfg.glyph s.ras.fg s.ras.bg x y k) := by
      rw [List.filterMap_cons]; cases cellPixel s.cfg.glyph s.ras.fg s.ras.bg x y k c <;> rfl
    rw [hf]
    refine (drawCell_asked x y k c s).bind fun t ht => ?_
    have hd := DisplayOnly.drawCell x y k c s
    rw [ht] at hd
    rw [← hd.cfg, ← hd.fg, ← hd.bg]
    exact ih t

/-- A character asks for its pixels in order, whatever the environment does: all of them, or the first few if it hangs. -/
theorem drawGlyph_asked (x y : Half) (ch : Byte) (s : State) :
    Asked s (drawGlyph x y ch s) (glyphPixels s.cfg.glyph s.ras.fg s.ras.bg x y ch) := by
  unfold drawGlyph glyphPixels
  cases hk : glyphIndex? ch with
  | none => exact ⟨[], rfl, List.nil_prefix, fun _ => rfl⟩
  | some k =>
    have h := drawCells_asked x y k glyphCells { s with ras.gidx := BitVec.ofNat 7 k.val }
    rw [cellPixels_eq] at h
    exact h

end Sys2Proof.Machine
end

