-- ==== Sys2Proof/Laws/Text.lean ====
section
/-! SUPPORT. The character loop of DRAW_STRING (rules R229 to R233): what it may change in any environment, and what it has
done after characters it goes on after, in a responsive one. -/

namespace Sys2Proof.Machine

/-- All that DRAW_STRING may change: as DisplayOnly, and the cursor and the hidden registers of unit U3. -/
structure TextOnly (s t : State) : Prop where
  same   : t = { s with spi := { t.spi with div := s.spi.div }, trRev := t.trRev, env := t.env,
                        ras := { t.ras with fg := s.ras.fg, bg := s.ras.bg } }
  events : ∃ es, t.trRev = es ++ s.trRev ∧ ∀ e ∈ es, isI2cEvent e = false

theorem TextOnly.refl (s : State) : TextOnly s s := ⟨rfl, [], rfl, by simp⟩

theorem TextOnly.trans {a b c : State} (h : TextOnly a b) (k : TextOnly b c) : TextOnly a c := by
  obtain ⟨es, he, hes⟩ := h.events
  obtain ⟨fs, hf, hfs⟩ := k.events
  refine ⟨?_, fs ++ es, by rw [hf, he, List.append_assoc], fun e h' => ?_⟩
  · have h1 := h.same
    have h2 := k.same
    rw [h1] at h2
    rw [h2]
  · exact (List.mem_append.1 h').elim (hfs e) (hes e)

theorem DisplayOnly.toText {s t : State} (h : DisplayOnly s t) : TextOnly s t :=
  ⟨by rw [h.same], h.events⟩

/-- A change of the cursor and the hidden registers of unit U3 alone. -/
theorem TextOnly.ofRas (s : State) (r : RasterUnit) (hf : r.fg = s.ras.fg) (hb : r.bg = s.ras.bg) :
    TextOnly s { s with ras := r } := by
  refine ⟨?_, [], rfl, by simp⟩
  cases r; simp_all

theorem TextOnly.newLine (s : State) : TextOnly s (Machine.newLine s) := .ofRas s _ rfl rfl
theorem TextOnly.advance (s : State) : TextOnly s (Machine.advance s) := .ofRas s _ rfl rfl

theorem TextOnly.drawText (ps : List Byte) (s : State) : TextOnly s (Machine.drawText ps s).state := by
  induction ps generalizing s with
  | nil => exact .refl s
  | cons p ps ih =>
    have h : TextOnly s { s with ras.txtPtr := p } := .ofRas s _ rfl rfl
    unfold Machine.drawText
    dsimp only
    split
    · exact h
    · exact (h.trans (.newLine _)).trans (ih _)
    · exact h.trans (Flow.bind_keeps (R := TextOnly) TextOnly.trans (DisplayOnly.drawGlyph _ _ _ _).toText
        fun u => (TextOnly.advance u).trans (ih _))

/-- The cursor after characters, from a cursor and a left margin (rule R230). -/
def walk (nl : Byte) (org : Half) : Half × Half → List Byte → Half × Half
  | c, [] => c
  | c, ch :: chs => if ch = nl then walk nl org (org, c.2 + 10#16) chs else walk nl org (c.1 + 6#16, c.2) chs

theorem takeWhile_append_of {α : Type} (q : α → Bool) (l m : List α) :
    (l ++ m).takeWhile q = if l.all q then l ++ m.takeWhile q else l.takeWhile q := by
  induction l with
  | nil => simp
  | cons a l ih =>
    by_cases h : q a = true
    · simp only [List.cons_append, List.takeWhile_cons, h, if_true, ih, List.all_cons, Bool.true_and]
      split <;> rfl
    · simp [h]

theorem sinceNewline_cons (nl ch : Byte) (chs : List Byte) :
    sinceNewline nl (ch :: chs) =
      if nl ∈ chs then sinceNewline nl chs
      else if ch = nl then sinceNewline nl chs else sinceNewline nl chs + 1 := by
  unfold sinceNewline
  rw [List.reverse_cons, takeWhile_append_of]
  by_cases h : nl ∈ chs
  · have : ¬ (chs.reverse.all fun x => decide (x ≠ nl)) = true := by
      simp only [List.all_eq_true, List.mem_reverse, decide_eq_true_eq, not_forall]
      exact ⟨_, h, by simp⟩
    rw [if_neg this, if_pos h]
  · have hall : (chs.reverse.all fun x => decide (x ≠ nl)) = true := by
      simp only [List.all_eq_true, List.mem_reverse, decide_eq_true_eq]
      rintro x hx rfl; exact h hx
    have ht : chs.reverse.takeWhile (fun x => decide (x ≠ nl)) = chs.reverse := by
      rw [List.takeWhile_eq_self_iff]
      intro x hx
      exact (List.all_eq_true.1 hall) x hx
    rw [if_pos hall, if_neg h, ht]
    by_cases hc : ch = nl <;> simp [hc]

theorem walk_eq (nl : Byte) (org cx cy : Half) (chs : List Byte) :
    walk nl org (cx, cy) chs =
      ((if nl ∈ chs then org else cx) + BitVec.ofNat 16 (6 * sinceNewline nl chs),
        cy + BitVec.ofNat 16 (10 * chs.count nl)) := by
  induction chs generalizing cx cy with
  | nil => simp [walk, sinceNewline]
  | cons ch chs ih =>
    have h6 : ∀ n : Nat, BitVec.ofNat 16 (6 * (n + 1)) = 6#16 + BitVec.ofNat 16 (6 * n) := by
      intro n; rw [Nat.mul_add, Nat.add_comm, BitVec.ofNat_add]
    have h10 : ∀ n : Nat, BitVec.ofNat 16 (10 * (n + 1)) = 10#16 + BitVec.ofNat 16 (10 * n) := by
      intro n; rw [Nat.mul_add, Nat.add_comm, BitVec.ofNat_add]
    by_cases hc : ch = nl
    · subst hc
      simp only [walk, if_true, ih, sinceNewline_cons, List.mem_cons, true_or, List.count_cons_self, h10,
        ite_self, BitVec.add_assoc]
    · have hc' : ¬nl = ch := fun e => hc e.symm
      simp only [walk, if_neg hc, ih, sinceNewline_cons, List.mem_cons, hc', false_or, List.count_cons_of_ne hc]
      by_cases h : nl ∈ chs
      · simp only [if_pos h]
      · simp only [if_neg h, h6, BitVec.add_assoc]

/-- With the cursor at the left margin this is the closed form of rule R231. -/
theorem walk_start (nl : Byte) (x y : Half) (chs : List Byte) : walk nl x (x, y) chs = cursorAfter nl x y chs := by
  rw [walk_eq, ite_self]; rfl

/-- The indices from `p` on. -/
theorem textIndices_eq (p : Byte) : textIndices p = (List.range' p.toNat (256 - p.toNat)).map (BitVec.ofNat 8) := rfl

theorem indices_cons {p : Nat} (h : p < 256) :
    (List.range' p (256 - p)).map (BitVec.ofNat 8) =
      BitVec.ofNat 8 p :: (List.range' (p + 1) (256 - (p + 1))).map (BitVec.ofNat 8) := by
  have : 256 - p = (256 - (p + 1)) + 1 := by omega
  rw [this, List.range'_succ, List.map_cons]

/-- The loop after characters it goes on after: where it stands, what it has drawn. -/
structure Walked (s : State) (p : Nat) (chs : List Byte) (t : State) : Prop where
  loop   : drawText ((List.range' p (256 - p)).map (BitVec.ofNat 8)) s =
    drawText ((List.range' (p + chs.length) (256 - (p + chs.length))).map (BitVec.ofNat 8)) t
  only   : TextOnly s t
  org    : t.ras.orgX = s.ras.orgX
  cursor : (t.ras.curX, t.ras.curY) = walk s.cfg.newline s.ras.orgX (s.ras.curX, s.ras.curY) chs
  ptr    : t.ras.txtPtr = if chs = [] then s.ras.txtPtr else BitVec.ofNat 8 (p + chs.length - 1)
  pixels : ∃ es, t.trRev = es.reverse ++ s.trRev ∧
    pixels es = stringPixels s.cfg.newline s.cfg.glyph s.ras.fg s.ras.bg s.ras.orgX s.ras.curX s.ras.curY chs ∧
    ∀ c d, framedBytes c d es = pixelsFrames s.cfg (Machine.pixels es)
  env    : ∃ m ≤ 520 * chs.length, t.env = s.env.drop m

theorem classify_terminator {p : Params} {ch : Byte} (h : ch = 0x00#8) : classify p ch = .terminator := by subst h; rfl
theorem classify_newline {p : Params} {ch : Byte} (h0 : ch ≠ 0x00#8) (h : ch = p.newline) :
    classify p ch = .newline := by
  subst h
  simp [classify, Config.terminator, h0]
theorem classify_other {p : Params} {ch : Byte} (h0 : ch ≠ 0x00#8) (hA : ch ≠ p.newline) : classify p ch = .other := by
  simp [classify, Config.terminator, h0, hA]

theorem TextOnly.readText {s t : State} (h : TextOnly s t) (a : Byte) : t.readText a = s.readText a :=
  State.readText_congr (by rw [h.same]) (by rw [h.same]) a

/-- DRAW_STRING goes on through every drawable character and newline, one after another (rule R230). -/
theorem walked (chs : List Byte) (p : Nat) (s : State) (hp : p + chs.length ≤ 256)
    (ht : ∀ k : Nat, ∀ ch : Byte, chs[k]? = some ch → s.readText (BitVec.ofNat 8 (p + k)) = ch ∧ drawsOn s.cfg.newline ch)
    (hr : Responsive (520 * chs.length) s) : ∃ t, Walked s p chs t := by
  induction chs generalizing p s with
  | nil => exact ⟨s, rfl, .refl s, rfl, rfl, rfl, ⟨[], rfl, rfl, fun _ _ => rfl⟩, 0, by simp, rfl⟩
  | cons ch chs ih =>
    have hlt : p < 256 := by simp only [List.length_cons] at hp; omega
    have hlen : 520 * (ch :: chs).length = 520 + 520 * chs.length := by rw [List.length_cons]; omega
    have hpl : p + (ch :: chs).length = p + 1 + chs.length := by rw [List.length_cons]; omega
    obtain ⟨hch, hon⟩ := ht 0 ch rfl
    have h1 : TextOnly s { s with ras.txtPtr := BitVec.ofNat 8 p } := .ofRas s _ rfl rfl
    have hch' : State.readText { s with ras.txtPtr := BitVec.ofNat 8 p } (BitVec.ofNat 8 p) = ch := by
      rw [h1.readText]; exact hch
    -- one character leads from `s` to `u`, and the rest from `u` on
    have go : ∀ u : State, TextOnly s u → u.ras.orgX = s.ras.orgX → u.ras.txtPtr = BitVec.ofNat 8 p →
        (u.ras.curX, u.ras.curY) = walk s.cfg.newline s.ras.orgX (s.ras.curX, s.ras.curY) [ch] →
        (∃ m ≤ 520, u.env = s.env.drop m) →
        (∃ es, u.trRev = es.reverse ++ s.trRev ∧
          pixels es = stringPixels s.cfg.newline s.cfg.glyph s.ras.fg s.ras.bg s.ras.orgX s.ras.curX s.ras.curY [ch] ∧
          ∀ c d, framedBytes c d es = pixelsFrames s.cfg (pixels es)) →
        drawText ((List.range' p (256 - p)).map (BitVec.ofNat 8)) s =
          drawText ((List.range' (p + 1) (256 - (p + 1))).map (BitVec.ofNat 8)) u →
        ∃ t, Walked s p (ch :: chs) t := by
      intro u hu horg hptr hcur henv hpix hloop
      obtain ⟨t, w⟩ := ih (p + 1) u (by rw [List.length_cons] at hp; omega)
        (fun k c hk => by
          have := ht (k + 1) c hk
          rw [hu.readText]
          rwa [show p + 1 + k = p + (k + 1) by omega, show u.cfg = s.cfg by rw [hu.same]])
        ((hlen ▸ hr).drop henv)
      have hfg : u.ras.fg = s.ras.fg := by rw [hu.same]
      have hbg : u.ras.bg = s.ras.bg := by rw [hu.same]
      have hcfg : u.cfg = s.cfg := by rw [hu.same]
      have hcx : u.ras.curX = (walk s.cfg.newline s.ras.orgX (s.ras.curX, s.ras.curY) [ch]).1 := congrArg Prod.fst hcur
      have hcy : u.ras.curY = (walk s.cfg.newline s.ras.orgX (s.ras.curX, s.ras.curY) [ch]).2 := congrArg Prod.snd hcur
      refine ⟨t, ?_, hu.trans w.only, w.org.trans horg, ?_, ?_, ?_, ?_⟩
      · rw [hloop, w.loop, hpl]
      · rw [w.cursor, horg, hcx, hcy]
        rw [show u.cfg = s.cfg by rw [hu.same]]
        by_cases hA : ch = s.cfg.newline <;> simp [walk, hA]
      · rw [w.ptr, hptr, if_neg (List.cons_ne_nil ch chs), hpl]
        by_cases h : chs = []
        · subst h; simp
        · rw [if_neg h]
      · obtain ⟨es, he, hpe, hfe⟩ := hpix
        obtain ⟨es', he', hpe', hfe'⟩ := w.pixels
        refine ⟨es ++ es', by rw [he', he, List.reverse_append, List.append_assoc], ?_, fun c d => ?_⟩
        · rw [pixels_append, hpe, hpe', hcfg, hfg, hbg, horg, hcx, hcy]
          by_cases hA : ch = s.cfg.newline <;> simp [stringPixels, walk, hA]
        · obtain ⟨c', d', h2⟩ := framedBytes_append c d es es'
          rw [h2, hfe, hfe', hcfg, pixels_append, pixelsFrames, pixelsFrames, pixelsFrames, List.flatMap_append]
      · obtain ⟨m, hm, hme⟩ := henv
        obtain ⟨n, hn, hne⟩ := w.env
        exact ⟨m + n, by rw [hlen]; omega, by rw [hne, hme, List.drop_drop]⟩
    obtain ⟨h0, hon⟩ := hon
    by_cases hA : ch = s.cfg.newline
    · refine go (newLine { s with ras.txtPtr := BitVec.ofNat 8 p }) (h1.trans (.newLine _)) rfl rfl ?_
        ⟨0, by omega, rfl⟩ ⟨[], rfl, ?_, fun _ _ => rfl⟩ ?_
      · simp [walk, newLine, Config.advY, hA]
      · simp [stringPixels, pixels, hA]
      · rw [indices_cons hlt]
        simp only [drawText, hch']
        rw [classify_newline h0 hA]
    · obtain ⟨k, hk⟩ := glyphIndex?_of_drawable (hon.resolve_left hA)
      obtain ⟨u, hu⟩ := drawGlyph_drawn s.ras.curX s.ras.curY ch k { s with ras.txtPtr := BitVec.ofNat 8 p } hk
        (hr.mono (by rw [hlen]; omega))
      have hus := hu.only.same
      refine go (advance u) (h1.trans (hu.only.toText.trans (.advance u))) ?_ ?_ ?_ hu.env ?_ ?_
      · rw [hus]; rfl
      · rw [hus]; rfl
      · rw [hus]; simp [walk, advance, Config.advX, hA]
      · obtain ⟨es, he, hpe, hfe, -⟩ := hu.trace
        exact ⟨es, he, by rw [hpe]; simp [stringPixels, glyphPixels, hA, hk], fun c d => by rw [hfe, hpe]⟩
      · rw [indices_cons hlt]
        simp only [drawText, hch']
        rw [classify_other h0 hA]
        simp only [hu.go, Flow.bind_go]

end Sys2Proof.Machine
end

