-- ==== Sys2Proof/Laws/Exec.lean ====
section
/-! SUPPORT. What the commands do, said once for each shape: every command answers a next state; the six I2C commands end in
one of three ways (rule R132); and what a command of each family may change. -/

namespace Sys2Proof.Machine

/-- Every command answers a next state: the faults of rule R270 and the hang are effects. -/
theorem exec_next (i : Instr) (s : State) : ∃ t, exec i s = .next t := by
  cases i <;> exact ⟨_, rfl⟩

/-- The common scheme of the I2C commands (rule R132): a forbidden command faults with nothing changed; a legal one
completes with its event, its registers and its pins together, or hangs with its pins held. -/
theorem i2cCommand_cases (legal : Bool) (steps : EnvAnswer → List I2cPinOp) (event : EnvAnswer → Event)
    (after : EnvAnswer → I2cUnit → I2cUnit) (s : State) :
    (legal = false ∧ i2cCommand legal steps event after s = .faulted .i2cProto s) ∨
    (legal = true ∧ s.answer.done = true ∧ i2cCommand legal steps event after s = .go { s with
      i2c := after s.answer { s.i2c with pins := s.i2c.pins.run (steps s.answer) },
      trRev := event s.answer :: s.trRev, env := s.env.tail }) ∨
    (legal = true ∧ s.answer.done = false ∧ i2cCommand legal steps event after s = .hung { s.nextAnswer with
      i2c.pins := s.i2c.pins.held (steps s.answer) s.answer.stall }) := by
  cases hl : legal
  · exact .inl ⟨rfl, rfl⟩
  · cases hd : s.answer.done
    · exact .inr (.inr ⟨rfl, rfl, by simp [i2cCommand, i2cAwait, hd]⟩)
    · refine .inr (.inl ⟨rfl, rfl, ?_⟩)
      simp only [i2cCommand, i2cAwait, hd, if_true]
      rfl

/-- What an I2C command may change: unit U1 but for its divisor, the trace, the answers, the front end. -/
structure I2cOnly (s t : State) : Prop where
  same : t = { s with i2c := { t.i2c with div := s.i2c.div }, trRev := t.trRev, env := t.env,
                      fault := t.fault, busy := t.busy, rsp := t.rsp }

theorem I2cUnit.div_self {u : I2cUnit} {d : Half} (h : u.div = d) : { u with div := d } = u := by subst h; rfl

theorem i2cCommand_only (rsp : State → RspWord) (legal : Bool) (steps : EnvAnswer → List I2cPinOp)
    (event : EnvAnswer → Event) (after : EnvAnswer → I2cUnit → I2cUnit) (hdiv : ∀ a u, (after a u).div = u.div)
    (s : State) : I2cOnly s (conclude rsp (i2cCommand legal steps event after s)) := by
  rcases i2cCommand_cases legal steps event after s with ⟨-, h⟩ | ⟨-, -, h⟩ | ⟨-, -, h⟩ <;> rw [h]
  · exact ⟨rfl⟩
  · have hu := I2cUnit.div_self (hdiv s.answer { s.i2c with pins := s.i2c.pins.run (steps s.answer) })
    refine ⟨?_⟩
    simp only [conclude, State.respond]
    rw [hu]
  · exact ⟨rfl⟩

theorem afterSend_div (u : I2cUnit) (b : Byte) (a : Bit) : (u.afterSend b a).div = u.div := by
  unfold I2cUnit.afterSend; split <;> rfl

/-- The end of a display course, whichever way it ends, for DRAW_STRING too. -/
theorem TextOnly.conclude {s : State} {f : Flow} (h : TextOnly s f.state) (rsp : State → RspWord) :
    ∃ t, TextOnly s t ∧ Machine.conclude rsp f = { t with
      fault := (Machine.conclude rsp f).fault, busy := (Machine.conclude rsp f).busy,
      rsp := (Machine.conclude rsp f).rsp } :=
  ⟨_, h, conclude_frame rsp f⟩

/-- What every part of every command keeps, and that it only adds events. -/
structure Kept (s t : State) : Prop where
  fault  : t.fault = s.fault
  cfg    : t.cfg = s.cfg
  epoch  : t.epoch = s.epoch
  inputs : t.inputs = s.inputs
  events : ∃ es, t.trRev = es ++ s.trRev

theorem Kept.refl (s : State) : Kept s s := ⟨rfl, rfl, rfl, rfl, [], rfl⟩

/-- DRAW_STRING, whichever way it ends. -/
theorem TextOnly.drawString (x y : Half) (p : Byte) (s : State) :
    TextOnly s (Machine.drawText (textIndices p)
      { s with ras.curX := x, ras.curY := y, ras.orgX := x, ras.txtPtr := p }).state :=
  (TextOnly.ofRas s { s.ras with curX := x, curY := y, orgX := x, txtPtr := p } rfl rfl).trans (.drawText _ _)

theorem TextOnly.kept {s t : State} (h : TextOnly s t) : Kept s t :=
  ⟨by rw [h.same], by rw [h.same], by rw [h.same], by rw [h.same], h.events.imp fun _ h => h.1⟩

theorem DisplayOnly.kept {s t : State} (h : DisplayOnly s t) : Kept s t := h.toText.kept

theorem i2cCommand_kept (legal : Bool) (steps : EnvAnswer → List I2cPinOp) (event : EnvAnswer → Event)
    (after : EnvAnswer → I2cUnit → I2cUnit) (s : State) : Kept s (i2cCommand legal steps event after s).state := by
  rcases i2cCommand_cases legal steps event after s with ⟨-, h⟩ | ⟨-, -, h⟩ | ⟨-, -, h⟩ <;> rw [h]
  · exact .refl s
  · exact ⟨rfl, rfl, rfl, rfl, [_], rfl⟩
  · exact ⟨rfl, rfl, rfl, rfl, [], rfl⟩

/-- Every command is a course of parts that keep FAULT and the model's own fields, ended by an OK response (rule R111), a
fault or a hang. -/
theorem exec_course (i : Instr) (s : State) : ∃ rsp f, exec i s = .next (conclude rsp f) ∧
    (∀ u, ∃ a d, rsp u = okResponse a d) ∧ Kept s f.state := by
  have ok : ∀ (rsp : State → RspWord) (t : State), (∃ a d, rsp t = okResponse a d) → Kept s t →
      ∃ rsp' f, (.next (t.respond (rsp t)) : Host.Outcome State Fault Refusal) = .next (conclude rsp' f) ∧
        (∀ u, ∃ a d, rsp' u = okResponse a d) ∧ Kept s f.state :=
    fun rsp t h k => ⟨fun _ => rsp t, .go t, rfl, fun _ => h, k⟩
  have bad : ∀ c : FaultCode, ∃ rsp f, (.next (s.raise c) : Host.Outcome State Fault Refusal) = .next (conclude rsp f) ∧
      (∀ u, ∃ a d, rsp u = okResponse a d) ∧ Kept s f.state :=
    fun c => ⟨fun _ => okResponse 0#1 0#16, .faulted c s, rfl, fun _ => ⟨_, _, rfl⟩, .refl s⟩
  cases i
  case nop => exact ok (fun _ => _) _ ⟨_, _, rfl⟩ (.refl s)
  case rdReg r =>
    simp only [exec, execRdReg]
    split
    · exact bad _
    · exact ok (fun _ => _) _ ⟨_, _, rfl⟩ (.refl s)
  case wrReg r v =>
    simp only [exec, execWrReg]
    split
    · exact bad _
    · rename_i t h
      refine ok (fun _ => _) _ ⟨_, _, rfl⟩ ?_
      unfold State.writeReg at h
      repeat' split at h
      all_goals first
        | (injection h with h; subst h; exact ⟨rfl, rfl, rfl, rfl, [], rfl⟩)
        | cases h
  case txtWr a v => exact ok (fun _ => _) _ ⟨_, _, rfl⟩ ⟨rfl, rfl, rfl, rfl, [], rfl⟩
  case txtRd a => exact ok (fun _ => _) _ ⟨_, _, rfl⟩ (.refl s)
  case i2cStart => exact ⟨_, _, rfl, fun _ => ⟨_, _, rfl⟩, i2cCommand_kept _ _ _ _ s⟩
  case i2cRestart => exact ⟨_, _, rfl, fun _ => ⟨_, _, rfl⟩, i2cCommand_kept _ _ _ _ s⟩
  case i2cSend b => exact ⟨_, _, rfl, fun _ => ⟨_, _, rfl⟩, i2cCommand_kept _ _ _ _ s⟩
  case i2cRecv => exact ⟨_, _, rfl, fun _ => ⟨_, _, rfl⟩, i2cCommand_kept _ _ _ _ s⟩
  case i2cAck l => exact ⟨_, _, rfl, fun _ => ⟨_, _, rfl⟩, i2cCommand_kept _ _ _ _ s⟩
  case i2cStop => exact ⟨_, _, rfl, fun _ => ⟨_, _, rfl⟩, i2cCommand_kept _ _ _ _ s⟩
  case spiXfer b => exact ⟨_, _, rfl, fun _ => ⟨_, _, rfl⟩, (DisplayOnly.transfer b s).kept⟩
  case spiCs l => exact ok (fun _ => _) _ ⟨_, _, rfl⟩ (DisplayOnly.assignCs l s).kept
  case spiDc l => exact ok (fun _ => _) _ ⟨_, _, rfl⟩ (DisplayOnly.assignDc l s).kept
  case lcdCmd b => exact ⟨_, _, rfl, fun _ => ⟨_, _, rfl⟩, (DisplayOnly.frame _ b s).kept⟩
  case lcdData b => exact ⟨_, _, rfl, fun _ => ⟨_, _, rfl⟩, (DisplayOnly.frame _ b s).kept⟩
  case lcdData16 h => exact ⟨_, _, rfl, fun _ => ⟨_, _, rfl⟩, (DisplayOnly.lcdData16 h s).kept⟩
  case setWindow x0 y0 x1 y1 =>
    exact ⟨_, _, rfl, fun _ => ⟨_, _, rfl⟩, (DisplayOnly.setWindow x0 y0 x1 y1 s).kept⟩
  case writePixel x y c => exact ⟨_, _, rfl, fun _ => ⟨_, _, rfl⟩, (DisplayOnly.writePixel x y c s).kept⟩
  case clear h =>
    refine ⟨_, _, rfl, fun _ => ⟨_, _, rfl⟩, ?_⟩
    rw [clear_eq]
    exact (DisplayOnly.frames _ s).kept
  case drawChar x y c => exact ⟨_, _, rfl, fun _ => ⟨_, _, rfl⟩, (DisplayOnly.drawGlyph x y c s).kept⟩
  case drawString x y p =>
    exact ⟨_, _, rfl, fun _ => ⟨_, _, rfl⟩, (TextOnly.drawString x y p s).kept⟩

end Sys2Proof.Machine
end

