-- ==== Sys2Proof/Laws/Step.lean ====
section
/-! SUPPORT. What a step can do, said once. -/

namespace Sys2Proof.Machine

/-- A step does one of five things (rules R281, R282, R284, R300): it resets; it waits, or does not accept; it refuses,
blocked; it faults an illegal word; it executes a command. -/
theorem step_cases (s : State) :
    (s.inputs.head? = some .reset ∧ step s = .next s.nextInput.applyReset) ∨
    (s.inputs.head? ≠ some .reset ∧ (s.inputs.head? = none ∨ s.busy = 1#1) ∧ step s = .next s.nextInput.noResponse) ∨
    (∃ w, s.inputs.head? = some (.command w) ∧ s.busy = 0#1 ∧ s.fault ≠ 0#4 ∧ step s = .next s.nextInput.refuseBlocked) ∨
    (∃ w e, s.inputs.head? = some (.command w) ∧ s.busy = 0#1 ∧ s.fault = 0#4 ∧ decode w = .error e ∧
      step s = .next (s.nextInput.accept.raise .illegalCmd)) ∨
    (∃ w i, s.inputs.head? = some (.command w) ∧ s.busy = 0#1 ∧ s.fault = 0#4 ∧ decode w = .ok i ∧
      step s = exec i s.nextInput.accept) := by
  unfold step react
  match h : s.inputs.head? with
  | none => exact .inr (.inl ⟨by simp, .inl rfl, rfl⟩)
  | some .reset => exact .inl ⟨rfl, rfl⟩
  | some (.command w) =>
    right
    by_cases hb : s.busy = 1#1
    · exact .inl ⟨by simp, .inr hb, by simp [present, hb]⟩
    · have hb' : s.busy = 0#1 := by
        generalize s.busy = b at hb; revert b; decide
      right
      by_cases hf : s.fault = 0#4
      · right
        match hd : decode w with
        | .error e => exact .inl ⟨w, e, rfl, hb', hf, hd, by simp [present, hb', hf, hd]⟩
        | .ok i => exact .inr ⟨w, i, rfl, hb', hf, hd, by simp [present, hb', hf, hd]⟩
      · exact .inl ⟨w, rfl, hb', hf, by simp [present, hb', hf]⟩

end Sys2Proof.Machine
end

