-- ==== Sys2Proof/Tests/Slice0.lean ====
section
/-! SUPPORT. The model's own tests: words written out from rules R102 and R104, and one-step results, all from
95_test_vectors.md (the vector's id stands with each) or worked out by hand from the rule named; and for each obligation
with hypotheses a witness that they can be met. -/

namespace Sys2Proof.Tests

open Sys2Proof Sys2Proof.Machine Sys2Proof.Claims

/-! ### The test environment and the test parameters (95_test_vectors.md section 0) -/

/-- An answer that lets the operation complete and acknowledges: data `d`, MISO `m`. -/
def ok (d m : Byte) : EnvAnswer := ⟨true, 0#1, d, m, 0, []⟩

/-- An answer that lets the operation complete, with no acknowledge. -/
def silent : EnvAnswer := ⟨true, 1#1, 0xFF#8, 0x00#8, 0, []⟩

/-- The operation never completes. -/
def never : EnvAnswer := ⟨false, 0#1, 0x00#8, 0x00#8, 0, []⟩

/-- The glyph table of the vectors: '!', 'A', 'B', and blank glyphs elsewhere. -/
def glyphs : Glyphs := Vector.ofFn fun k =>
  if k.val = 1 then #v[0x00#8, 0x00#8, 0x5F#8, 0x00#8, 0x00#8]
  else if k.val = 33 then #v[0x7E#8, 0x11#8, 0x11#8, 0x11#8, 0x7E#8]
  else if k.val = 34 then #v[0x7F#8, 0x49#8, 0x49#8, 0x49#8, 0x36#8]
  else #v[0x00#8, 0x00#8, 0x00#8, 0x00#8, 0x00#8]

/-- The parameters of the vectors. -/
def params : Params := ⟨glyphs, 0x2A#8, 0x2B#8, 0x2C#8, true, 127#16, 127#16, 0x0A#8, 0#2, true⟩

/-- The reset state with those parameters and the given answers to come. -/
def start (env : List EnvAnswer) : State := { State.reset with cfg := params, env := env }

/-- The same with unit U1 at a row of the state table (rule R131), its lines at rest (rule R150). -/
def row (st : I2cSt) (dir ap : Bit) (env : List EnvAnswer) : State :=
  { start env with i2c := { I2cUnit.reset with st := st, dir := dir, ap := ap, pins := ⟨0x00#8, 0#4, 0#1, 0#1⟩ } }

/-- The state after a command that answers a next state. -/
def after (i : Instr) (s : State) : State :=
  match exec i s with
  | .next t => t
  | .fault _ => s
  | .refused _ => s

/-- The state after one step. -/
def stepped (s : State) : State :=
  match step s with
  | .next t => t
  | .fault _ => s
  | .refused _ => s

/-! ### WellFormed (rules R252, R253, R273) -/

theorem test_wf_rd_reg_8 : (Instr.rdReg 8).wellFormed = true := by decide
theorem test_ill_rd_reg_9 : (Instr.rdReg 9).wellFormed = false := by decide
theorem test_wf_wr_reg_4 : (Instr.wrReg 4 0).wellFormed = true := by decide
theorem test_ill_wr_reg_0 : (Instr.wrReg 0 1).wellFormed = false := by decide
theorem test_ill_wr_reg_5 : (Instr.wrReg 5 1).wellFormed = false := by decide
theorem test_ill_wr_reg_9 : (Instr.wrReg 9 1).wellFormed = false := by decide
theorem test_wf_draw_char_ends : (Instr.drawChar 0 0 32).wellFormed = true ∧ (Instr.drawChar 0 0 126).wellFormed = true := by
  decide
theorem test_ill_draw_char_31 : (Instr.drawChar 0 0 31).wellFormed = false := by decide
theorem test_ill_draw_char_127 : (Instr.drawChar 0 0 127).wellFormed = false := by decide

/-! ### Decoding, one word of every command (V-ENC) -/

theorem test_decode_nop : decode 0x000000000000000000#72 = .ok .nop := by decide
theorem test_decode_rd_reg : decode 0x010000000000080000#72 = .ok (.rdReg 8) := by decide
theorem test_decode_wr_reg : decode 0x02000000000003F800#72 = .ok (.wrReg 3 0xF800) := by decide
theorem test_decode_txt_wr : decode 0x03000000000000FF00#72 = .ok (.txtWr 255 0) := by decide
theorem test_decode_txt_rd : decode 0x040000000000000700#72 = .ok (.txtRd 7) := by decide
theorem test_decode_i2c_start : decode 0x100000000000000000#72 = .ok .i2cStart := by decide
theorem test_decode_i2c_restart : decode 0x110000000000000000#72 = .ok .i2cRestart := by decide
theorem test_decode_i2c_send : decode 0x1200000000000000D6#72 = .ok (.i2cSend 0xD6) := by decide
theorem test_decode_i2c_recv : decode 0x130000000000000000#72 = .ok .i2cRecv := by decide
theorem test_decode_i2c_ack : decode 0x140000000000000001#72 = .ok (.i2cAck 1) := by decide
theorem test_decode_i2c_stop : decode 0x150000000000000000#72 = .ok .i2cStop := by decide
theorem test_decode_spi_xfer : decode 0x20000000000000002C#72 = .ok (.spiXfer 0x2C) := by decide
theorem test_decode_spi_cs : decode 0x210000000000000000#72 = .ok (.spiCs 0) := by decide
theorem test_decode_spi_dc : decode 0x220000000000000001#72 = .ok (.spiDc 1) := by decide
theorem test_decode_lcd_cmd : decode 0x230000000000000011#72 = .ok (.lcdCmd 0x11) := by decide
theorem test_decode_lcd_data : decode 0x240000000000000005#72 = .ok (.lcdData 0x05) := by decide
theorem test_decode_lcd_data16 : decode 0x25000000000000F800#72 = .ok (.lcdData16 0xF800) := by decide
theorem test_decode_set_window : decode 0x2600C8012C0005FFFF#72 = .ok (.setWindow 200 300 5 65535) := by decide
theorem test_decode_write_pixel : decode 0x270000000A0014FFFF#72 = .ok (.writePixel 10 20 0xFFFF) := by decide
theorem test_decode_clear : decode 0x2800000000000007E0#72 = .ok (.clear 0x07E0) := by decide
theorem test_decode_draw_char : decode 0x30000000007E007C21#72 = .ok (.drawChar 126 124 0x21) := by decide
theorem test_decode_draw_string : decode 0x31000000000A001400#72 = .ok (.drawString 10 20 0) := by decide

theorem test_decode_set_window_all_ones :
    decode 0x26FFFFFFFFFFFFFFFF#72 = .ok (.setWindow 0xFFFF 0xFFFF 0xFFFF 0xFFFF) := by decide
theorem test_encode_draw_char : encode (.drawChar 10 20 0x41) = 0x30000000000A001441#72 := by decide
theorem test_encode_wr_reg : encode (.wrReg 3 0xF800) = 0x02000000000003F800#72 := by decide

/-! ### Illegal words (V-ILL-1 to V-ILL-19) -/

theorem test_unknown_opcodes :
    ([0xFF0000000000000000#72, 0x050000000000000000#72, 0x160000000000000000#72, 0x290000000000000000#72, 0x320000000000000000#72].all
      fun w => decode w == .error .unknownOpcode) = true := by decide
theorem test_reserved_bits :
    ([0x000000000000000001#72, 0x108000000000000000#72, 0x1200000000000001D6#72, 0x140000000000000002#72,
      0x210000000000000003#72, 0x25000000000001F800#72, 0x270001000000000000#72, 0x300000010000000041#72,
      0x310000010000000000#72, 0x010000000000000001#72, 0x010000000001000000#72, 0x040000000000000701#72,
      0x030000000000010000#72, 0x020000000001030000#72].all
      fun w => decode w == .error .reservedBit) = true := by decide

/-! ### Assembler and pseudo-instructions (V-ENC-22, V-ENC-26 to V-ENC-28) -/

theorem test_assemble_draw_char : assemble "DRAW_CHAR 10, 20, 'A'" = some [0x30000000000A001441#72] := by decide
theorem test_assemble_register_name : assemble "WR_REG FG, 0xF800 ; red" = some [0x02000000000003F800#72] := by decide
theorem test_assemble_i2c_addr : assemble "I2C_ADDR 0x6B, 1" = some [0x1200000000000000D7#72] := by decide
theorem test_assemble_txt_str : assemble "TXT_STR 0, \"A\\nB\"" =
    some [0x030000000000000041#72, 0x03000000000000010A#72, 0x030000000000000242#72, 0x030000000000000300#72] := by decide

/-- An operand of another kind than its field's, and a character that is no ASCII code (log 18). -/
theorem test_assemble_refused : assemble "CLEAR FG" = none ∧ assemble "CLEAR 'A'" = none ∧ assemble "TXT_WR 0, FG" = none ∧
    assemble "TXT_STR 0, \"é\"" = none := by decide
/-- The apostrophe inside double quotes is a character like any other (log 18). -/
theorem test_assemble_apostrophe : assemble "TXT_STR 0, \"' ;,\" ; x" =
    some [0x030000000000000027#72, 0x030000000000000120#72, 0x03000000000000023B#72, 0x03000000000000032C#72,
      0x030000000000000400#72] := by decide

/-! ### System commands (V-SYS, V-ILL-20 to V-ILL-27) -/

theorem test_nop : after .nop (start []) = { start [] with rsp := some 0x000000#24 } := by decide
theorem test_rd_reg_status : (after (.rdReg 0) (start [])).rsp = some 0x0000C0#24 := by decide
theorem test_rd_reg_reserved : (after (.rdReg 9) (start [])).rsp = some 0x100000#24 ∧
    (after (.rdReg 9) (start [])).fault = 1#4 := by decide
theorem test_wr_reg_fg : (after (.wrReg 3 0xF800) (start [])).ras.fg = 0xF800#16 ∧
    (after (.rdReg 3) (after (.wrReg 3 0xF800) (start []))).rsp = some 0x00F800#24 := by decide
theorem test_wr_reg_read_only : (after (.wrReg 5 1) (start [])).rsp = some 0x100000#24 ∧
    (after (.wrReg 5 1) (start [])).ras.curX = 0x0000#16 := by decide
theorem test_txt_wr_last : (after (.txtWr 255 0x7E) (start [])).text = [(255, 0x7E#8)] := by decide
theorem test_txt_rd_after_write : (after (.txtRd 0) (after (.txtWr 0 0x41) (start []))).rsp = some 0x000041#24 := by decide
/-- V-SYS-23: an unwritten byte reads as some byte, the same twice, whatever it is. -/
theorem test_txt_rd_unwritten : (after (.txtRd 9) (start [])).rsp = (after (.txtRd 9) (after (.txtRd 9) (start []))).rsp := rfl

/-! ### I2C (V-I2C) -/

theorem test_i2c_start : (after .i2cStart (start [ok 0 0])).trace = [.iStart] ∧
    (after .i2cStart (start [ok 0 0])).status = 0x00C1#16 := by decide
/-- V-FLT-3: a second START faults with the transaction left open. -/
theorem test_i2c_start_twice : (after .i2cStart (row .started 0 0 [ok 0 0])).rsp = some 0x200000#24 ∧
    (after .i2cStart (row .started 0 0 [ok 0 0])).status = 0x00C1#16 := by decide
theorem test_i2c_restart : (after .i2cRestart (row .transferring 1 0 [ok 0 0])).status = 0x00C1#16 ∧
    (after .i2cRestart (row .transferring 1 0 [ok 0 0])).trace = [.iRestart] := by decide
theorem test_i2c_restart_started : (after .i2cRestart (row .started 0 0 [ok 0 0])).rsp = some 0x200000#24 := by decide
/-- V-I2C-2: a missing acknowledge is no fault, and the direction is latched all the same. -/
theorem test_i2c_send_silent : (after (.i2cSend 0xD7) (row .started 0 0 [silent])).rsp = some 0x000000#24 ∧
    (after (.i2cSend 0xD7) (row .started 0 0 [silent])).status = 0x00EA#16 ∧
    (after (.i2cSend 0xD7) (row .started 0 0 [silent])).trace = [.iTx 0xD7 1] := by decide
theorem test_i2c_send_data : (after (.i2cSend 0xA5) (row .addressed 0 0 [ok 0 0])).rsp = some 0x010000#24 ∧
    (after (.i2cSend 0xA5) (row .addressed 0 0 [ok 0 0])).status = 0x00C3#16 := by decide
theorem test_i2c_recv : (after .i2cRecv (row .addressed 1 0 [ok 0x3C 0])).rsp = some 0x00003C#24 ∧
    (after .i2cRecv (row .addressed 1 0 [ok 0x3C 0])).status = 0x00DB#16 := by decide
theorem test_i2c_recv_owed : (after .i2cRecv (row .transferring 1 1 [ok 0 0])).rsp = some 0x200000#24 := by decide
theorem test_i2c_ack : (after (.i2cAck 1) (row .transferring 1 1 [ok 0 0])).trace = [.iMack 1] ∧
    (after (.i2cAck 1) (row .transferring 1 1 [ok 0 0])).status = 0x00CB#16 := by decide
theorem test_i2c_ack_not_owed : (after (.i2cAck 0) (row .transferring 1 0 [ok 0 0])).rsp = some 0x200000#24 := by decide
theorem test_i2c_stop : (after .i2cStop (row .transferring 0 0 [ok 0 0])).status = 0x00C4#16 ∧
    (after .i2cStop (row .transferring 0 0 [ok 0 0])).trace = [.iStop] := by decide
/-- V-FLT-4: the event is appended only at completion. -/
theorem test_i2c_send_hangs : (after (.i2cSend 0xD6) (row .started 0 0 [never])).busy = 1#1 ∧
    (after (.i2cSend 0xD6) (row .started 0 0 [never])).rsp = none ∧
    (after (.i2cSend 0xD6) (row .started 0 0 [never])).trace = [] ∧
    (after (.i2cSend 0xD6) (row .started 0 0 [never])).i2c.st = .started := by decide
/-- V-I2C-10: SDA on the nine rising edges of SCL, bit 7 first, the ninth pulled low by the slave. -/
theorem test_i2c_send_bits :
    (I2cLines.samples (I2cPins.lines ⟨0, 0, 0, 0⟩) (sendSteps 0xD6 0)).filterMap
      (fun c => if c.scl = 1#1 then some c.sda else none) = [1, 1, 1, 1, 0, 0, 1, 1, 0, 0, 1, 1, 1, 1, 0, 0, 0, 0, 0] := by
  decide

/-! ### SPI (V-SPI) -/

theorem test_spi_cs : (after (.spiCs 0) (start [])).status = 0x0080#16 ∧ (after (.spiCs 0) (start [])).trace = [.sCs 0] := by
  decide
theorem test_spi_dc : (after (.spiDc 0) (start [])).status = 0x0040#16 ∧ (after (.spiDc 0) (start [])).trace = [.sDc 0] := by
  decide
theorem test_spi_xfer : (after (.spiXfer 0xFF) (start [ok 0 0xA7])).rsp = some 0x0000A7#24 ∧
    (after (.spiXfer 0xFF) (start [ok 0 0xA7])).trace = [.sXfer 0xFF 0xA7] := by decide
theorem test_spi_xfer_hangs : after (.spiXfer 0x55) (start [never]) = { start [] with busy := 1#1 } := by decide
/-- V-SPI-7. -/
theorem test_spi_bits :
    mosiAtEdges params 0#1 ((SpiPins.atReset params).lines.seen params (spiSteps params 0x2C 0x5A)) =
      [0, 0, 1, 0, 1, 1, 0, 0] ∧
    ((SpiPins.atReset params).transfer params 0x2C 0x5A).shift = 0x5A#8 := by decide

/-! ### Display framing (V-DSP) -/

theorem test_lcd_cmd : (after (.lcdCmd 0x11) (start [ok 0 0x99])).trace = [.sDc 0, .sCs 0, .sXfer 0x11 0x99, .sCs 1] ∧
    (after (.lcdCmd 0x11) (start [ok 0 0x99])).status = 0x0040#16 := by decide
/-- V-DSP-10. -/
theorem test_lcd_cmd_hangs : (after (.lcdCmd 0x11) (start [never])).trace = [.sDc 0, .sCs 0] ∧
    (after (.lcdCmd 0x11) (start [never])).status = 0x0000#16 := by decide
theorem test_lcd_data : (after (.lcdData 0x05) (start [ok 0 0])).trace = [.sDc 1, .sCs 0, .sXfer 0x05 0x00, .sCs 1] := by decide
theorem test_lcd_data16 : framedBytes 1 1 (after (.lcdData16 0xF800) (start [ok 0 0x11, ok 0 0x22])).trace = [(1, 0xF8), (1, 0x00)] ∧
    (after (.lcdData16 0xF800) (start [ok 0 0x11, ok 0 0x22])).spi.rx = 0x22#8 := by decide
theorem test_set_window : framedBytes 1 1 (after (.setWindow 200 300 5 0xFFFF) (start (List.replicate 11 (ok 0 0)))).trace =
    [(0, 0x2A), (1, 0x00), (1, 0xC8), (1, 0x00), (1, 0x05), (0, 0x2B), (1, 0x01), (1, 0x2C), (1, 0xFF), (1, 0xFF),
     (0, 0x2C)] := by decide
/-- V-DSP-4b: without WINDOW_RAMWR. -/
theorem test_set_window_no_ramwr :
    (after (.setWindow 10 20 11 21)
      { start (List.replicate 11 (ok 0 0)) with cfg := { params with windowRamwr := false } }).trace.length = 40 := by decide
/-- V-DSP-6: the end coordinates wrap. -/
theorem test_write_pixel_wraps :
    framedBytes 1 1 (after (.writePixel 0xFFFF 0xFFFF 0x1234) (start (List.replicate 13 (ok 0 0)))).trace =
    [(0, 0x2A), (1, 0xFF), (1, 0xFF), (1, 0x00), (1, 0x00), (0, 0x2B), (1, 0xFF), (1, 0xFF), (1, 0x00), (1, 0x00),
     (0, 0x2C), (1, 0x12), (1, 0x34)] := by decide
/-- V-DSP-5 under the display model, for either reading of the window end. -/
theorem test_write_pixel_shown :
    ([true, false].all fun incl =>
      (Display.show params incl (after (.writePixel 10 20 0xFFFF) (start (List.replicate 13 (ok 0 0)))).trace).cells ==
        [(10, 20, 0xFFFF#16)]) = true := by decide
/-- Data nothing awaits leaves the display open (93_implementation_defined.md X3; log 19), and a byte sent with CS_N = 1
reaches no display. -/
theorem test_display_open : (Display.show params true [.sDc 1, .sCs 0, .sXfer 3 0, .sCs 1]).known = false ∧
    (Display.show params true [.sDc 1, .sXfer 3 0]).known = true ∧
    (Display.show params true ([.sDc 0, .sCs 0, .sXfer 0x2C 0, .sDc 1, .sXfer 0xF8 0, .sXfer 0 0])).known = false := by decide
/-- V-DSP-8 up to its second colour byte, where the environment stops answering. -/
theorem test_clear_begins :
    framedBytes 1 1 (after (.clear 0x07E0) (start (List.replicate 13 (ok 0 0) ++ [never]))).trace =
    [(0, 0x2A), (1, 0x00), (1, 0x00), (1, 0x00), (1, 0x7F), (0, 0x2B), (1, 0x00), (1, 0x00), (1, 0x00), (1, 0x7F),
     (0, 0x2C), (1, 0x07), (1, 0xE0)] := by decide
theorem test_clear_length : (Machine.clearFrames params 0x07E0).length = 32779 := length_clearFrames params 0x07E0

/-! ### Rasterizer (V-RAS) -/

/-- V-RAS-6: one pixel of the character on the surface bound, its glyph bit unset. -/
theorem test_draw_char_clipped :
    pixels (after (.drawChar 128 128 0x41) (start (List.replicate 13 (ok 0 0)))).trace = [(128, 128, 0)] := by decide
/-- V-RAS-8: no wrap at the top of the coordinate range. -/
theorem test_draw_char_no_wrap : (after (.drawChar 0xFFFE 0 0x41) (start [])).trace = [] ∧
    (after (.drawChar 0xFFFE 0 0x41) (start [])).rsp = some 0x000000#24 := by decide
/-- V-RAS-9b, 9c, 9d. -/
theorem test_draw_char_range : ([0x1F, 0x7F, 0x00, 0x0A, 0xFF].all fun c =>
    after (.drawChar 0 0 c) (start []) == { start [] with fault := 3#4, rsp := some 0x300000#24 }) = true := by decide
/-- V-RAS-22: the 21st transfer never completes. -/
theorem test_draw_char_hangs :
    (after (.drawChar 0 0 0x21) (start (List.replicate 20 (ok 0 0) ++ [never]))).trace.length = 84 ∧
    (after (.drawChar 0 0 0x21) (start (List.replicate 20 (ok 0 0) ++ [never]))).status = 0x0080#16 := by decide

/-- The start state with TEXT holding the bytes from an index on. -/
def withText (p : Nat) (bytes : List Byte) (env : List EnvAnswer) : State :=
  { start env with text := (List.range' p bytes.length).zip bytes }

/-- V-RAS-12: three newlines. -/
theorem test_draw_string_newlines :
    (after (.drawString 50 60 0) (withText 0 [0x0A, 0x0A, 0x0A, 0x00] [])).ras.curY = 90#16 ∧
    (after (.drawString 50 60 0) (withText 0 [0x0A, 0x0A, 0x0A, 0x00] [])).trace = [] := by decide
/-- V-RAS-18: a newline at the last index, then the overrun. -/
theorem test_draw_string_overrun :
    (after (.drawString 3 4 255) (withText 255 [0x0A] [])).rsp = some 0x400000#24 ∧
    (after (.drawString 3 4 255) (withText 255 [0x0A] [])).ras.curY = 14#16 := by decide
/-- V-RAS-20: the cursor wraps, and nothing is drawn far off the bound. -/
theorem test_draw_string_wraps :
    (after (.drawString 0xFFFC 0xFFF8 0) (withText 0 [0x41, 0x00] [])).ras.curX = 2#16 ∧
    (after (.drawString 0xFFFC 0xFFF8 0) (withText 0 [0x41, 0x00] [])).trace = [] := by decide
/-- V-RAS-16 beyond the bound: GLYPH_RANGE at index 255 comes before the overrun. -/
theorem test_draw_string_range_last :
    (after (.drawString 0 200 254) (withText 254 [0x21, 0x80] [])).rsp = some 0x300000#24 ∧
    (after (.drawString 0 200 254) (withText 254 [0x21, 0x80] [])).ras.curX = 6#16 := by decide

/-! ### Faults, the blocked state, hang, reset (V-FLT, V-RST) -/

/-- V-FLT-1: the blocked response does not depend on the word, not even on whether it decodes. -/
theorem test_blocked : ([0x000000000000000000#72, 0x010000000000000000#72, 0xFF0000000000000000#72].all fun w =>
    (stepped ({ start [] with fault := 2#4 }.presentNext w)).rsp == some 0xF00002#24) = true := by decide
theorem test_illegal_word : stepped ((start []).presentNext 0xFF0000000000000000#72) =
    { start [] with fault := 1#4, rsp := some 0x100000#24 } := by decide
/-- V-FLT-6: the SEND that hangs has used its answer up, so the operation after reset meets the next one. -/
theorem test_hang_uses_its_answer :
    (after (.i2cSend 0xD6) (row .started 0 0 [never, ok 0 0])).env = [ok 0 0] ∧
    (stepped { start [ok 0 0] with busy := 1#1, inputs := [.reset] }).answer.done = true := by decide
/-- Reset ends a hang; a hung block takes no word. -/
theorem test_hung_takes_no_word : stepped ({ start [] with busy := 1#1 }.presentNext 0#72) = { start [] with busy := 1#1 } := by
  decide
theorem test_reset_ends_hang :
    (stepped { row .started 0 0 [] with busy := 1#1, trRev := [.iStart], inputs := [.reset] }) =
    { start [] with epoch := 1 } := by decide
/-- The first instruction after reset is the one presented (rule R304). -/
theorem test_first_command : (stepped (State.reset.withFetchWord 72 0x010000000000030000)).rsp = some 0x00FFFF#24 := by decide
theorem test_reset_state : State.reset.status = 0x00C0#16 ∧ State.reset.ras.fg = 0xFFFF#16 ∧ State.reset.text.wf := by decide

/-! ### Witnesses: the hypotheses of each obligation can be met, each clause at the boundaries of its range -/

/-- An environment of `n` completing answers is responsive for `n` operations. -/
theorem responsive_replicate (n : Nat) (a : EnvAnswer) (h : a.done = true) (s : State) :
    Responsive n { s with env := List.replicate n a } := by
  refine ⟨by simp, fun b hb => ?_⟩
  rw [List.eq_of_mem_replicate (List.mem_of_mem_take hb)]
  exact h

/-- A state on which a host action is to come. -/
def facing (i : HostInput) (s : State) : State := { s with inputs := [i] }

theorem wit_encode_of_decode : decode 0x03000000000000FF00#72 = .ok (.txtWr 255 0) := by decide
theorem wit_table_rows : ("I2C_ACK", 0x140000000000000000#72, 0xFFFFFFFFFFFFFFFFFE#72) ∈ tableRows ∧
    0x140000000000000001#72 &&& 0xFFFFFFFFFFFFFFFFFE#72 = 0x140000000000000000#72 ∧
    (∀ r ∈ tableRows, 0x140000000000000002#72 &&& r.2.2 ≠ r.2.1) ∧
    (∀ r ∈ tableRows, 0xFF0000000000000000#72 &&& r.2.2 ≠ r.2.1) := by decide
theorem wit_txt_str : (255#8).toNat + ([] : List Byte).length ≤ 255 ∧ 255 < (255#8).toNat + [0x41#8].length ∧
    (0#8).toNat + (List.replicate 255 0x41#8).length ≤ 255 := ⟨by decide, by decide, by rw [List.length_replicate]; decide⟩
theorem wit_step_runs : (facing (.command 0x010000000000080000#72) (start [])).busy = 0#1 ∧
    (facing (.command 0x010000000000080000#72) (start [])).fault = 0#4 ∧
    decode 0x010000000000080000#72 = .ok (.rdReg 8) ∧ tableWord 72 0x010000000000080000 = 0x010000000000080000#72 ∧
    (facing (.command 0x010000000000080000#72) (start [])).inputs = .command 0x010000000000080000#72 :: [] := by decide

theorem wit_illegal_no_row : Illegal 0xFF0000000000000000#72 ∧ Illegal 0x140000000000000002#72 :=
  ⟨.inl (by decide), .inl (by decide)⟩
theorem wit_illegal_rd_reg : Illegal 0x010000000000090000#72 ∧ Illegal 0x010000000000FF0000#72 :=
  ⟨.inr (.inl ⟨9, by decide⟩), .inr (.inl ⟨255, by decide⟩)⟩
theorem wit_illegal_wr_reg : Illegal 0x020000000000000001#72 ∧ Illegal 0x020000000000050001#72 ∧
    Illegal 0x020000000000080001#72 ∧ Illegal 0x020000000000090001#72 :=
  ⟨.inr (.inr ⟨0, 1, by decide⟩), .inr (.inr ⟨5, 1, by decide⟩), .inr (.inr ⟨8, 1, by decide⟩),
   .inr (.inr ⟨9, 1, by decide⟩)⟩
/-- A word that decodes to a command of neither REG kind has no cause of ILLEGAL_CMD. -/
theorem wit_not_illegal : ¬Illegal 0x000000000000000000#72 := by
  rintro (h | ⟨r, h, -⟩ | ⟨r, v, h, -⟩)
  · exact absurd h (by decide)
  · exact absurd (test_decode_nop.symm.trans h) (by simp)
  · exact absurd (test_decode_nop.symm.trans h) (by simp)
/-- The greatest number of each kind that no cause of ILLEGAL_CMD covers. -/
theorem wit_not_illegal_reg : ¬Illegal 0x010000000000080000#72 ∧ ¬Illegal 0x020000000000040000#72 := by
  have hw : decode 0x020000000000040000#72 = .ok (.wrReg 4 0) := by decide
  refine ⟨?_, ?_⟩
  · rintro (h | ⟨r, h, hr⟩ | ⟨r, v, h, -⟩)
    · exact absurd h (by decide)
    · have := test_decode_rd_reg.symm.trans h
      simp only [Except.ok.injEq, Instr.rdReg.injEq] at this
      subst this; exact absurd hr (by decide)
    · exact absurd (test_decode_rd_reg.symm.trans h) (by simp)
  · rintro (h | ⟨r, h, -⟩ | ⟨r, v, h, hr⟩)
    · exact absurd h (by decide)
    · exact absurd (hw.symm.trans h) (by simp)
    · have := hw.symm.trans h
      simp only [Except.ok.injEq, Instr.wrReg.injEq] at this
      obtain ⟨rfl, rfl⟩ := this
      exact absurd hr (by decide)

theorem wit_blocked : ({ start [] with fault := 4#4, inputs := [.command 0#72] }).fault ≠ 0#4 ∧
    ({ start [] with fault := 4#4, inputs := [.command 0#72] }).busy = 0#1 := by decide
/-- Blocked and not reset: a step of the host that presents a word, and one that presents nothing. -/
theorem wit_blocked_step : ∃ t, step { start [] with fault := 1#4, inputs := [.command 0#72] } = .next t ∧
    ([.command 0#72] : List HostInput).head? ≠ some .reset ∧
    step { start [] with fault := 1#4 } = .next { start [] with fault := 1#4 } := ⟨_, rfl, by decide, rfl⟩
theorem wit_hung : ({ start [] with busy := 1#1, inputs := [.command 0#72] }).busy = 1#1 ∧
    ([.command 0#72] : List HostInput).head? ≠ some .reset := by decide
theorem wit_reset : (facing .reset { start [ok 1 2] with busy := 1#1 }).inputs = .reset :: [] ∧
    (facing .reset { start [] with fault := 4#4 }).inputs = .reset :: [] := by decide
theorem wit_trace_grows : ∃ t, step (facing (.command (encode .i2cStart)) (start [ok 0 0])) = .next t ∧
    t.trace = [.iStart] := ⟨_, rfl, by decide⟩

/-- A response of each form: OK with data, a fault of the least and of the greatest code, BLOCKED. -/
theorem wit_response_forms :
    (stepped (facing (.command (encode (.rdReg 3))) (start []))).rsp = some 0x00FFFF#24 ∧
    (stepped (facing (.command (encode (.rdReg 9))) (start []))).rsp = some 0x100000#24 ∧
    (stepped (facing (.command (encode (.drawString 0 0 255))) (withText 255 [0x0A] []))).rsp = some 0x400000#24 ∧
    (stepped (facing (.command 0#72) { start [] with fault := 3#4 })).rsp = some 0xF00003#24 := by decide
theorem wit_one_response : (facing (.command (encode .i2cStart)) (start [])).busy = 0#1 ∧
    (stepped (facing (.command (encode .i2cStart)) (start [ok 0 0]))).rsp = some 0x000000#24 ∧
    (stepped (facing (.command (encode .i2cStart)) (start [never]))).rsp = none := by decide
theorem wit_fault_entry : (facing (.command (encode .i2cStop)) (start [])).fault = 0#4 ∧
    (stepped (facing (.command (encode .i2cStop)) (start []))).fault ≠ 0#4 := by decide

theorem wit_rd_reg : (9#8).toNat = 9 ∧ 9 ≤ (255#8).toNat ∧ (start []).fault = 0#4 ∧
    (8#8, (start []).spi.rx.setWidth 16) ∈ [(7#8, (start []).i2c.rx.setWidth 16), (8#8, (start []).spi.rx.setWidth 16)] := by
  decide
theorem wit_wr_reg : ((0#8).toNat = 0 ∨ 5 ≤ (0#8).toNat) ∧ ((5#8).toNat = 0 ∨ 5 ≤ (5#8).toNat) ∧
    ((255#8).toNat = 0 ∨ 5 ≤ (255#8).toNat) ∧ (start []).fault = 0#4 := by decide
/-- Another index than the one written, and a word that is no command. -/
theorem wit_text_kept : decode (encode (.txtWr 0 7)) = .ok (.txtWr 0 7) ∧ (Instr.txtWr 0 7 ≠ .txtWr 1 7) ∧
    (∃ t, step (facing (.command (encode (.txtWr 0 7))) (start [])) = .next t ∧ t.text = [(0, 7#8)]) ∧
    decode 0xFF0000000000000000#72 = .error .unknownOpcode := ⟨by decide, by decide, ⟨_, rfl, by decide⟩, by decide⟩
theorem wit_system : isSystem .nop ∧ isSystem (.rdReg 9) ∧ isSystem (.wrReg 0 0) ∧ isSystem (.txtWr 255 0) ∧
    isSystem (.txtRd 255) :=
  ⟨.inl rfl, .inr (.inl ⟨_, rfl⟩), .inr (.inr (.inl ⟨_, _, rfl⟩)), .inr (.inr (.inr (.inl ⟨_, _, rfl⟩))),
   .inr (.inr (.inr (.inr ⟨_, rfl⟩)))⟩

/-- The environment completes the operation, or never does. -/
theorem wit_answers : (start [ok 1 2]).answer.done = true ∧ (start [silent]).answer.done = true ∧
    (start [never]).answer.done = false := by decide
theorem wit_i2c_start : (start [ok 0 0]).i2c.st = .idle ∧ (row .stopped 0 0 [never]).i2c.st = .stopped ∧
    (row .started 0 0 []).i2c.st = .started ∧ (row .started 0 0 []).fault = 0#4 ∧
    (row .stopped 0 0 [never]).answer.done = false ∧ (start [ok 0 0]).answer.done = true := by decide
theorem wit_i2c_restart : (row .addressed 1 0 [ok 0 0]).i2c.st = .addressed ∧ (row .addressed 1 0 [ok 0 0]).i2c.ap = 0#1 ∧
    (row .addressed 1 0 [ok 0 0]).answer.done = true ∧ (row .transferring 0 0 [never]).answer.done = false ∧
    (row .transferring 0 0 [never]).i2c.ap = 0#1 ∧ (row .transferring 1 1 []).i2c.ap = 1#1 ∧
    (row .transferring 1 1 []).fault = 0#4 := by decide
theorem wit_i2c_send : (row .started 0 0 [silent]).i2c.st = .started ∧ (row .started 0 0 [silent]).answer.done = true ∧
    (row .addressed 0 0 [ok 0 0]).i2c.dir = 0#1 ∧ (row .addressed 0 0 [ok 0 0]).i2c.st = .addressed ∧
    (row .transferring 0 0 [never]).answer.done = false ∧ (row .addressed 1 0 []).i2c.dir = 1#1 ∧
    (row .addressed 1 0 []).i2c.st ≠ .started ∧ (row .addressed 1 0 []).fault = 0#4 := by decide
theorem wit_i2c_recv : (row .addressed 1 0 [ok 9 0]).i2c.st = .addressed ∧ (row .addressed 1 0 [ok 9 0]).i2c.dir = 1#1 ∧
    (row .addressed 1 0 [ok 9 0]).i2c.ap = 0#1 ∧ (row .addressed 1 0 [ok 9 0]).answer.done = true ∧
    (row .transferring 1 0 [never]).answer.done = false ∧ (row .transferring 1 1 []).i2c.ap = 1#1 ∧
    (row .addressed 0 0 []).i2c.dir = 0#1 ∧ (row .addressed 0 0 []).fault = 0#4 := by decide
theorem wit_i2c_ack : (row .transferring 1 1 [ok 0 0]).i2c.ap = 1#1 ∧ (row .transferring 1 1 [ok 0 0]).answer.done = true ∧
    (row .transferring 1 1 [never]).answer.done = false ∧ (row .transferring 1 0 []).i2c.ap = 0#1 ∧
    (row .transferring 1 0 []).fault = 0#4 := by decide
theorem wit_i2c_stop : (row .started 0 0 [ok 0 0]).i2c.st = .started ∧ (row .started 0 0 [ok 0 0]).i2c.ap = 0#1 ∧
    (row .started 0 0 [ok 0 0]).answer.done = true ∧ (row .transferring 1 0 [never]).answer.done = false ∧
    (row .transferring 1 0 [never]).i2c.ap = 0#1 ∧ (row .stopped 0 0 []).i2c.st = .stopped ∧
    (row .transferring 1 1 []).i2c.ap = 1#1 ∧ (row .stopped 0 0 []).fault = 0#4 := by decide
/-- Every row of the state table is a state, and every row has a cell for each of the six commands. -/
theorem wit_state_table : ((stateTable 0xD7).all fun r =>
      (((row r.1.1 r.1.2.1 r.1.2.2 [ok 0 0]).i2c.st, (row r.1.1 r.1.2.1 r.1.2.2 [ok 0 0]).i2c.dir,
        (row r.1.1 r.1.2.1 r.1.2.2 [ok 0 0]).i2c.ap) == r.1) && r.2.length == (i2cCommands 0xD7 1).length) = true ∧
    (row .started 0 0 [ok 0 0]).fault = 0#4 ∧ (row .started 0 0 [ok 0 0]).answer.done = true := by decide
theorem wit_i2c_hang : isI2c .i2cStop ∧ isI2c (.i2cAck 1) ∧ (row .started 0 0 [never]).answer.done = false ∧
    (row .started 0 0 [never]).fault = 0#4 := ⟨⟨0, 0, by decide⟩, ⟨0, 1, by decide⟩, by decide, by decide⟩
theorem wit_missing_ack : (ok 0 0).done = true ∧ (row .started 0 0 []).i2c.st = .started ∧
    (row .transferring 0 0 []).i2c.st = .transferring ∧ (row .transferring 0 0 []).i2c.dir = 0#1 := by decide
theorem wit_missing_ack_other : (∀ b, Instr.i2cRecv ≠ .i2cSend b) ∧
    ∃ t, exec .i2cRecv (row .addressed 1 0 [ok 3 0]) = .next t ∧ t.i2c.rx = 3#8 := ⟨by simp, _, rfl, by decide⟩

theorem wit_lcd_byte : (Instr.lcdData 5, 1#1) ∈ [(Instr.lcdCmd 5, 0#1), (Instr.lcdData 5, 1#1)] ∧
    ({ start [ok 0 9] with spi.dc := 1#1, spi.csN := 0#1, trRev := [.sCs 0#1, .sDc 1#1] }).answer.done = true ∧
    ({ start [never] with spi.dc := 1#1, spi.csN := 0#1, trRev := [.sCs 0#1, .sDc 1#1] }).answer.done = false := by decide
theorem wit_responsive_2 : Responsive 2 (start [ok 0 1, ok 0 2]) := by decide
theorem wit_responsive_11 : Responsive 11 (start (List.replicate 11 (ok 0 0))) := by decide
theorem wit_responsive_13 : Responsive 13 (start (List.replicate 13 (ok 0 0))) := by decide
theorem wit_responsive_clear : Responsive 32779 (start (List.replicate 32779 (ok 0 0))) :=
  responsive_replicate _ _ rfl (start [])
theorem wit_display_family : displayBytes params (.lcdCmd 0x11) ≠ none ∧ displayBytes params (.clear 0) ≠ none ∧
    ∃ t, exec (.lcdCmd 0x11) (start [ok 0 0]) = .next t ∧ t.rsp = some 0x000000#24 :=
  ⟨Option.some_ne_none _, Option.some_ne_none _, _, rfl, by decide⟩
/-- The first framed byte of a command, and the last. -/
theorem wit_display_hang_first : displayBytes params (.lcdData16 0xF800) = some ([], [(1, 0xF8), (1, 0x00)]) ∧
    Responsive 0 (start [never]) ∧ (start [never]).env[0]? = some never ∧ never.done = false := by decide
theorem wit_display_hang_last : ([(1, 0xF8), (1, 0x00)] : List (Bit × Byte))[1]? = some (1, 0x00) ∧
    Responsive 1 (start [ok 0 0, never]) ∧ (start [ok 0 0, never]).env[1]? = some never := by decide

theorem wit_draw_char_out : ((31#8).toNat < 32 ∨ 126 < (31#8).toNat) ∧ ((127#8).toNat < 32 ∨ 126 < (127#8).toNat) ∧
    (start []).fault = 0#4 := by decide
theorem wit_draw_char_in : (32#8).toNat = (0 : Fin 95).val + 32 ∧ (126#8).toNat = (94 : Fin 95).val + 32 := by decide
theorem wit_responsive_draw : Responsive 520 (start (List.replicate 520 (ok 0 0))) :=
  responsive_replicate _ _ rfl (start [])
theorem wit_draw_char_cell : ∃ t, exec (.drawChar 128 128 0x21) (start (List.replicate 13 (ok 0 0))) = .next t ∧
    .pix 128 128 0 ∈ t.trace ∧ (start (List.replicate 13 (ok 0 0))).trace = [] := ⟨_, rfl, by decide, by decide⟩

/-- TEXT holding a newline from index 254 on, whatever follows. -/
theorem wit_holds_newline (p : Byte) (rest : List Byte) (env : List EnvAnswer) (hp : p.toNat ≤ 255) :
    HoldsText (withText p.toNat (0x0A#8 :: rest) env) p [0x0A#8] := by
  refine ⟨by simp only [List.length_singleton]; omega, fun k ch hk => ?_⟩
  match k, hk with
  | 0, hk =>
    simp only [List.getElem?_cons_zero, Option.some.injEq] at hk
    subst hk
    refine ⟨?_, by decide, .inl rfl⟩
    simp [State.readText, withText, List.range'_succ, Memory.read?]
  | k + 1, hk => simp at hk
/-- A string that ends at index 255, and the empty string. -/
theorem wit_string_ends : HoldsText (withText 254 [0x0A#8, 0x00#8] []) 254 [0x0A#8] ∧
    (254#8).toNat + [0x0A#8].length ≤ 255 ∧
    (withText 254 [0x0A#8, 0x00#8] []).readText (BitVec.ofNat 8 ((254#8).toNat + [0x0A#8].length)) = 0x00#8 ∧
    HoldsText (withText 255 [0x00#8] []) 255 [] ∧ Responsive 0 (withText 255 [0x00#8] []) :=
  ⟨wit_holds_newline 254 _ _ (by decide), by decide, by decide, ⟨by decide, by simp⟩, by decide⟩
theorem wit_string_drawn : HoldsText (withText 255 [0x21#8] (List.replicate 520 (ok 0 0))) 255 [0x21#8] ∧
    Responsive (520 * [0x21#8].length) (withText 255 [0x21#8] (List.replicate 520 (ok 0 0))) := by
  refine ⟨⟨by decide, fun k ch hk => ?_⟩, responsive_replicate 520 (ok 0 0) rfl (withText 255 [0x21#8] [])⟩
  match k, hk with
  | 0, hk =>
    simp only [List.getElem?_cons_zero, Option.some.injEq] at hk
    subst hk
    exact ⟨by decide, by decide, .inr (by decide)⟩
  | k + 1, hk => simp at hk
theorem wit_string_overrun : HoldsText (withText 255 [0x0A#8] []) 255 [0x0A#8] ∧
    (255#8).toNat + [0x0A#8].length = 256 ∧ (withText 255 [0x0A#8] []).fault = 0#4 :=
  ⟨wit_holds_newline 255 _ _ (by decide), by decide, by decide⟩
theorem wit_string_glyph_range : HoldsText (withText 254 [0x0A#8, 0x80#8] []) 254 [0x0A#8] ∧
    (withText 254 [0x0A#8, 0x80#8] []).readText (BitVec.ofNat 8 ((254#8).toNat + [0x0A#8].length)) = 0x80#8 ∧
    (0x80#8 ≠ 0x00#8) ∧ ¬drawsOn 0x0A 0x80#8 ∧ ¬drawsOn 0x0A 0x7F#8 ∧ ¬drawsOn 0x0A 0x1F#8 :=
  ⟨wit_holds_newline 254 _ _ (by decide), by decide, by decide, by unfold drawsOn; decide, by unfold drawsOn; decide,
   by unfold drawsOn; decide⟩
theorem wit_string_hang : ∃ t, exec (.drawString 0 0 0) (withText 0 [0x21, 0x00] [never]) = .next t ∧ t.busy = 1#1 ∧
    t.spi.csN = 0#1 ∧ pixels t.trace = [(0, 0, 0)] := ⟨_, rfl, by decide, by decide, by decide⟩

theorem wit_units : ¬isI2c .nop ∧ ¬isDraw (.txtWr 0 0) ∧ (∀ r v, Instr.nop ≠ .wrReg r v) ∧
    ∃ t, exec .nop (start []) = .next t ∧ t.rsp = some 0#24 := by
  refine ⟨fun ⟨b, k, h⟩ => ?_, ?_, by simp, _, rfl, by decide⟩
  · simp [i2cCommands] at h
  · simp [isDraw]
theorem wit_divisors : Instr.rdReg 2 ≠ .rdReg 1 ∧ Instr.rdReg 1 ≠ .rdReg 2 ∧ (∀ v, Instr.wrReg 2 5 ≠ .wrReg 1 v) ∧
    (∀ v, Instr.wrReg 1 5 ≠ .wrReg 2 v) ∧ (∃ t, exec (.rdReg 2) (start []) = .next t ∧ t.rsp = some 0#24) ∧
    ∃ t, exec (.wrReg 1 5) (start []) = .next t ∧ t.i2c.div = 5#16 :=
  ⟨by decide, by decide, by simp, by simp, ⟨_, rfl, by decide⟩, _, rfl, by decide⟩
/-- Inside a transaction, an acknowledge owed. -/
def owing (env : List EnvAnswer) : State :=
  { row .transferring 1 1 env with i2c.pins.sda := 1#1, trRev := [.iRx 0, .iTx 0xD7 0, .iStart] }
/-- The invariants hold of a state inside a transaction too, with an acknowledge owed. -/
theorem wit_inv : Inv (owing []) ∧ Mirrors (owing []) :=
  ⟨⟨by decide, by decide, by decide, by decide, by decide, by decide, by decide, by decide, by decide⟩,
   ⟨by decide, by decide, by decide, by decide, by decide, by decide, by decide, by decide, by decide⟩⟩
/-- A reader stands where a block with an acknowledge owed stands, whatever is presented to it and whatever the environment
answers: a stretched clock, an operation that never completes. -/
theorem wit_reader (a : EnvAnswer) (i : Instr) :
    let s := { owing [a] with inputs := [.command (encode i)] }
    Inv s ∧ (⟨.owed, ⟨0, 1, 1⟩, none, []⟩ : I2cReader).Tracks s ∧ s.busy = 0#1 ∧ s.inputs.head? ≠ some .reset := by
  have h : Inv (owing []) := wit_inv.1
  exact ⟨⟨h.1, h.2, h.3, h.4, h.5, h.6, h.7, h.8, h.9⟩, ⟨rfl,
    (by decide : (⟨0, 1, 1⟩ : I2cSample) = (owing []).i2c.pins.lines.sample), rfl, rfl,
    by simp [owing, row, I2cUnit.isOpen, I2cUnit.addressedOrLater], fun _ => rfl⟩, rfl, by simp⟩
/-- With SCL held down at the acknowledge clock for a while, and for ever. -/
theorem test_reader_ack :
    ((⟨.owed, ⟨0, 1, 1⟩, none, []⟩ : I2cReader).read
      (i2cActivity (.i2cAck 0) (owing [{ ok 0 0 with stretch := [true] }]))).1 = [.iMack 0] ∧
    ((⟨.owed, ⟨0, 1, 1⟩, none, []⟩ : I2cReader).read (i2cActivity (.i2cAck 0) (owing [never]))).1 = [] := by decide
theorem wit_spi_pins : params.spiMode = 0#2 ∧ params.spiMsbFirst = true ∧ (SpiPins.atReset params).sck = 0#1 ∧
    (SpiPins.atReset params).sck = params.sckIdle := by decide
/-- A host that sends a NOP until it has one response, and one that goes on until a command hangs. -/
theorem wit_adaptive_host :
    AdaptiveHost.observe (fun rs => if rs = [] then some (encode .nop) else none) 2 [] (start []) =
      ⟨[0x000000#24], [], .finished⟩ ∧
    AdaptiveHost.observe (fun _ => some (encode .i2cStart)) 2 [] (start [never]) = ⟨[], [], .hung⟩ ∧
    (start []).inputs = [] := by decide
theorem wit_pixel : params.windowRamwr = true ∧ params.cmdCaset ≠ params.cmdPaset ∧ params.cmdCaset ≠ params.cmdRamwr ∧
    params.cmdPaset ≠ params.cmdRamwr ∧ (127#16).toNat < 128 ∧
    ∃ t, exec (.writePixel 127 127 5) (start (List.replicate 13 (ok 0 0))) = .next t ∧ t.trace.length = 53 :=
  ⟨by decide, by decide, by decide, by decide, by decide, _, rfl, by decide⟩

end Sys2Proof.Tests
end

section
/-! SUPPORT. The end of a command field by field, and the commands sorted by the unit that carries them out (rule R30). -/

namespace Sys2Proof.Machine

open Sys2Proof.Claims

/-- The course came to its end: it did not stop at an `await` (rule R284). -/
def Flow.ended : Flow → Bool
  | .go _ => true
  | .hung _ => false
  | .faulted _ _ => true

section

variable (rsp : State → RspWord) (f : Flow)

@[simp] theorem conclude_i2c : (conclude rsp f).i2c = f.state.i2c := by rw [conclude_frame]
@[simp] theorem conclude_spi : (conclude rsp f).spi = f.state.spi := by rw [conclude_frame]
@[simp] theorem conclude_ras : (conclude rsp f).ras = f.state.ras := by rw [conclude_frame]
@[simp] theorem conclude_text : (conclude rsp f).text = f.state.text := by rw [conclude_frame]
@[simp] theorem conclude_trRev : (conclude rsp f).trRev = f.state.trRev := by rw [conclude_frame]
@[simp] theorem conclude_cfg : (conclude rsp f).cfg = f.state.cfg := by rw [conclude_frame]
@[simp] theorem conclude_epoch : (conclude rsp f).epoch = f.state.epoch := by rw [conclude_frame]
@[simp] theorem conclude_inputs : (conclude rsp f).inputs = f.state.inputs := by rw [conclude_frame]

/-- BUSY falls at the end of a command and stays up when it hangs (rules R49, R284). -/
@[simp] theorem conclude_busy_eq_zero : (conclude rsp f).busy = 0#1 ↔ f.ended = true := by
  cases f <;> simp [conclude, Flow.ended]

end

/-- The unit that carries a command out: the front end, or one of U1, U2, U3 (rule R30). -/
inductive Owner where
  | front | i2c | spi | raster

/-- The owner of each command, in the order of rule R104. -/
def ownerOf : Instr → Owner
  | .nop | .rdReg _ | .wrReg _ _ | .txtWr _ _ | .txtRd _ => .front
  | .i2cStart | .i2cRestart | .i2cSend _ | .i2cRecv | .i2cAck _ | .i2cStop => .i2c
  | .spiXfer _ | .spiCs _ | .spiDc _ | .lcdCmd _ | .lcdData _ | .lcdData16 _ | .setWindow _ _ _ _
  | .writePixel _ _ _ | .clear _ => .spi
  | .drawChar _ _ _ | .drawString _ _ _ => .raster

theorem isSystem_iff_owner (i : Instr) : isSystem i ↔ ownerOf i = .front := by
  cases i <;> simp [isSystem, ownerOf]

theorem isI2c_iff_owner (i : Instr) : isI2c i ↔ ownerOf i = .i2c := by
  cases i <;> simp [isI2c, i2cCommands, ownerOf]

theorem isDraw_iff_owner (i : Instr) : isDraw i ↔ ownerOf i = .raster := by
  cases i <;> simp [isDraw, ownerOf]

end Sys2Proof.Machine
end

section
/-! SUPPORT. The course of a command, owner by owner, as inductive relations: what a proof over every command or every step
splits on. -/

namespace Sys2Proof.Machine

/-! ### The front end (44_system_commands.md) -/

/-- The course of a system command: it changes nothing, faults ILLEGAL_CMD, or does the one write it is for. -/
inductive SystemCourse (s : State) : Instr → Flow → Prop
  | answers (i : Instr) : SystemCourse s i (.go s)
  | illegal (i : Instr) : SystemCourse s i (.faulted .illegalCmd s)
  | writesReg {r : Byte} {v : Half} {t : State} (h : s.writeReg r v = some t) : SystemCourse s (.wrReg r v) (.go t)
  | writesText (a v : Byte) : SystemCourse s (.txtWr a v) (.go (s.writeText a v))

theorem exec_system {i : Instr} (h : ownerOf i = .front) (s : State) :
    ∃ rsp f, exec i s = .next (conclude rsp f) ∧ SystemCourse s i f := by
  cases i
  case nop => exact ⟨fun _ => okResponse 0#1 0#16, _, rfl, .answers _⟩
  case rdReg r =>
    simp only [exec, execRdReg]
    cases s.readReg r with
    | none => exact ⟨fun _ => 0#24, _, rfl, .illegal _⟩
    | some v => exact ⟨fun _ => okResponse 0#1 v, _, rfl, .answers _⟩
  case wrReg r v =>
    simp only [exec, execWrReg]
    cases ht : s.writeReg r v with
    | none => exact ⟨fun _ => 0#24, _, rfl, .illegal _⟩
    | some t => exact ⟨fun _ => okResponse 0#1 0#16, _, rfl, .writesReg ht⟩
  case txtWr a v => exact ⟨fun _ => okResponse 0#1 0#16, _, rfl, .writesText a v⟩
  case txtRd a => exact ⟨fun _ => okResponse 0#1 (zext16 (s.readText a)), _, rfl, .answers _⟩
  all_goals cases h

/-- WR_REG reaches the two divisors, FG and BG alone (rule R253). -/
theorem writeReg_only {s t : State} {r : Byte} {v : Half} (h : s.writeReg r v = some t) :
    t = { s with i2c.div := t.i2c.div, spi.div := t.spi.div, ras.fg := t.ras.fg, ras.bg := t.ras.bg } := by
  unfold State.writeReg at h
  split at h
  · cases h; rfl
  split at h
  · cases h; rfl
  split at h
  · cases h; rfl
  split at h
  · cases h; rfl
  · cases h

/-! ### Unit U1 (40_i2c_master.md) -/

/-- A completed I2C bus operation: the event it emits and the registers and pins it leaves (rules R133 to R138). -/
inductive I2cMove (u : I2cUnit) : Event → I2cUnit → Prop
  | start (h : u.mayStart = true) : I2cMove u .iStart { u with pins := u.pins.run startSteps }.afterStart
  | restart (h : u.mayRestart = true) : I2cMove u .iRestart { u with pins := u.pins.run restartSteps }.afterRestart
  | send (h : u.maySend = true) (b : Byte) (a : Bit) :
      I2cMove u (.iTx b a) ({ u with pins := u.pins.run (sendSteps b a) }.afterSend b a)
  | recv (h : u.mayRecv = true) (d : Byte) : I2cMove u (.iRx d) ({ u with pins := u.pins.run (recvSteps d) }.afterRecv d)
  | ack (h : u.mayAck = true) (k : Bit) : I2cMove u (.iMack k) { u with pins := u.pins.run (ackSteps k) }.afterAck
  | stop (h : u.mayStop = true) : I2cMove u .iStop { u with pins := u.pins.run stopSteps }.afterStop

/-- No bus operation moves the divisor (rule R144). -/
theorem I2cMove.div {u u' : I2cUnit} {e : Event} (h : I2cMove u e u') : u'.div = u.div := by
  cases h with
  | send h b a => exact afterSend_div _ b a
  | start | restart | recv | ack | stop => rfl

/-- The course of an I2C command (rule R132): forbidden, done, or held somewhere at the pins. -/
inductive I2cCourse (s : State) : Flow → Prop
  | forbidden : I2cCourse s (.faulted .i2cProto s)
  | done {e : Event} {u : I2cUnit} (h : I2cMove s.i2c e u) :
      I2cCourse s (.go { s with i2c := u, trRev := e :: s.trRev, env := s.env.tail })
  | held (p : I2cPins) : I2cCourse s (.hung { s.nextAnswer with i2c.pins := p })

theorem i2cCommand_course {legal : Bool} {steps : EnvAnswer → List I2cPinOp} {event : EnvAnswer → Event}
    {after : EnvAnswer → I2cUnit → I2cUnit} {s : State}
    (h : legal = true → ∀ a, I2cMove s.i2c (event a) (after a { s.i2c with pins := s.i2c.pins.run (steps a) })) :
    I2cCourse s (i2cCommand legal steps event after s) := by
  rcases i2cCommand_cases legal steps event after s with ⟨-, hc⟩ | ⟨hl, -, hc⟩ | ⟨-, -, hc⟩ <;> rw [hc]
  · exact .forbidden
  · exact .done (h hl _)
  · exact .held _

theorem exec_i2c {i : Instr} (h : ownerOf i = .i2c) (s : State) :
    ∃ rsp f, exec i s = .next (conclude rsp f) ∧ I2cCourse s f := by
  cases i
  case i2cStart => exact ⟨_, _, rfl, i2cCommand_course fun hl _ => .start hl⟩
  case i2cRestart => exact ⟨_, _, rfl, i2cCommand_course fun hl _ => .restart hl⟩
  case i2cSend b => exact ⟨_, _, rfl, i2cCommand_course fun hl a => .send hl b a.ack⟩
  case i2cRecv => exact ⟨_, _, rfl, i2cCommand_course fun hl a => .recv hl a.data⟩
  case i2cAck k => exact ⟨_, _, rfl, i2cCommand_course fun hl _ => .ack hl k⟩
  case i2cStop => exact ⟨_, _, rfl, i2cCommand_course fun hl _ => .stop hl⟩
  all_goals cases h

/-! ### Unit U2 (41_spi_transport.md, 42_display_framing.md) -/

/-- What unit U2 does at a time: assign a line, mark a pixel, transfer a byte, or use up an answer that lets nothing
complete (rules R171 to R174, R195). -/
inductive SpiMove (s : State) : State → Prop
  | cs (l : Bit) : SpiMove s (assignCs l s)
  | dc (l : Bit) : SpiMove s (assignDc l s)
  | pix (x y c : Half) : SpiMove s (s.emit (.pix x y c))
  | xfer (o m : Byte) : SpiMove s { s with
      spi := { s.spi with rx := m, pins := SpiPins.resting s.cfg o m }, trRev := .sXfer o m :: s.trRev, env := s.env.tail }
  | lost : SpiMove s s.nextAnswer

/-- Such moves one after another. -/
abbrev SpiPath : State → State → Prop := Relation.ReflTransGen SpiMove

theorem SpiPath.transfer (o : Byte) (s : State) : SpiPath s (spiTransfer o s).state := by
  rcases spiTransfer_cases o s with ⟨-, h⟩ | ⟨-, h⟩ <;> rw [h]
  · exact .single (.xfer o _)
  · exact .single .lost

theorem SpiPath.frame (dc : Bit) (o : Byte) (s : State) : SpiPath s (Machine.frame dc o s).state :=
  Flow.bind_keeps (R := SpiPath) Relation.ReflTransGen.trans
    (.head (.dc dc) (.head (.cs 0#1) (SpiPath.transfer o _))) fun _ => .single (.cs 1#1)

theorem SpiPath.frames (l : List (Bit × Byte)) (s : State) : SpiPath s (Machine.frames l s).state := by
  induction l generalizing s with
  | nil => exact .refl
  | cons f l ih =>
    exact Flow.bind_keeps (R := SpiPath) Relation.ReflTransGen.trans (SpiPath.frame f.1 f.2 s) ih

theorem SpiPath.writePixel (x y c : Half) (s : State) : SpiPath s (Machine.writePixel x y c s).state := by
  rw [writePixel_eq]
  exact .head (.pix x y c) (SpiPath.frames _ _)

theorem exec_spi {i : Instr} (h : ownerOf i = .spi) (s : State) :
    ∃ rsp f, exec i s = .next (conclude rsp f) ∧ SpiPath s f.state := by
  cases i
  case spiXfer b => exact ⟨_, _, rfl, SpiPath.transfer b s⟩
  case spiCs l => exact ⟨fun _ => okResponse 0#1 0#16, .go (assignCs l s), rfl, .single (.cs l)⟩
  case spiDc l => exact ⟨fun _ => okResponse 0#1 0#16, .go (assignDc l s), rfl, .single (.dc l)⟩
  case lcdCmd b => exact ⟨_, _, rfl, SpiPath.frame 0#1 b s⟩
  case lcdData b => exact ⟨_, _, rfl, SpiPath.frame 1#1 b s⟩
  case lcdData16 w => exact ⟨_, _, rfl, SpiPath.frames (data16 w) s⟩
  case setWindow x0 y0 x1 y1 => exact ⟨_, _, rfl, SpiPath.frames (windowFrames s.cfg x0 y0 x1 y1) s⟩
  case writePixel x y c => exact ⟨_, _, rfl, SpiPath.writePixel x y c s⟩
  case clear w => exact ⟨_, _, rfl, by rw [clear_eq]; exact SpiPath.frames _ s⟩
  all_goals cases h

/-- Unit U2 leaves the registers of the others alone, and its own divisor (rules R30, R176). -/
theorem SpiPath.same {s t : State} (h : SpiPath s t) :
    t = { s with spi := { t.spi with div := s.spi.div }, trRev := t.trRev, env := t.env } := by
  induction h with
  | refl => rfl
  | tail _ hm ih => cases hm <;> rw [ih] <;> rfl

/-! ### Unit U3 (43_font_rasterizer.md) -/

/-- What a draw does at a time: a move of unit U2, or a change of unit U3's own registers, FG and BG left alone. -/
inductive DrawMove (s : State) : State → Prop
  | spi {t : State} (h : SpiMove s t) : DrawMove s t
  | regs (r : RasterUnit) (hf : r.fg = s.ras.fg) (hb : r.bg = s.ras.bg) : DrawMove s { s with ras := r }

theorem DrawMove.newLine (s : State) : DrawMove s (Machine.newLine s) :=
  .regs { s.ras with curX := s.ras.orgX, curY := s.ras.curY + Config.advY } rfl rfl

theorem DrawMove.advance (s : State) : DrawMove s (Machine.advance s) :=
  .regs { s.ras with curX := s.ras.curX + Config.advX } rfl rfl

/-- Such moves one after another. -/
abbrev DrawPath : State → State → Prop := Relation.ReflTransGen DrawMove

theorem SpiPath.toDraw {s t : State} (h : SpiPath s t) : DrawPath s t := h.lift id fun _ _ => .spi

theorem DrawPath.drawCell (x y : Half) (k : Fin 95) (c : Fin 5 × Fin 8) (s : State) :
    DrawPath s (Machine.drawCell x y k c s).state := by
  unfold Machine.drawCell
  refine .head (.regs { s.ras with col := BitVec.ofNat 3 c.1.val, row := BitVec.ofNat 3 c.2.val } rfl rfl) ?_
  dsimp only
  split
  · exact .refl
  · exact (SpiPath.writePixel _ _ _ _).toDraw

theorem DrawPath.drawGlyph (x y : Half) (ch : Byte) (s : State) : DrawPath s (Machine.drawGlyph x y ch s).state := by
  unfold Machine.drawGlyph
  split
  next => exact .refl
  next k _ =>
    exact .head (.regs { s.ras with gidx := BitVec.ofNat 7 k.val } rfl rfl)
      (Flow.forEach_keeps (R := DrawPath) (fun _ => .refl) Relation.ReflTransGen.trans (fun c => DrawPath.drawCell x y k c) _ _)

theorem DrawPath.drawText (ps : List Byte) (s : State) : DrawPath s (Machine.drawText ps s).state := by
  induction ps generalizing s with
  | nil => exact .refl
  | cons p ps ih =>
    unfold Machine.drawText
    refine .head (.regs { s.ras with txtPtr := p } rfl rfl) ?_
    dsimp only
    split
    · exact .refl
    · exact .head (DrawMove.newLine _) (ih _)
    · exact Flow.bind_keeps (R := DrawPath) Relation.ReflTransGen.trans (DrawPath.drawGlyph _ _ _ _)
        fun u => .head (DrawMove.advance u) (ih _)

theorem exec_draw {i : Instr} (h : ownerOf i = .raster) (s : State) :
    ∃ rsp f, exec i s = .next (conclude rsp f) ∧ DrawPath s f.state := by
  cases i
  case drawChar x y c => exact ⟨_, _, rfl, DrawPath.drawGlyph x y c s⟩
  case drawString x y p =>
    exact ⟨_, _, rfl,
      .head (.regs { s.ras with curX := x, curY := y, orgX := x, txtPtr := p } rfl rfl) (DrawPath.drawText _ _)⟩
  all_goals cases h

/-- A draw does what DRAW_STRING may: no I2C event, no register of another unit but unit U2's. -/
theorem DrawPath.textOnly {s t : State} (h : DrawPath s t) : TextOnly s t := by
  induction h with
  | refl => exact .refl s
  | tail _ hm ih =>
    refine ih.trans ?_
    cases hm with
    | regs r hf hb => exact .ofRas _ r hf hb
    | spi hm =>
      cases hm with
      | cs l => exact (DisplayOnly.assignCs l _).toText
      | dc l => exact (DisplayOnly.assignDc l _).toText
      | pix x y c => exact (DisplayOnly.emit _ rfl).toText
      | xfer o m => exact ⟨rfl, [.sXfer o m], rfl, by simp [isI2cEvent]⟩
      | lost => exact ⟨rfl, [], rfl, by simp⟩

/-! ### Every command -/

/-- The course of any command, by its owner. -/
inductive Course (s : State) (i : Instr) (f : Flow) : Prop
  | system (h : SystemCourse s i f)
  | i2c (h : I2cCourse s f)
  | display (h : DrawPath s f.state)

theorem exec_owned (i : Instr) (s : State) : ∃ rsp f, exec i s = .next (conclude rsp f) ∧ Course s i f := by
  cases h : ownerOf i with
  | front => exact (exec_system h s).imp fun _ => .imp fun _ => .imp_right .system
  | i2c => exact (exec_i2c h s).imp fun _ => .imp fun _ => .imp_right .i2c
  | spi => exact (exec_spi h s).imp fun _ => .imp fun _ => .imp_right fun hp => .display hp.toDraw
  | raster => exact (exec_draw h s).imp fun _ => .imp fun _ => .imp_right .display

/-- Every course keeps FAULT and the model's own fields, and takes no event out of the trace. -/
theorem Course.kept {s : State} {i : Instr} {f : Flow} (hc : Course s i f) : Kept s f.state := by
  cases hc with
  | system h =>
    cases h with
    | answers | illegal => exact .refl s
    | writesText => exact ⟨rfl, rfl, rfl, rfl, [], rfl⟩
    | writesReg h => rw [Flow.state_go, writeReg_only h]; exact ⟨rfl, rfl, rfl, rfl, [], rfl⟩
  | i2c h =>
    cases h with
    | forbidden => exact .refl s
    | done => exact ⟨rfl, rfl, rfl, rfl, [_], rfl⟩
    | held => exact ⟨rfl, rfl, rfl, rfl, [], rfl⟩
  | display h => exact h.textOnly.kept

/-- Where a step leads (rules R281, R282, R284, R300), the course of the command it executes included. -/
inductive StepTo (s : State) : State → Prop
  | reset (hr : s.inputs.head? = some .reset) : StepTo s s.nextInput.applyReset
  | waits : StepTo s s.nextInput.noResponse
  | refuses (hb : s.busy = 0#1) : StepTo s s.nextInput.refuseBlocked
  | illegal (hb : s.busy = 0#1) (hf : s.fault = 0#4) : StepTo s (s.nextInput.accept.raise .illegalCmd)
  | executes (hb : s.busy = 0#1) (hf : s.fault = 0#4) {i : Instr} {f : Flow} (hc : Course s.nextInput.accept i f)
      (rsp : State → RspWord) : StepTo s (conclude rsp f)

theorem stepTo_of_step {s t : State} (h : step s = .next t) : StepTo s t := by
  rcases step_cases s with ⟨hr, he⟩ | ⟨-, -, he⟩ | ⟨w, -, hb, -, he⟩ | ⟨w, e, -, hb, hf, -, he⟩ | ⟨w, i, -, hb, hf, -, he⟩
  · cases he.symm.trans h; exact .reset hr
  · cases he.symm.trans h; exact .waits
  · cases he.symm.trans h; exact .refuses hb
  · cases he.symm.trans h; exact .illegal hb hf
  · obtain ⟨rsp, f, hx, hc⟩ := exec_owned i s.nextInput.accept
    cases (he.trans hx).symm.trans h
    exact .executes hb hf hc rsp

end Sys2Proof.Machine
end

section
/-! SUPPORT. The invariant of rule R57, clause group by clause group: what holds of unit U1 and the trace throughout a
command, a hang included, and what holds of its pins between commands. -/

namespace Sys2Proof.Machine

/-! ### The grammar of the I2C events (rule R57 f) -/

theorem phaseOf_cons {tr : List Event} {e : Event} {p q : Phase} (h : phaseOf tr = some p) (hq : p.next e = some q) :
    phaseOf (e :: tr) = some q := by
  rw [phaseOf, h, Option.bind_some, hq]

/-- An event of the other bus does not move the grammar. -/
theorem Phase.next_of_not_i2c (p : Phase) {e : Event} (he : isI2cEvent e = false) : p.next e = some p := by
  cases e with
  | sCs | sDc | sXfer | pix => cases p <;> rfl
  | iStart | iRestart | iTx | iRx | iMack | iStop => cases he

theorem phaseOf_append_of_not_i2c {es : List Event} (hes : ∀ e ∈ es, isI2cEvent e = false) (tr : List Event) :
    phaseOf (es ++ tr) = phaseOf tr := by
  induction es with
  | nil => rfl
  | cons e es ih =>
    obtain ⟨he, hes⟩ := List.forall_mem_cons.1 hes
    simp [phaseOf, ih hes, Phase.next_of_not_i2c _ he]

/-! ### Unit U1 and the trace, throughout a command -/

/-- The clauses of the invariant about unit U1's registers and the trace (rule R57 a to d, f). -/
structure I2cUnit.Sound (u : I2cUnit) (tr : List Event) : Prop where
  ackOwed   : u.ap = 1#1 → u.st = .transferring ∧ u.dir = 1#1
  reading   : u.dir = 1#1 → u.st = .addressed ∨ u.st = .transferring
  neverUsed : u.st = .idle → ∀ e ∈ tr, isI2cEvent e = false
  grammar   : phaseOf tr = some u.phase

theorem I2cUnit.Sound.of_eq {u u' : I2cUnit} {tr : List Event} (h : u.Sound tr)
    (hu : u' = { u with div := u'.div, pins := u'.pins }) : u'.Sound tr := by
  rw [hu]
  exact ⟨h.ackOwed, h.reading, h.neverUsed, h.grammar⟩

theorem I2cUnit.Sound.append {u : I2cUnit} {es tr : List Event} (h : u.Sound tr)
    (hes : ∀ e ∈ es, isI2cEvent e = false) : u.Sound (es ++ tr) where
  ackOwed := h.ackOwed
  reading := h.reading
  neverUsed hi e he := (List.mem_append.1 he).elim (hes e) (h.neverUsed hi e)
  grammar := (phaseOf_append_of_not_i2c hes tr).trans h.grammar

/-- No acknowledge is owed where the direction is write (rule R57 a). -/
theorem I2cUnit.Sound.ap_eq_zero {u : I2cUnit} {tr : List Event} (h : u.Sound tr)
    (hd : u.dir = 0#1 ∨ u.st ≠ .transferring) : u.ap = 0#1 := by
  refine (BitVec.eq_zero_or_eq_one u.ap).resolve_right fun ha => ?_
  obtain ⟨hst, hdir⟩ := h.ackOwed ha
  rcases hd with hd | hd
  · rw [hdir] at hd; exact absurd hd (by decide)
  · exact hd hst

theorem addressedOrLater_iff (u : I2cUnit) : u.addressedOrLater = true ↔ u.st = .addressed ∨ u.st = .transferring := by
  simp [I2cUnit.addressedOrLater]

/-- Inside a B with no acknowledge owed, the phase is the direction's. -/
theorem phase_of_addressedOrLater {u : I2cUnit} (h : u.addressedOrLater = true) (ha : u.ap = 0#1) :
    u.phase = if u.dir = 0#1 then .write else .read := by
  rcases (addressedOrLater_iff u).1 h with h | h <;> simp [I2cUnit.phase, h, ha]

/-- The registers an operation leaves are sound with its event in the trace, if I2C_ST has left IDLE for good. -/
theorem I2cUnit.Sound.of_used {u : I2cUnit} {tr : List Event} (hst : u.st ≠ .idle)
    (ackOwed : u.ap = 1#1 → u.st = .transferring ∧ u.dir = 1#1)
    (reading : u.dir = 1#1 → u.st = .addressed ∨ u.st = .transferring)
    (grammar : phaseOf tr = some u.phase) : u.Sound tr :=
  ⟨ackOwed, reading, fun h => absurd h hst, grammar⟩

section

variable {u : I2cUnit} {tr : List Event} (h : u.Sound tr) (p : I2cPins)

include h

theorem I2cUnit.Sound.start (hl : u.mayStart = true) : ({ u with pins := p }.afterStart).Sound (.iStart :: tr) := by
  have hp : u.phase.next .iStart = some .fresh := by
    have hst : u.st = .idle ∨ u.st = .stopped := by simpa [I2cUnit.mayStart] using hl
    rcases hst with hst | hst <;> simp [I2cUnit.phase, hst, Phase.next]
  exact .of_used (by simp [I2cUnit.afterStart]) (by simp [I2cUnit.afterStart]) (by simp [I2cUnit.afterStart])
    (phaseOf_cons h.grammar hp)

theorem I2cUnit.Sound.restart (hl : u.mayRestart = true) : ({ u with pins := p }.afterRestart).Sound (.iRestart :: tr) := by
  obtain ⟨ho, ha⟩ : u.addressedOrLater = true ∧ u.ap = 0#1 := by simpa [I2cUnit.mayRestart] using hl
  have hp : u.phase.next .iRestart = some .fresh := by
    rw [phase_of_addressedOrLater ho ha]
    split <;> rfl
  exact .of_used (by simp [I2cUnit.afterRestart]) (by simp [I2cUnit.afterRestart, ha]) (by simp [I2cUnit.afterRestart])
    (phaseOf_cons h.grammar hp)

theorem I2cUnit.Sound.send (hl : u.maySend = true) (b : Byte) (a : Bit) :
    ({ u with pins := p }.afterSend b a).Sound (.iTx b a :: tr) := by
  by_cases hst : u.st = .started
  · have ha : u.ap = 0#1 := h.ap_eq_zero (.inr (by simp [hst]))
    have hp : u.phase.next (.iTx b a) = some (if b.extractLsb' 0 1 = 0#1 then .write else .read) := by
      simp only [I2cUnit.phase, hst, Phase.next]
      split <;> rfl
    simp only [I2cUnit.afterSend, if_pos hst]
    exact .of_used (by simp) (by simp [ha]) (by simp) (phaseOf_cons h.grammar hp)
  · obtain ⟨ho, hd⟩ : u.addressedOrLater = true ∧ u.dir = 0#1 := by simpa [I2cUnit.maySend, hst] using hl
    have ha : u.ap = 0#1 := h.ap_eq_zero (.inl hd)
    have hp : u.phase.next (.iTx b a) = some .write := by
      rw [phase_of_addressedOrLater ho ha, if_pos hd]
      rfl
    simp only [I2cUnit.afterSend, if_neg hst]
    exact .of_used (by simp) (by simp [ha]) (by simp) (by simpa [I2cUnit.phase, hd] using phaseOf_cons h.grammar hp)

theorem I2cUnit.Sound.recv (hl : u.mayRecv = true) (d : Byte) :
    ({ u with pins := p }.afterRecv d).Sound (.iRx d :: tr) := by
  obtain ⟨⟨ho, hd⟩, ha⟩ : (u.addressedOrLater = true ∧ u.dir = 1#1) ∧ u.ap = 0#1 := by simpa [I2cUnit.mayRecv] using hl
  have hp : u.phase.next (.iRx d) = some .owed := by
    rw [phase_of_addressedOrLater ho ha, hd]
    rfl
  exact .of_used (by simp [I2cUnit.afterRecv]) (by simp [I2cUnit.afterRecv, hd]) (by simp [I2cUnit.afterRecv])
    (by simpa [I2cUnit.phase, I2cUnit.afterRecv, hd] using phaseOf_cons h.grammar hp)

theorem I2cUnit.Sound.ack (hl : u.mayAck = true) (k : Bit) : ({ u with pins := p }.afterAck).Sound (.iMack k :: tr) := by
  have ha : u.ap = 1#1 := by simpa [I2cUnit.mayAck] using hl
  obtain ⟨hst, hd⟩ := h.ackOwed ha
  have hp : u.phase.next (.iMack k) = some .read := by simp [I2cUnit.phase, hst, hd, ha, Phase.next]
  exact .of_used (by simp [I2cUnit.afterAck, hst]) (by simp [I2cUnit.afterAck]) (by simp [I2cUnit.afterAck, hst])
    (by simpa [I2cUnit.phase, I2cUnit.afterAck, hst, hd] using phaseOf_cons h.grammar hp)

theorem I2cUnit.Sound.stop (hl : u.mayStop = true) : ({ u with pins := p }.afterStop).Sound (.iStop :: tr) := by
  obtain ⟨hst, ha⟩ : (u.st = .started ∨ u.addressedOrLater = true) ∧ u.ap = 0#1 := by
    simpa [I2cUnit.mayStop] using hl
  have hp : u.phase.next .iStop = some .closed := by
    rcases hst with hst | ho
    · simp [I2cUnit.phase, hst, Phase.next]
    · rw [phase_of_addressedOrLater ho ha]
      split <;> rfl
  exact .of_used (by simp [I2cUnit.afterStop]) (by simp [I2cUnit.afterStop, ha]) (by simp [I2cUnit.afterStop])
    (phaseOf_cons h.grammar hp)

end

/-- A completed bus operation and its event keep the clauses (rule R57). -/
theorem I2cMove.sound {u u' : I2cUnit} {e : Event} {tr : List Event} (hm : I2cMove u e u') (h : u.Sound tr) :
    u'.Sound (e :: tr) := by
  cases hm with
  | start hl => exact h.start _ hl
  | restart hl => exact h.restart _ hl
  | send hl b a => exact h.send _ hl b a
  | recv hl d => exact h.recv _ hl d
  | ack hl k => exact h.ack _ hl k
  | stop hl => exact h.stop _ hl

/-! ### The I2C lines between commands (rules R39, R150) -/

/-- The lines at rest: SCL held low exactly while a transaction is open, the bit counter back at 0. -/
structure I2cUnit.AtRest (u : I2cUnit) : Prop where
  lines : u.pins.scl = 0#1 ↔ u.isOpen = true
  count : u.pins.bitcnt = 0#4

/-- A completed bus operation brings the lines back to rest (rules R151 to R156). -/
theorem I2cMove.atRest {u u' : I2cUnit} {e : Event} {tr : List Event} (hm : I2cMove u e u') (h : u.Sound tr)
    (hr : u.AtRest) : u'.AtRest := by
  cases hm with
  | start hl => exact ⟨by simp [run_startSteps, I2cUnit.afterStart, I2cUnit.isOpen], hr.count⟩
  | restart hl => exact ⟨by simp [run_restartSteps, I2cUnit.afterRestart, I2cUnit.isOpen], hr.count⟩
  | send hl b a =>
    rw [run_sendSteps]
    unfold I2cUnit.afterSend
    split <;> exact ⟨by simp [I2cUnit.isOpen, I2cUnit.addressedOrLater], rfl⟩
  | recv hl d =>
    rw [run_recvSteps]
    exact ⟨by simp [I2cUnit.afterRecv, I2cUnit.isOpen, I2cUnit.addressedOrLater], rfl⟩
  | ack hl k =>
    have hst : u.st = .transferring := (h.ackOwed (by simpa [I2cUnit.mayAck] using hl)).1
    exact ⟨by simp [run_ackSteps, I2cUnit.afterAck, I2cUnit.isOpen, I2cUnit.addressedOrLater, hst], hr.count⟩
  | stop hl =>
    exact ⟨by simp [run_stopSteps, I2cUnit.afterStop, I2cUnit.isOpen, I2cUnit.addressedOrLater], hr.count⟩

/-! ### The invariant of a state -/

theorem inv_iff (s : State) : Inv s ↔ s.text.wf ∧ s.fault.toNat ≤ 4 ∧ s.i2c.Sound s.trRev ∧
    (s.busy = 0#1 → s.i2c.AtRest) ∧ (s.busy = 1#1 → s.rsp = none ∧ s.fault = 0#4) := by
  constructor
  · intro h
    exact ⟨h.textWf, h.faultCode, ⟨h.ackOwed, h.reading, h.neverUsed, h.grammar⟩,
      fun hb => ⟨h.restLines hb, h.restCount hb⟩, h.hungQuiet⟩
  · rintro ⟨htext, hfault, hs, hr, hq⟩
    exact ⟨htext, hfault, hs.ackOwed, hs.reading, hs.neverUsed, hs.grammar, fun hb => (hr hb).lines,
      fun hb => (hr hb).count, hq⟩

theorem FaultCode.code_le (c : FaultCode) : c.code.toNat ≤ 4 := by cases c <;> decide

/-- The end of a command gives a state that meets the invariant, from a course that kept its clauses. -/
theorem inv_conclude (rsp : State → RspWord) {f : Flow} (htext : f.state.text.wf) (hfault : f.state.fault = 0#4)
    (hs : f.state.i2c.Sound f.state.trRev) (hr : f.ended = true → f.state.i2c.AtRest) : Inv (conclude rsp f) := by
  refine (inv_iff _).2 ⟨by simpa using htext, ?_, by simpa using hs, by simpa using hr, ?_⟩
  · cases f with
    | go t | hung t => exact (congrArg BitVec.toNat hfault).trans_le (by decide)
    | faulted c t => simpa [conclude, show t.fault = 0#4 from hfault] using c.code_le
  · cases f with
    | go t | faulted c t => intro hb; cases hb
    | hung t => exact fun _ => ⟨rfl, hfault⟩

/-- What a course does to the clauses, over the commands of every unit. -/
theorem Course.inv {s : State} {i : Instr} {f : Flow} (hc : Course s i f) (rsp : State → RspWord)
    (htext : s.text.wf) (hfault : s.fault = 0#4) (hs : s.i2c.Sound s.trRev) (hr : s.i2c.AtRest) :
    Inv (conclude rsp f) := by
  cases hc with
  | system h =>
    cases h with
    | answers | illegal => exact inv_conclude rsp htext hfault hs fun _ => hr
    | writesText a v => exact inv_conclude rsp (State.wf_writeText a v htext) hfault hs fun _ => hr
    | @writesReg r v t h =>
      have ht := writeReg_only h
      have hu : t.i2c = { s.i2c with div := t.i2c.div } := by rw [ht]
      refine inv_conclude rsp (f := .go t) ?_ ?_ ?_ fun _ => ?_
      · rw [Flow.state_go, ht]; exact htext
      · rw [Flow.state_go, ht]; exact hfault
      · rw [Flow.state_go, ht]; exact hs.of_eq rfl
      · rw [Flow.state_go, hu]; exact ⟨hr.lines, hr.count⟩
  | i2c h =>
    cases h with
    | forbidden => exact inv_conclude rsp htext hfault hs fun _ => hr
    | done hm => exact inv_conclude rsp htext hfault (hm.sound hs) fun _ => hm.atRest hs hr
    | held p => exact inv_conclude rsp htext hfault (hs.of_eq rfl) nofun
  | display h =>
    obtain ⟨hsame, es, htr, hes⟩ := h.textOnly
    have hi2c : f.state.i2c = s.i2c := by rw [hsame]
    refine inv_conclude rsp ?_ ?_ ?_ fun _ => ?_
    · rw [hsame]; exact htext
    · rw [hsame]; exact hfault
    · rw [hi2c, htr]; exact hs.append hes
    · rw [hi2c]; exact hr

end Sys2Proof.Machine
end

section
/-! The invariant is inductive: it holds after reset and every step keeps it (rules R57, R270, R284). -/

namespace Sys2Proof.Machine

/-- A state at the reset values the invariant speaks of meets it. -/
theorem inv_of_reset {s : State} (hi2c : s.i2c = I2cUnit.reset) (htext : s.text = []) (hfault : s.fault = 0#4)
    (hbusy : s.busy = 0#1) (htr : s.trRev = []) : Inv s := by
  refine (inv_iff s).2 ⟨by simp [htext, Memory.wf], by simp [hfault], ?_, fun _ => ?_, by simp [hbusy]⟩
  · rw [hi2c, htr]
    exact ⟨by decide, by decide, fun _ _ he => (nomatch he), rfl⟩
  · rw [hi2c]
    exact ⟨by decide, rfl⟩

/-- Settles O52: after reset the bus is idle, the trace empty, nothing latched. -/
theorem invAtReset : Obligations.InvAtReset := inv_of_reset rfl rfl rfl rfl rfl

/-- Settles O53, by what a step can do: only an accepted command moves unit U1, and its course keeps the clauses. -/
theorem invKeptByEveryStep : Obligations.InvKeptByEveryStep := by
  intro s t h hst
  obtain ⟨htext, hfault, hs, hr, hq⟩ := (inv_iff s).1 h
  cases stepTo_of_step hst with
  | reset => exact inv_of_reset rfl rfl rfl rfl rfl
  | waits => exact (inv_iff _).2 ⟨htext, hfault, hs, hr, fun hb => ⟨rfl, (hq hb).2⟩⟩
  | refuses hb => exact (inv_iff _).2 ⟨htext, hfault, hs, fun _ => hr hb, by simp⟩
  | illegal hb hf =>
    exact inv_conclude (fun _ => 0#24) (f := .faulted .illegalCmd s.nextInput.accept) htext hf hs fun _ => hr hb
  | executes hb hf hc rsp => exact hc.inv rsp htext hf hs (hr hb)

end Sys2Proof.Machine
end

section
/-! SUPPORT. The bus registers as mirrors of the trace (rules R36, R37, R40 to R42, R44), unit by unit. -/

namespace Sys2Proof.Machine

/-! ### Unit U1 -/

/-- Unit U1's registers say what the newest events of their kind say, throughout a command. -/
structure I2cUnit.Mirrors (u : I2cUnit) (tr : List Event) : Prop where
  ackstat : u.ackstat = lastAck tr
  rx      : u.rx = lastRx tr

/-- The lines rest where the newest I2C event leaves them (rule R150), between commands. -/
def I2cUnit.LinesMirror (u : I2cUnit) (tr : List Event) : Prop := (u.pins.scl, u.pins.sda) = restLevels tr

/-- An event of the other bus is no newest I2C event of any kind. -/
theorem newestI2c_append {es : List Event} (hes : ∀ e ∈ es, isI2cEvent e = false) (tr : List Event) :
    lastAck (es ++ tr) = lastAck tr ∧ lastRx (es ++ tr) = lastRx tr ∧ restLevels (es ++ tr) = restLevels tr := by
  induction es with
  | nil => exact ⟨rfl, rfl, rfl⟩
  | cons e es ih =>
    obtain ⟨he, hes'⟩ := List.forall_mem_cons.1 hes
    cases e with
    | sCs | sDc | sXfer | pix => exact ih hes'
    | iStart | iRestart | iTx | iRx | iMack | iStop => cases he

theorem I2cUnit.Mirrors.append {u : I2cUnit} {es tr : List Event} (h : u.Mirrors tr)
    (hes : ∀ e ∈ es, isI2cEvent e = false) : u.Mirrors (es ++ tr) := by
  obtain ⟨hack, hrx, -⟩ := newestI2c_append hes tr
  exact ⟨h.ackstat.trans hack.symm, h.rx.trans hrx.symm⟩

theorem I2cUnit.LinesMirror.append {u : I2cUnit} {es tr : List Event} (h : u.LinesMirror tr)
    (hes : ∀ e ∈ es, isI2cEvent e = false) : u.LinesMirror (es ++ tr) :=
  Eq.trans h (newestI2c_append hes tr).2.2.symm

/-- A completed bus operation moves the registers with its event (rules R135, R136). -/
theorem I2cMove.mirrors {u u' : I2cUnit} {e : Event} {tr : List Event} (hm : I2cMove u e u') (h : u.Mirrors tr) :
    u'.Mirrors (e :: tr) := by
  cases hm with
  | start | restart | ack | stop => exact ⟨h.ackstat, h.rx⟩
  | send _ b a =>
    unfold I2cUnit.afterSend
    split <;> exact ⟨rfl, h.rx⟩
  | recv => exact ⟨h.ackstat, rfl⟩

/-- A completed bus operation leaves the lines at the rest levels of its event (rules R151 to R156). -/
theorem I2cMove.linesMirror {u u' : I2cUnit} {e : Event} (hm : I2cMove u e u') (tr : List Event) :
    u'.LinesMirror (e :: tr) := by
  cases hm with
  | start | restart | ack | stop => rfl
  | send _ b a =>
    rw [run_sendSteps]
    unfold I2cUnit.afterSend
    split <;> rfl
  | recv _ d =>
    rw [run_recvSteps]
    rfl

/-! ### Unit U2 -/

/-- Unit U2's registers and pins say what the newest events of their kind say. -/
structure SpiUnit.Mirrors (u : SpiUnit) (p : Params) (tr : List Event) : Prop where
  csN     : u.csN = lastCs tr
  dc      : u.dc = lastDc tr
  rx      : u.rx = (lastXfer tr).2
  mosi    : u.pins.mosi = lastBit p (lastXfer tr).1
  sckRest : u.pins.sck = p.sckIdle
  idle    : u.pins.bitcnt = 0#4

theorem SpiUnit.Mirrors.of_eq {u u' : SpiUnit} {p : Params} {tr : List Event} (h : u.Mirrors p tr)
    (hu : u' = { u with div := u'.div }) : u'.Mirrors p tr := by
  rw [hu]
  exact ⟨h.csN, h.dc, h.rx, h.mosi, h.sckRest, h.idle⟩

/-- An I2C event is no newest event of unit U2. -/
theorem I2cMove.spiMirrors {v v' : I2cUnit} {e : Event} (hm : I2cMove v e v') {u : SpiUnit} {p : Params}
    {tr : List Event} (h : u.Mirrors p tr) : u.Mirrors p (e :: tr) := by
  cases hm <;> exact ⟨h.csN, h.dc, h.rx, h.mosi, h.sckRest, h.idle⟩

/-- Each move of unit U2 emits the event it leaves its registers at (rules R171 to R173). -/
theorem SpiMove.mirrors {s t : State} (hm : SpiMove s t) (h : s.spi.Mirrors s.cfg s.trRev) :
    t.spi.Mirrors t.cfg t.trRev := by
  cases hm with
  | cs l => exact ⟨rfl, h.dc, h.rx, h.mosi, h.sckRest, h.idle⟩
  | dc l => exact ⟨h.csN, rfl, h.rx, h.mosi, h.sckRest, h.idle⟩
  | pix | lost => exact ⟨h.csN, h.dc, h.rx, h.mosi, h.sckRest, h.idle⟩
  | xfer o m => exact ⟨h.csN, h.dc, rfl, rfl, rfl, rfl⟩

theorem DrawPath.spiMirrors {s t : State} (hp : DrawPath s t) (h : s.spi.Mirrors s.cfg s.trRev) :
    t.spi.Mirrors t.cfg t.trRev := by
  induction hp with
  | refl => exact h
  | tail _ hm ih =>
    cases hm with
    | spi hm => exact hm.mirrors ih
    | regs => exact ih

/-! ### The mirrors of a state -/

theorem mirrors_iff (s : State) : Mirrors s ↔ s.i2c.Mirrors s.trRev ∧ s.spi.Mirrors s.cfg s.trRev ∧
    (s.busy = 0#1 → s.i2c.LinesMirror s.trRev) := by
  constructor
  · intro h
    exact ⟨⟨h.ackstat, h.i2cRx⟩, ⟨h.csN, h.dc, h.spiRx, h.mosi, h.sckRest, h.spiIdle⟩, h.lines⟩
  · rintro ⟨hi, hs, hl⟩
    exact ⟨hi.ackstat, hi.rx, hs.csN, hs.dc, hs.rx, hs.mosi, hs.sckRest, hs.idle, hl⟩

theorem mirrors_conclude (rsp : State → RspWord) {f : Flow} (hi : f.state.i2c.Mirrors f.state.trRev)
    (hs : f.state.spi.Mirrors f.state.cfg f.state.trRev)
    (hl : f.ended = true → f.state.i2c.LinesMirror f.state.trRev) : Mirrors (conclude rsp f) :=
  (mirrors_iff _).2 ⟨by simpa using hi, by simpa using hs, by simpa using hl⟩

/-- What a course does to the mirrors, over the commands of every unit. -/
theorem Course.mirrors {s : State} {i : Instr} {f : Flow} (hc : Course s i f) (rsp : State → RspWord)
    (hi : s.i2c.Mirrors s.trRev) (hs : s.spi.Mirrors s.cfg s.trRev) (hl : s.i2c.LinesMirror s.trRev) :
    Mirrors (conclude rsp f) := by
  cases hc with
  | system h =>
    cases h with
    | answers | illegal | writesText => exact mirrors_conclude rsp hi hs fun _ => hl
    | @writesReg r v t h =>
      refine mirrors_conclude rsp (f := .go t) ?_ ?_ fun _ => ?_ <;> rw [Flow.state_go, writeReg_only h]
      · exact ⟨hi.ackstat, hi.rx⟩
      · exact hs.of_eq rfl
      · exact hl
  | i2c h =>
    cases h with
    | forbidden => exact mirrors_conclude rsp hi hs fun _ => hl
    | done hm => exact mirrors_conclude rsp (hm.mirrors hi) (hm.spiMirrors hs) fun _ => hm.linesMirror _
    | held p => exact mirrors_conclude rsp ⟨hi.ackstat, hi.rx⟩ hs nofun
  | display h =>
    obtain ⟨hsame, es, htr, hes⟩ := h.textOnly
    have hi2c : f.state.i2c = s.i2c := by rw [hsame]
    refine mirrors_conclude rsp ?_ (h.spiMirrors hs) fun _ => ?_ <;> rw [hi2c, htr]
    · exact hi.append hes
    · exact hl.append hes

end Sys2Proof.Machine
end

section
/-! Each bus register agrees with the trace, after reset and after every step (rules R36, R37, R40 to R42, R44, R150). -/

namespace Sys2Proof.Machine

theorem mirrors_of_reset {s : State} (hi2c : s.i2c = I2cUnit.reset)
    (hspi : s.spi = { SpiUnit.reset with pins := SpiPins.atReset s.cfg }) (htr : s.trRev = []) : Mirrors s := by
  refine (mirrors_iff s).2 ⟨?_, ?_, fun _ => ?_⟩
  · rw [hi2c, htr]
    exact ⟨rfl, rfl⟩
  · have hbit : lastBit s.cfg 0x00#8 = 0#1 := by unfold lastBit; split <;> rfl
    rw [hspi, htr]
    exact ⟨rfl, rfl, rfl, hbit.symm, rfl, rfl⟩
  · rw [hi2c, htr]
    rfl

/-- Settles O54: every register holds what the empty trace stands for. -/
theorem mirrorsAtReset : Obligations.MirrorsAtReset := mirrors_of_reset rfl rfl rfl

/-- Settles O55, by what a step can do: only an accepted command moves a bus register, each with its event. -/
theorem mirrorsKeptByEveryStep : Obligations.MirrorsKeptByEveryStep := by
  intro s t h hst
  obtain ⟨hi, hs, hl⟩ := (mirrors_iff s).1 h
  cases stepTo_of_step hst with
  | reset => exact mirrors_of_reset rfl rfl rfl
  | waits => exact (mirrors_iff _).2 ⟨hi, hs, hl⟩
  | refuses hb | illegal hb => exact (mirrors_iff _).2 ⟨hi, hs, fun _ => hl hb⟩
  | executes hb hf hc rsp => exact hc.mirrors rsp hi hs (hl hb)

end Sys2Proof.Machine
end

section
/-! Rules over all commands and the reset table: the trace only grows (rules R50, R80), each unit's registers are its own
(rules R30, R311), and reset gives the values of rules R55 and R301. -/

namespace Sys2Proof.Machine

open Sys2Proof.Claims

theorem Kept.trace {s t : State} (h : Kept s t) : ∃ es, t.trace = s.trace ++ es := by
  obtain ⟨es, he⟩ := h.events
  exact ⟨es.reverse, by simp [State.trace, he]⟩

/-- Settles O12: of all a step can do, reset alone takes events away; a course appends its own. -/
theorem traceOnlyGrows : Obligations.TraceOnlyGrows := by
  intro s t hst hr
  have unchanged : ∃ es, s.trace = s.trace ++ es := ⟨[], (List.append_nil _).symm⟩
  cases stepTo_of_step hst with
  | reset hr' => exact absurd hr' hr
  | waits | refuses | illegal => exact unchanged
  | executes _ _ hc rsp =>
    obtain ⟨es, he⟩ := hc.kept.trace
    exact ⟨es, by simpa [State.trace] using he⟩

/-! ### What a command of each owner leaves alone (rule R30) -/

section

variable {i : Instr} {s t : State} (ht : exec i s = .next t)

include ht

/-- A system command reaches TEXT, FG, BG and the divisors, the last four by WR_REG alone and TEXT by TXT_WR alone. -/
theorem exec_system_frame (h : ownerOf i = .front) :
    t.i2c = { s.i2c with div := t.i2c.div } ∧ t.spi = { s.spi with div := t.spi.div } ∧
    t.ras = { s.ras with fg := t.ras.fg, bg := t.ras.bg } ∧
    ((∀ r v, i ≠ .wrReg r v) → t.i2c = s.i2c ∧ t.spi = s.spi ∧ t.ras = s.ras) ∧
    ((∀ a v, i ≠ .txtWr a v) → t.text = s.text) := by
  obtain ⟨rsp, f, hx, hc⟩ := exec_system h s
  cases hx.symm.trans ht
  simp only [conclude_i2c, conclude_spi, conclude_ras, conclude_text]
  cases hc with
  | answers | illegal => exact ⟨rfl, rfl, rfl, fun _ => ⟨rfl, rfl, rfl⟩, fun _ => rfl⟩
  | writesText a v => exact ⟨rfl, rfl, rfl, fun _ => ⟨rfl, rfl, rfl⟩, fun hn => absurd rfl (hn a v)⟩
  | @writesReg r v t hw =>
    rw [Flow.state_go, writeReg_only hw]
    exact ⟨rfl, rfl, rfl, fun hn => absurd rfl (hn r v), fun _ => rfl⟩

/-- An I2C command reaches unit U1 alone, its divisor excepted. -/
theorem exec_i2c_frame (h : ownerOf i = .i2c) :
    t.i2c.div = s.i2c.div ∧ t.spi = s.spi ∧ t.ras = s.ras ∧ t.text = s.text := by
  obtain ⟨rsp, f, hx, hc⟩ := exec_i2c h s
  cases hx.symm.trans ht
  simp only [conclude_i2c, conclude_spi, conclude_ras, conclude_text]
  cases hc with
  | forbidden | held => exact ⟨rfl, rfl, rfl, rfl⟩
  | done hm => exact ⟨hm.div, rfl, rfl, rfl⟩

/-- An SPI or display command reaches unit U2 alone, its divisor excepted. -/
theorem exec_spi_frame (h : ownerOf i = .spi) :
    t.i2c = s.i2c ∧ t.spi.div = s.spi.div ∧ t.ras = s.ras ∧ t.text = s.text := by
  obtain ⟨rsp, f, hx, hp⟩ := exec_spi h s
  cases hx.symm.trans ht
  simp only [conclude_i2c, conclude_spi, conclude_ras, conclude_text]
  rw [hp.same]
  exact ⟨rfl, rfl, rfl, rfl⟩

/-- A draw reaches units U2 and U3, but no divisor, not FG and not BG. -/
theorem exec_draw_frame (h : ownerOf i = .raster) :
    t.i2c = s.i2c ∧ t.spi.div = s.spi.div ∧ t.ras.fg = s.ras.fg ∧ t.ras.bg = s.ras.bg ∧ t.text = s.text := by
  obtain ⟨rsp, f, hx, hp⟩ := exec_draw h s
  cases hx.symm.trans ht
  simp only [conclude_i2c, conclude_spi, conclude_ras, conclude_text]
  rw [hp.textOnly.same]
  exact ⟨rfl, rfl, rfl, rfl, rfl⟩

end

/-- DRAW_CHAR leaves the cursor where it is (rule R226). -/
theorem exec_drawChar_cursor {x y : Half} {c : Byte} {s t : State} (ht : exec (.drawChar x y c) s = .next t) :
    t.ras.curX = s.ras.curX ∧ t.ras.curY = s.ras.curY := by
  obtain rfl := Host.Outcome.next.inj ht
  rw [conclude_ras, (DisplayOnly.drawGlyph x y c s).same]
  exact ⟨rfl, rfl⟩

/-- Settles O48, owner by owner of the command. -/
theorem unitsOwnTheirRegisters : Obligations.UnitsOwnTheirRegisters := by
  intro i s t ht
  have hk : t.cfg = s.cfg ∧ t.epoch = s.epoch ∧ t.inputs = s.inputs := by
    obtain ⟨rsp, f, hx, hc⟩ := exec_owned i s
    cases hx.symm.trans ht
    simpa using ⟨hc.kept.cfg, hc.kept.epoch, hc.kept.inputs⟩
  rw [isI2c_iff_owner, isSystem_iff_owner, isDraw_iff_owner]
  cases ho : ownerOf i with
  | front =>
    obtain ⟨hi2c, hspi, hras, hreg, htext⟩ := exec_system_frame ht ho
    refine ⟨fun _ => by rw [hi2c], fun _ => by rw [hspi], fun hn => ?_, fun _ => by rw [hras]; exact ⟨rfl, rfl⟩,
      fun _ => hras, htext, hk⟩
    obtain ⟨hi2c, hspi, hras⟩ := hreg hn
    rw [hi2c, hspi, hras]
    exact ⟨rfl, rfl, rfl, rfl⟩
  | i2c =>
    obtain ⟨hdiv, hspi, hras, htext⟩ := exec_i2c_frame ht ho
    exact ⟨fun hn => absurd rfl hn, fun _ => by rw [hspi], fun _ => ⟨hdiv, by rw [hspi], by rw [hras], by rw [hras]⟩,
      fun _ => by rw [hras]; exact ⟨rfl, rfl⟩, fun _ => by rw [hras], fun _ => htext, hk⟩
  | spi =>
    obtain ⟨hi2c, hdiv, hras, htext⟩ := exec_spi_frame ht ho
    exact ⟨fun _ => by rw [hi2c], by simp, fun _ => ⟨by rw [hi2c], hdiv, by rw [hras], by rw [hras]⟩,
      fun _ => by rw [hras]; exact ⟨rfl, rfl⟩, fun _ => by rw [hras], fun _ => htext, hk⟩
  | raster =>
    obtain ⟨hi2c, hdiv, hfg, hbg, htext⟩ := exec_draw_frame ht ho
    refine ⟨fun _ => by rw [hi2c], by simp, fun _ => ⟨by rw [hi2c], hdiv, hfg, hbg⟩, fun hn => ?_,
      fun hn => absurd rfl hn, fun _ => htext, hk⟩
    obtain ⟨x, y, c, rfl⟩ | ⟨x, y, p, rfl⟩ := (isDraw_iff_owner i).2 ho
    · exact exec_drawChar_cursor ht
    · exact absurd rfl (hn x y p)

/-! ### Reset -/

/-- The reset state has the values of rule R55 and the levels of rule R301 whatever the model's own fields are, the
parameters deciding the level of SCK. -/
theorem resetValues_of_params (p : Params) (epoch : Nat) (env : List EnvAnswer) (inputs : List HostInput) :
    ResetValues { State.reset with
      spi.pins := SpiPins.atReset p, cfg := p, epoch := epoch, env := env, inputs := inputs } where
  i2c := ⟨rfl, rfl, rfl, rfl, rfl, rfl, rfl, rfl⟩
  lines := ⟨rfl, rfl⟩
  spi := ⟨rfl, rfl, rfl, rfl, rfl, rfl, rfl, rfl⟩
  ras := ⟨rfl, rfl, rfl, rfl⟩
  front := ⟨rfl, rfl, rfl⟩
  ports := by simp only [State.ports]; rfl
  status := (by decide : State.reset.status = 0x00C0#16)

theorem resetValues_reset : ResetValues State.reset := resetValues_of_params Config.params 0 [] []

theorem resetValues_applyReset (s : State) : ResetValues s.applyReset :=
  resetValues_of_params s.cfg (s.epoch + 1) s.env s.inputs

/-- Settles O10: a step in which the host resets is `applyReset` of the state with that action taken. -/
theorem resetGivesTheTableValues : Obligations.ResetGivesTheTableValues := by
  refine ⟨resetValues_reset, rfl, fun s rest hin => ⟨s.nextInput.applyReset, ?_, resetValues_applyReset _, rfl, ?_, rfl⟩⟩
  · simp [step, react, hin]
  · exact (congrArg List.tail hin : s.inputs.tail = rest)

end Sys2Proof.Machine
end

section
/-! The text memory, the parameters, and the command an accepted word stands for (rules R72, R73, R80, R255, R256). -/

namespace Sys2Proof.Machine

/-! ### The command port -/

/-- An accepted word executes as the command it decodes to (rules R80, R281). -/
theorem step_of_command {s : State} {w : CmdWord} {i : Instr} (hin : s.inputs.head? = some (.command w))
    (hb : s.busy = 0#1) (hf : s.fault = 0#4) (hd : decode w = .ok i) : step s = exec i s.nextInput.accept := by
  simp [step, react, present, hin, hb, hf, hd]

/-- Settles O6: `withFetchWord` puts the word in front of the host's actions, and taking it gives them back. -/
theorem stepRunsTheDecodedCommand : Obligations.StepRunsTheDecodedCommand := by
  intro s w i hb hf hd
  constructor
  · intro rest hin
    rw [step_of_command (by rw [hin]; rfl) hb hf hd]
    simp [State.nextInput, State.accept, hin]
  · rintro nbits n rfl
    exact step_of_command (s := s.withFetchWord nbits n) rfl hb hf hd

/-! ### The text memory -/

/-- A write to another index leaves what an index of TEXT reads as (rule R72). -/
theorem State.readText_writeText_of_ne (s : State) {a b : Byte} (v : Byte) (h : b ≠ a) :
    (s.writeText a v).readText b = s.readText b := by
  rw [State.readText_writeText, if_neg h]

/-- Of all commands only TXT_WR of an index changes what that index reads as (rules R72, R255). -/
theorem Course.readText {s : State} {i : Instr} {f : Flow} (hc : Course s i f) {a : Byte}
    (hi : ∀ v, i ≠ .txtWr a v) : f.state.readText a = s.readText a := by
  cases hc with
  | system h =>
    cases h with
    | answers | illegal => rfl
    | writesReg h => rw [Flow.state_go, writeReg_only h]; rfl
    | writesText b v => exact s.readText_writeText_of_ne v fun hab => hi v (by rw [hab])
  | i2c h => cases h <;> rfl
  | display h => rw [h.textOnly.same]; rfl

theorem exec_readText {i : Instr} {s t : State} (ht : exec i s = .next t) {a : Byte} (hi : ∀ v, i ≠ .txtWr a v) :
    t.readText a = s.readText a := by
  obtain ⟨rsp, f, hx, hc⟩ := exec_owned i s
  cases hx.symm.trans ht
  calc (conclude rsp f).readText a = f.state.readText a := State.readText_congr (by simp) (by simp) a
    _ = s.readText a := hc.readText hi

/-- Settles O21, by what a step can do: short of a reset only an executed command reaches TEXT. -/
theorem textKeptUntilWritten : Obligations.TextKeptUntilWritten := by
  intro s t a hst hr hw
  rcases step_cases s with ⟨hr', -⟩ | ⟨-, -, he⟩ | ⟨w, -, -, -, he⟩ | ⟨w, e, -, -, -, -, he⟩ | ⟨w, i, hin, -, -, hd, he⟩
  · exact absurd hr' hr
  · cases he.symm.trans hst; rfl
  · cases he.symm.trans hst; rfl
  · cases he.symm.trans hst; rfl
  · have hi : ∀ v, i ≠ .txtWr a v := fun v hv => hw w v hin (hv ▸ hd)
    exact exec_readText (he.symm.trans hst) hi

/-! ### The parameters -/

/-- Settles O51: reset copies the parameters, and every course of a command keeps them. -/
theorem parametersNeverChange : Obligations.ParametersNeverChange := by
  intro s t hst
  cases stepTo_of_step hst with
  | reset | waits | refuses | illegal => rfl
  | executes _ _ hc rsp =>
    rw [conclude_cfg]
    exact hc.kept.cfg

end Sys2Proof.Machine
end

section
/-! SUPPORT. The opcode table as a list of rows: a word decodes exactly where it matches a row (rule R105), the bits a row's
command takes from its word (rule R102), and the operands a command's word holds (rule R103). -/

namespace Sys2Proof

open Sys2Proof.Claims

/-! ### Rows and the words they match -/

/-- A word shows a row's opcode and has the reserved bits of its format at 0 (rule R105). -/
def Row.Matches (r : Row) (w : CmdWord) : Prop := field 64 8 w = r.op ∧ w &&& r.format.reserved = 0#72

/-- The table has one row for each opcode, so looking a row up by its opcode finds it. -/
theorem rowOf_op {r : Row} (hr : r ∈ opTable) : rowOf r.op = some r := by
  fin_cases hr <;> rfl

/-- Decoding, read as the search of a matching row (rule R105). -/
theorem decode_eq_ok_iff {w : CmdWord} {i : Instr} :
    decode w = .ok i ↔ ∃ r ∈ opTable, r.Matches w ∧ r.build w = i := by
  constructor
  · intro h
    unfold decode at h
    split at h
    next => cases h
    next r hrow =>
      split at h
      next hres =>
        obtain ⟨hr, hop⟩ := rowOf_mem hrow
        exact ⟨r, hr, ⟨hop.symm, hres⟩, Except.ok.inj h⟩
      next => cases h
  · rintro ⟨r, hr, ⟨hop, hres⟩, rfl⟩
    simp [decode, hop, rowOf_op hr, hres]

/-! ### Reserved bits -/

/-- No format reserves a bit of the opcode field (rules R101, R102). -/
theorem Format.lt_of_reservedAt {f : Format} {n : Nat} (h : f.reservedAt n = true) : n < 64 := by
  cases f <;> simp [Format.reservedAt] at h <;> omega

theorem and_reserved_eq_zero_iff {w : CmdWord} {f : Format} :
    w &&& f.reserved = 0#72 ↔ ∀ n, f.reservedAt n = true → w.getLsbD n = false := by
  constructor
  · intro h n hn
    have hlt : n < 72 := (Format.lt_of_reservedAt hn).trans (by decide)
    simpa [getLsbD_reserved f n hlt, hn] using congrArg (BitVec.getLsbD · n) h
  · intro h
    apply BitVec.eq_of_getLsbD_eq
    intro n hn
    cases hf : f.reservedAt n <;> simp [getLsbD_reserved f n hn, hf, h]

/-! ### The command a row builds -/

theorem Row.opcode_build {r : Row} (hr : r ∈ opTable) (w : CmdWord) : (r.build w).opcode = r.op := by
  fin_cases hr <;> rfl

/-- A row's operand fields are the bits its format does not reserve (rule R102). Row by row, both sides are a comparison of the
bit number with the bounds of the row's fields. -/
theorem Row.operandBit_build {r : Row} (hr : r ∈ opTable) (w : CmdWord) {n : Nat} (hn : n < 64) :
    (r.build w).operandBit n = (!r.format.reservedAt n && w.getLsbD n) := by
  fin_cases hr
  all_goals simp only [Instr.operandBit, Format.reservedAt, getLsbD_field, Nat.zero_add]
  all_goals grind

/-! ### The operands a command's word holds -/

/-- Bit by bit, a field of a command's word is what the command holds there (rules R101, R102). -/
theorem field_encode {i : Instr} {lo k : Nat} {v : BitVec k} (hk : lo + k ≤ 64)
    (h : ∀ n < k, i.operandBit (lo + n) = v.getLsbD n) : field lo k (encode i) = v := by
  apply BitVec.eq_of_getLsbD_eq
  intro n hn
  rw [getLsbD_field, getLsbD_encode, if_pos (by omega), getLsbD_operands, h n hn]
  simp [hn]

/-- Every command has a row (rule R104). -/
theorem exists_rowOf_opcode (i : Instr) : ∃ r, rowOf i.opcode = some r := by
  cases i <;> exact ⟨_, rfl⟩

/-- A command has no operand at a bit its row's format reserves (rule R102). -/
theorem operandBit_of_reservedAt {i : Instr} {r : Row} (h : rowOf i.opcode = some r) {n : Nat}
    (hn : r.format.reservedAt n = true) : i.operandBit n = false := by
  cases i <;> obtain rfl := Option.some.inj h
  all_goals simp only [Instr.operandBit]
  all_goals simp only [Format.reservedAt] at hn
  all_goals grind

/-- A row gives its command back from the command's word, operand by operand (rules R102, R103): each operand is the field of
the word at its own offset. -/
theorem build_encode {i : Instr} {r : Row} (h : rowOf i.opcode = some r) : r.build (encode i) = i := by
  cases i <;> obtain rfl := Option.some.inj h
  case nop | i2cStart | i2cRestart | i2cRecv | i2cStop => rfl
  all_goals
    dsimp only
    congr 1
  all_goals
    refine field_encode (by decide) fun n hn => ?_
    simp only [Instr.operandBit, Nat.zero_add]
  all_goals grind

/-! ### The rows of spec/opcode_table.json -/

/-- The mnemonic of a row's commands (rule R104). -/
def Row.mnemonic (r : Row) : String := (r.build 0#72).mnemonic

/-- The mask of a format: the opcode bits and the reserved ones (rule R105). -/
def Format.mask (f : Format) : CmdWord := 0xFF0000000000000000#72 ||| f.reserved

/-- The rows of the file are those of the decoder, in the same order. -/
theorem tableRows_eq : tableRows = opTable.map fun r => (r.mnemonic, r.op ++ 0#64, r.format.mask) := by
  decide

/-- A row builds commands of its own mnemonic alone. -/
theorem Row.mnemonic_build {r : Row} (hr : r ∈ opTable) (w : CmdWord) : (r.build w).mnemonic = r.mnemonic := by
  fin_cases hr <;> rfl

theorem mnemonic_nodup : (opTable.map Row.mnemonic).Nodup := by
  decide

theorem Row.eq_of_mnemonic_eq {r q : Row} (hr : r ∈ opTable) (hq : q ∈ opTable) (h : r.mnemonic = q.mnemonic) : r = q :=
  List.inj_on_of_nodup_map mnemonic_nodup hr hq h

theorem Format.getLsbD_mask (f : Format) : ∀ n < 72, f.mask.getLsbD n = (decide (64 ≤ n) || f.reservedAt n) := by
  cases f <;> decide

/-- Matching a row is one comparison under its mask (rule R105, last sentence). -/
theorem Row.matches_iff {r : Row} {w : CmdWord} : r.Matches w ↔ w &&& r.format.mask = r.op ++ 0#64 := by
  rw [Row.Matches, and_reserved_eq_zero_iff]
  constructor
  · rintro ⟨hop, hres⟩
    apply BitVec.eq_of_getLsbD_eq
    intro n hn
    rw [← hop, BitVec.getLsbD_and, Format.getLsbD_mask _ n hn, BitVec.getLsbD_append, getLsbD_field]
    grind
  · intro h
    have bit (n : Nat) (hn : n < 72) : (w.getLsbD n && (decide (64 ≤ n) || r.format.reservedAt n)) =
        if n < 64 then false else r.op.getLsbD (n - 64) := by
      have h' := congrArg (BitVec.getLsbD · n) h
      rwa [BitVec.getLsbD_and, Format.getLsbD_mask _ n hn, BitVec.getLsbD_append, BitVec.getLsbD_zero] at h'
    constructor
    · apply BitVec.eq_of_getLsbD_eq
      intro n hn
      rw [getLsbD_field]
      simpa [hn] using bit (64 + n) (by omega)
    · intro n hn
      have hlt : n < 64 := Format.lt_of_reservedAt hn
      simpa [hn, hlt] using bit n (by omega)

/-- A word decodes to a command of a row's mnemonic where it matches that row. -/
theorem decode_mnemonic_iff {r : Row} (hr : r ∈ opTable) {w : CmdWord} :
    (∃ i, decode w = .ok i ∧ i.mnemonic = r.mnemonic) ↔ r.Matches w := by
  constructor
  · rintro ⟨i, hd, hm⟩
    obtain ⟨q, hq, hw, rfl⟩ := decode_eq_ok_iff.1 hd
    obtain rfl := Row.eq_of_mnemonic_eq hq hr ((Row.mnemonic_build hq w).symm.trans hm)
    exact hw
  · intro hw
    exact ⟨r.build w, decode_eq_ok_iff.2 ⟨r, hr, hw, rfl⟩, Row.mnemonic_build hr w⟩

/-- A word is illegal where it matches no row (rules R105, R106). -/
theorem decode_eq_error_iff {w : CmdWord} : (∃ e, decode w = .error e) ↔ ∀ r ∈ opTable, ¬r.Matches w := by
  cases hd : decode w with
  | ok i =>
    obtain ⟨r, hr, hw, -⟩ := decode_eq_ok_iff.1 hd
    simpa using ⟨r, hr, hw⟩
  | error e =>
    refine iff_of_true ⟨e, rfl⟩ fun r hr hw => ?_
    have hd' : decode w = .ok (r.build w) := decode_eq_ok_iff.2 ⟨r, hr, hw, rfl⟩
    cases hd.symm.trans hd'

end Sys2Proof
end

section
/-! Encoding and decoding are inverse, and the opcode table decides which word decodes to what (rules R101 to R106). -/

namespace Sys2Proof

/-- Settles O1: the row of the command's opcode matches the word, and its operand fields are the command's operands. -/
theorem decodeOfEncode : Obligations.DecodeOfEncode := by
  intro i
  obtain ⟨r, hrow⟩ := exists_rowOf_opcode i
  obtain ⟨hr, hop⟩ := rowOf_mem hrow
  refine decode_eq_ok_iff.2 ⟨r, hr, ⟨(field_opcode_encode i).trans hop.symm, ?_⟩, build_encode hrow⟩
  refine and_reserved_eq_zero_iff.2 fun n hn => ?_
  rw [getLsbD_encode, if_pos (Format.lt_of_reservedAt hn), getLsbD_operands, operandBit_of_reservedAt hrow hn]

/-- Settles O2: below bit 64 a word that matches its row holds the operands of the row's command and no more, above it the
opcode. -/
theorem encodeOfDecode : Obligations.EncodeOfDecode := by
  intro w i h
  obtain ⟨r, hr, ⟨hop, hres⟩, rfl⟩ := decode_eq_ok_iff.1 h
  apply BitVec.eq_of_getLsbD_eq
  intro n hn
  rw [getLsbD_encode]
  split
  next hlt =>
    rw [getLsbD_operands, Row.operandBit_build hr w hlt]
    cases hf : r.format.reservedAt n
    · simp
    · simp [and_reserved_eq_zero_iff.1 hres n hf]
  next hge =>
    rw [Row.opcode_build hr, ← hop, getLsbD_field, Nat.add_sub_cancel' (Nat.not_lt.1 hge)]
    simp [show n - 64 < 8 by omega]

/-- Settles O3: the rows of the file are those of the decoder, and a row is matched under its mask. -/
theorem tableRowsDecideDecoding : Obligations.TableRowsDecideDecoding := by
  unfold Obligations.TableRowsDecideDecoding
  simp only [tableRows_eq, List.forall_mem_map, ← Row.matches_iff, ne_eq]
  exact ⟨fun r hr w => decode_mnemonic_iff hr, fun w => decode_eq_error_iff⟩

/-- Settles O4, each word by running the decoder on it. -/
theorem sampleWordsDecode : Obligations.SampleWordsDecode := by
  unfold Obligations.SampleWordsDecode
  decide

end Sys2Proof
end

section
/-! The pseudo-instructions (rule R114). -/

namespace Sys2Proof

@[simp] theorem Pseudo.length_store (a : Byte) (str : List Byte) : (Pseudo.store a str).length = str.length := by
  induction str generalizing a with
  | nil => rfl
  | cons c str ih => simp [Pseudo.store, ih]

/-- The bytes are stored at ascending indices. -/
theorem Pseudo.getElem?_store (a : Byte) (str : List Byte) (k : Nat) :
    (Pseudo.store a str)[k]? = str[k]?.map (.txtWr (BitVec.ofNat 8 (a.toNat + k))) := by
  induction str generalizing a k with
  | nil => rfl
  | cons c str ih =>
    cases k with
    | zero => simp [Pseudo.store]
    | succ k =>
      have hidx : BitVec.ofNat 8 ((a + 1#8).toNat + k) = BitVec.ofNat 8 (a.toNat + (k + 1)) := by
        apply BitVec.eq_of_toNat_eq
        simp only [BitVec.toNat_ofNat, BitVec.toNat_add]
        omega
      simp only [Pseudo.store, List.getElem?_cons_succ, ih, hidx]

/-- The address byte of I2C_ADDR: seven address bits and the direction (rule R114). -/
theorem toNat_addressByte (a7 : BitVec 7) (d : Bit) : (a7 ++ d).toNat = 2 * a7.toNat + d.toNat := by
  rw [BitVec.toNat_append, ← Nat.shiftLeft_add_eq_or_of_lt d.isLt, Nat.shiftLeft_eq]
  omega

/-- Settles O5: TXT_STR by what `Pseudo.store` holds at each index, the rest row by row. -/
theorem pseudoInstructionsExpand : Obligations.PseudoInstructionsExpand := by
  refine ⟨fun a7 d => ⟨a7 ++ d, rfl, toNat_addressByte a7 d⟩, rfl, rfl, rfl, rfl, fun c => ⟨rfl, rfl⟩,
    fun a str => ⟨fun h => if_pos h, fun h => ?_⟩⟩
  refine ⟨Pseudo.store a (str ++ [0x00#8]), if_neg (Nat.not_lt.2 h), by simp, fun k ch hk => ?_, ?_⟩
  · have hlt : k < str.length := (List.getElem?_eq_some_iff.1 hk).1
    rw [Pseudo.getElem?_store, List.getElem?_append_left hlt, hk, Option.map_some]
  · rw [Pseudo.getElem?_store, List.getElem?_concat_length, Option.map_some]

end Sys2Proof
end

section
/-! What a step answers at the command port (rules R100, R110, R111). -/

namespace Sys2Proof.Machine

/-! ### The fields of a response word (rule R110) -/

theorem getLsbD_response (st : BitVec 4) (a : Bit) (d : Half) (n : Nat) : (response st a d).getLsbD n =
    if n < 16 then d.getLsbD n else if n < 17 then a.getLsbD (n - 16)
    else if n < 20 then false else st.getLsbD (n - 20) := by
  unfold response
  rw [BitVec.getLsbD_append, BitVec.getLsbD_append, BitVec.getLsbD_append]
  grind

theorem response_fields (st : BitVec 4) (a : Bit) (d : Half) :
    (response st a d).extractLsb' 20 4 = st ∧ (response st a d).extractLsb' 17 3 = 0#3 ∧
    (response st a d).extractLsb' 16 1 = a ∧ (response st a d).extractLsb' 0 16 = d := by
  refine ⟨?_, ?_, ?_, ?_⟩
  all_goals
    apply BitVec.eq_of_getLsbD_eq
    intro n hn
    rw [BitVec.getLsbD_extractLsb', getLsbD_response]
    grind

theorem FaultCode.code_pos (c : FaultCode) : 1 ≤ c.code.toNat := by cases c <;> decide

/-! ### The end of a command and the answer of a step -/

/-- How an accepted command ends (rules R110, R280, R284): answered OK, with a fault that is now latched, or hung. -/
inductive CommandEnd (t : State) : Prop
  | ok (a : Bit) (d : Half) (hr : t.rsp = some (okResponse a d)) (hb : t.busy = 0#1)
  | fault (c : FaultCode) (hr : t.rsp = some (response c.code 0#1 0#16)) (hb : t.busy = 0#1) (hf : t.fault = c.code)
  | hangs (hr : t.rsp = none) (hb : t.busy = 1#1) (hf : t.fault = 0#4)

/-- A raised fault is latched where none was (rule R280). -/
theorem raise_commandEnd {s : State} (hf : s.fault = 0#4) (c : FaultCode) : CommandEnd (s.raise c) :=
  .fault c rfl rfl (if_pos hf)

theorem exec_commandEnd {i : Instr} {s t : State} (h : exec i s = .next t) (hf : s.fault = 0#4) : CommandEnd t := by
  obtain ⟨rsp, f, hx, hok, hk⟩ := exec_course i s
  have hf' : f.state.fault = 0#4 := hk.fault.trans hf
  cases hx.symm.trans h
  cases f with
  | go u =>
    obtain ⟨a, d, hu⟩ := hok u
    exact .ok a d (congrArg some hu) rfl
  | hung u => exact .hangs rfl rfl hf'
  | faulted c u => exact raise_commandEnd hf' c

/-- What a step says at the response port (rules R100, R281): nothing, no word being accepted; BLOCKED; or the end of an
accepted command. -/
inductive StepAnswer (s t : State) : Prop
  | silent (hn : s.busy = 1#1 ∨ ∀ w, s.inputs.head? ≠ some (.command w)) (hr : t.rsp = none)
  | blocked (hf : s.fault ≠ 0#4) (hr : t.rsp = some (response 0xF#4 0#1 (s.fault.setWidth 16))) (hb : t.busy = 0#1)
  | ends (hf : s.fault = 0#4) (h : CommandEnd t)

theorem step_answer {s t : State} (hst : step s = .next t) : StepAnswer s t := by
  rcases step_cases s with ⟨hr, he⟩ | ⟨-, hn, he⟩ | ⟨w, -, -, hf, he⟩ | ⟨w, e, -, -, hf, -, he⟩ | ⟨w, i, -, -, hf, -, he⟩
  · cases he.symm.trans hst
    exact .silent (.inr (by simp [hr])) rfl
  · cases he.symm.trans hst
    exact .silent (hn.symm.imp_right fun hi => by simp [hi]) rfl
  · cases he.symm.trans hst
    exact .blocked hf rfl rfl
  · cases he.symm.trans hst
    exact .ends hf (raise_commandEnd (s := s.nextInput.accept) hf _)
  · exact .ends hf (exec_commandEnd (he.symm.trans hst) hf)

/-- Settles O11: the step that executes a command answers what `exec` does, every other an update of the state. -/
theorem everyStepAnswersNext : Obligations.EveryStepAnswersNext := by
  intro s
  rcases step_cases s with ⟨-, he⟩ | ⟨-, -, he⟩ | ⟨w, -, -, -, he⟩ | ⟨w, e, -, -, -, -, he⟩ | ⟨w, i, -, -, -, -, he⟩
  · exact ⟨_, he⟩
  · exact ⟨_, he⟩
  · exact ⟨_, he⟩
  · exact ⟨_, he⟩
  · rw [he]
    exact exec_next i _

/-- Settles O14: a word presented to a block that is not busy is accepted, so the step is no silent one. -/
theorem oneResponsePerAcceptedCommand : Obligations.OneResponsePerAcceptedCommand := by
  intro s t w rest hbusy hin hst
  cases step_answer hst with
  | silent hn => simp [hbusy, hin] at hn
  | blocked _ hr hb => exact .inl ⟨by rw [hr]; rfl, hb⟩
  | ends hf0 h =>
    cases h with
    | ok a d hr hb => exact .inl ⟨by rw [hr]; rfl, hb⟩
    | fault c hr hb => exact .inl ⟨by rw [hr]; rfl, hb⟩
    | hangs hr hb hf => exact .inr ⟨hr, hb, hf.trans hf0.symm⟩

/-- Settles O13: every response is built by `response`, so its form is read off its fields. -/
theorem responseWordForm : Obligations.ResponseWordForm := by
  intro s t w hstep hw
  cases step_answer hstep with
  | silent _ hr => cases hr.symm.trans hw
  | blocked hf hr =>
    cases hr.symm.trans hw
    obtain ⟨hst, hzero, hflag, hdata⟩ := response_fields 0xF#4 0#1 (s.fault.setWidth 16)
    exact ⟨hzero, .inr (.inr ⟨hst, hflag, hdata, hf⟩)⟩
  | ends _ h =>
    cases h with
    | ok a d hr =>
      cases hr.symm.trans hw
      obtain ⟨hst, hzero, -, -⟩ := response_fields 0x0#4 a d
      exact ⟨hzero, .inl hst⟩
    | fault c hr _ hf =>
      cases hr.symm.trans hw
      obtain ⟨hst, hzero, hflag, hdata⟩ := response_fields c.code 0#1 0#16
      refine ⟨hzero, .inr (.inl ?_)⟩
      rw [hst]
      exact ⟨c.code_pos, c.code_le, hflag, hdata, hf⟩
    | hangs hr => cases hr.symm.trans hw

end Sys2Proof.Machine
end

section
/-! SUPPORT. The common scheme of rule R132, command by command: what each of the six I2C commands brings to it, and its three
outcomes. -/

namespace Sys2Proof.Machine

open Sys2Proof.Claims

/-- What an I2C command brings to the common scheme of rule R132: its pin steps, its event, the registers it leaves and its
response. -/
structure I2cScheme where
  steps : EnvAnswer → List I2cPinOp
  event : EnvAnswer → Event
  after : EnvAnswer → I2cUnit → I2cUnit
  rsp   : State → RspWord

/-- The scheme of each I2C command (rules R133 to R138). -/
def schemeOf : Instr → Option I2cScheme
  | .i2cStart => some ⟨fun _ => startSteps, fun _ => .iStart, fun _ u => u.afterStart, fun _ => okResponse 0#1 0#16⟩
  | .i2cRestart =>
    some ⟨fun _ => restartSteps, fun _ => .iRestart, fun _ u => u.afterRestart, fun _ => okResponse 0#1 0#16⟩
  | .i2cSend b => some ⟨fun a => sendSteps b a.ack, fun a => .iTx b a.ack, fun a u => u.afterSend b a.ack,
      fun t => okResponse (~~~t.i2c.ackstat) 0#16⟩
  | .i2cRecv => some ⟨fun a => recvSteps a.data, fun a => .iRx a.data, fun a u => u.afterRecv a.data,
      fun t => okResponse 0#1 (zext16 t.i2c.rx)⟩
  | .i2cAck k => some ⟨fun _ => ackSteps k, fun _ => .iMack k, fun _ u => u.afterAck, fun _ => okResponse 0#1 0#16⟩
  | .i2cStop => some ⟨fun _ => stopSteps, fun _ => .iStop, fun _ u => u.afterStop, fun _ => okResponse 0#1 0#16⟩
  | _ => none

/-- The state of a bus operation at its completion, before the response (rule R132). -/
def I2cScheme.completed (c : I2cScheme) (s : State) : State :=
  { s with
    i2c := c.after s.answer { s.i2c with pins := s.i2c.pins.run (c.steps s.answer) }
    trRev := c.event s.answer :: s.trRev
    env := s.env.tail }

theorem exists_schemeOf {i : Instr} (h : ownerOf i = .i2c) : ∃ c, schemeOf i = some c := by
  cases i
  case i2cStart | i2cRestart | i2cSend | i2cRecv | i2cAck | i2cStop => exact ⟨_, rfl⟩
  all_goals cases h

/-- The pin steps of the scheme are those the line activity is made of. -/
theorem i2cSteps_eq (i : Instr) : i2cSteps i = (schemeOf i).map I2cScheme.steps := by
  cases i <;> rfl

section

variable {i : Instr} {c : I2cScheme} (hc : schemeOf i = some c) {s : State}

include hc

theorem exec_of_schemeOf :
    exec i s = .next (conclude c.rsp (i2cCommand (s.i2c.allows i) c.steps c.event c.after s)) := by
  cases i
  case i2cStart | i2cRestart | i2cSend | i2cRecv | i2cAck | i2cStop => cases hc; rfl
  all_goals cases hc

/-- What completes is a move of unit U1. -/
theorem I2cMove.of_schemeOf {u : I2cUnit} (hl : u.allows i = true) (a : EnvAnswer) :
    I2cMove u (c.event a) (c.after a { u with pins := u.pins.run (c.steps a) }) := by
  cases i
  case i2cStart => cases hc; exact .start hl
  case i2cRestart => cases hc; exact .restart hl
  case i2cSend b => cases hc; exact .send hl b a.ack
  case i2cRecv => cases hc; exact .recv hl a.data
  case i2cAck k => cases hc; exact .ack hl k
  case i2cStop => cases hc; exact .stop hl
  all_goals cases hc

theorem exec_of_done (hl : s.i2c.allows i = true) (hd : s.answer.done = true) :
    exec i s = .next ((c.completed s).respond (c.rsp (c.completed s))) := by
  rw [exec_of_schemeOf hc, hl]
  simp only [i2cCommand, i2cAwait, hd, if_true]
  rfl

theorem exec_of_not_done (hl : s.i2c.allows i = true) (hd : s.answer.done = false) :
    exec i s = .next { s.nextAnswer with
      i2c.pins := s.i2c.pins.held (c.steps s.answer) s.answer.stall }.hang := by
  rw [exec_of_schemeOf hc, hl]
  simp [i2cCommand, i2cAwait, hd, conclude]

theorem exec_of_not_allows (hl : ¬s.i2c.allows i = true) : exec i s = .next (s.raise .i2cProto) := by
  rw [exec_of_schemeOf hc, Bool.eq_false_of_not_eq_true hl]
  rfl

/-- A forbidden command is an I2C_PROTO fault with no earlier effect (rules R131, R280). -/
theorem exec_eq_faulted (hl : ¬s.i2c.allows i = true) (hf : s.fault = 0#4) : exec i s = .next (faulted s 2#4) := by
  rw [exec_of_not_allows hc hl]
  simp only [State.raise, if_pos hf]
  rfl

/-- A legal command whose operation never completes hangs at the pins (rules R132, R284). -/
theorem hangsAtPins_of_not_done (hl : s.i2c.allows i = true) (hd : s.answer.done = false) : HangsAtPins i s :=
  ⟨_, exec_of_not_done hc hl hd⟩

end

/-! ### When each command is legal (rule R131) -/

section

variable (u : I2cUnit)

theorem allows_start : u.allows .i2cStart = true ↔ u.st = .idle ∨ u.st = .stopped := by
  simp [I2cUnit.allows, I2cUnit.mayStart]

theorem allows_restart : u.allows .i2cRestart = true ↔ (u.st = .addressed ∨ u.st = .transferring) ∧ u.ap = 0#1 := by
  simp [I2cUnit.allows, I2cUnit.mayRestart, addressedOrLater_iff]

theorem allows_send (b : Byte) : u.allows (.i2cSend b) = true ↔
    u.st = .started ∨ (u.st = .addressed ∨ u.st = .transferring) ∧ u.dir = 0#1 := by
  simp [I2cUnit.allows, I2cUnit.maySend, addressedOrLater_iff]

theorem allows_recv : u.allows .i2cRecv = true ↔
    ((u.st = .addressed ∨ u.st = .transferring) ∧ u.dir = 1#1) ∧ u.ap = 0#1 := by
  simp [I2cUnit.allows, I2cUnit.mayRecv, addressedOrLater_iff]

theorem allows_ack (k : Bit) : u.allows (.i2cAck k) = true ↔ u.ap = 1#1 := by
  simp [I2cUnit.allows, I2cUnit.mayAck]

theorem allows_stop : u.allows .i2cStop = true ↔
    (u.st = .started ∨ u.st = .addressed ∨ u.st = .transferring) ∧ u.ap = 0#1 := by
  simp [I2cUnit.allows, I2cUnit.mayStop, addressedOrLater_iff]

end

end Sys2Proof.Machine
end

section
/-! The six I2C commands, each in every state and environment (rules R131 to R139). -/

namespace Sys2Proof.Machine

open Sys2Proof.Claims

/-- Settles O30: a forbidden command faults, a legal one is held at its pins. -/
theorem i2cHangChangesNothing : Obligations.I2cHangChangesNothing := by
  intro i s hi hd hf
  obtain ⟨c, hc⟩ := exists_schemeOf ((isI2c_iff_owner i).1 hi)
  by_cases hl : s.i2c.allows i = true
  · exact .inr (hangsAtPins_of_not_done hc hl hd)
  · exact .inl (exec_eq_faulted hc hl hf)

/-- Settles O23, by the three outcomes of the scheme; I2C_START is legal outside a transaction alone. -/
theorem i2cStartEffect : Obligations.I2cStartEffect := by
  refine ⟨by decide, fun s => ⟨fun hst hd => ?_, fun hst hd => ?_, fun hst hf => ?_⟩⟩
  · exact exec_of_done rfl ((allows_start _).2 hst) hd
  · exact hangsAtPins_of_not_done rfl ((allows_start _).2 hst) hd
  · have hl : ¬s.i2c.allows .i2cStart = true := by rw [allows_start]; grind
    exact exec_eq_faulted rfl hl hf

/-- Settles O24, by the three outcomes of the scheme. -/
theorem i2cRestartEffect : Obligations.I2cRestartEffect := by
  refine ⟨by decide, fun s => ⟨fun hst ha hd => ?_, fun hst ha hd => ?_, fun hst hf => ?_⟩⟩
  · exact exec_of_done rfl ((allows_restart _).2 ⟨hst, ha⟩) hd
  · exact hangsAtPins_of_not_done rfl ((allows_restart _).2 ⟨hst, ha⟩) hd
  · have hl : ¬s.i2c.allows .i2cRestart = true := by rw [allows_restart]; grind
    exact exec_eq_faulted rfl hl hf

/-- I2C_SEND that completes, the registers by `afterSend` and the pins by rule R153. -/
theorem exec_send_of_done {s : State} {b : Byte} {a : Bit} (hl : s.i2c.allows (.i2cSend b) = true)
    (hd : s.answer.done = true) (ha : s.answer.ack = a) :
    exec (.i2cSend b) s = .next { s with
      i2c := { s.i2c with pins := ⟨0x00#8, 0#4, 0#1, 1#1⟩ }.afterSend b a
      trRev := .iTx b a :: s.trRev, env := s.env.tail, rsp := some (okResponse (~~~a) 0#16), busy := 0#1 } := by
  have hack (u : I2cUnit) : (u.afterSend b a).ackstat = a := by unfold I2cUnit.afterSend; split <;> rfl
  rw [exec_of_done rfl hl hd]
  simp only [I2cScheme.completed, run_sendSteps, ha, hack, State.respond]

/-- Settles O25, the address byte and the data byte by the two branches of `afterSend`. -/
theorem i2cSendEffect : Obligations.I2cSendEffect := by
  refine fun s b => ⟨?_, fun hst hd => ?_, fun hst hdir hd => ?_, fun hst hd => ?_, fun hst hf => ?_⟩
  · exact (congrArg decode BitVec.append_assoc).trans (decodeOfEncode (.i2cSend b))
  · rw [exec_send_of_done ((allows_send _ b).2 (.inl hst)) hd rfl, I2cUnit.afterSend, if_pos hst]
    rfl
  · have hne : s.i2c.st ≠ .started := by rcases hst with h | h <;> simp [h]
    rw [exec_send_of_done ((allows_send _ b).2 (.inr ⟨hst, hdir⟩)) hd rfl, I2cUnit.afterSend, if_neg hne]
    rfl
  · exact hangsAtPins_of_not_done rfl ((allows_send _ b).2 hst) hd
  · have hl : ¬s.i2c.allows (.i2cSend b) = true := by rw [allows_send]; grind
    exact exec_eq_faulted rfl hl hf

/-- The response to a received byte (rules R110, R112). -/
theorem okResponse_zext16 (d : Byte) : okResponse 0#1 (zext16 d) = 0x0000#16 ++ d := by
  revert d; decide

/-- Settles O26, by the three outcomes of the scheme; the shifter ends with the slave's byte. -/
theorem i2cRecvEffect : Obligations.I2cRecvEffect := by
  refine ⟨by decide, fun s => ⟨fun hst hdir ha hd => ?_, fun hst hdir ha hd => ?_, fun hst hf => ?_⟩⟩
  · rw [exec_of_done rfl ((allows_recv _).2 ⟨⟨hst, hdir⟩, ha⟩) hd, ← okResponse_zext16]
    simp only [I2cScheme.completed, run_recvSteps, I2cUnit.afterRecv, State.respond]
  · exact hangsAtPins_of_not_done rfl ((allows_recv _).2 ⟨⟨hst, hdir⟩, ha⟩) hd
  · have hl : ¬s.i2c.allows .i2cRecv = true := by rw [allows_recv]; grind
    exact exec_eq_faulted rfl hl hf

/-- Settles O27, by the three outcomes of the scheme; the acknowledge owed is all its legality asks. -/
theorem i2cAckEffect : Obligations.I2cAckEffect := by
  refine ⟨by decide, by decide, fun s k => ⟨fun ha hd => ?_, fun ha hd => ?_, fun ha hf => ?_⟩⟩
  · exact exec_of_done rfl ((allows_ack _ k).2 ha) hd
  · exact hangsAtPins_of_not_done rfl ((allows_ack _ k).2 ha) hd
  · have hl : ¬s.i2c.allows (.i2cAck k) = true := by rw [allows_ack]; grind
    exact exec_eq_faulted rfl hl hf

/-- Settles O28, by the three outcomes of the scheme. -/
theorem i2cStopEffect : Obligations.I2cStopEffect := by
  refine ⟨by decide, fun s => ⟨fun hst ha hd => ?_, fun hst ha hd => ?_, fun hst hf => ?_⟩⟩
  · exact exec_of_done rfl ((allows_stop _).2 ⟨hst, ha⟩) hd
  · exact hangsAtPins_of_not_done rfl ((allows_stop _).2 ⟨hst, ha⟩) hd
  · have hl : ¬s.i2c.allows .i2cStop = true := by rw [allows_stop]; grind
    exact exec_eq_faulted rfl hl hf

/-! ### The state table (rule R131) -/

/-- The cell of the state table for a command in a state of unit U1: where its operation leads, or F. -/
def I2cUnit.cell (u : I2cUnit) (a : EnvAnswer) (i : Instr) : Cell :=
  if u.allows i then (schemeOf i).map fun c => ((c.after a u).st, (c.after a u).dir, (c.after a u).ap) else none

/-- In its row unit U1 stands at, each cell of the table is what the command does there. -/
theorem stateTable_row {u : I2cUnit} {b : Byte} {row : (I2cSt × Bit × Bit) × List Cell} (hrow : row ∈ stateTable b)
    (hu : (u.st, u.dir, u.ap) = row.1) (a : EnvAnswer) (k : Bit) : row.2 = (i2cCommands b k).map (u.cell a) := by
  obtain ⟨st, dir, ap, ackstat, rx, div, pins⟩ := u
  simp only [stateTable, List.mem_cons, List.not_mem_nil, or_false] at hrow
  rcases hrow with rfl | rfl | rfl | rfl | rfl | rfl | rfl | rfl <;> cases hu <;> rfl

theorem I2cScheme.after_pins {i : Instr} {c : I2cScheme} (hc : schemeOf i = some c) (a : EnvAnswer) (u : I2cUnit)
    (p : I2cPins) : c.after a { u with pins := p } = { c.after a u with pins := p } := by
  cases i
  case i2cSend b => cases hc; simp only [I2cUnit.afterSend]; split <;> rfl
  case i2cStart | i2cRestart | i2cRecv | i2cAck | i2cStop => cases hc; rfl
  all_goals cases hc

/-- Settles O29: a cell F is a forbidden command, any other the completion of a legal one. -/
theorem i2cStateTable : Obligations.I2cStateTable := by
  intro s b k row col i c hrow hs hi hcell hf hd
  have hmem : i ∈ i2cCommands b k := List.mem_of_getElem? hi
  obtain ⟨sch, hsch⟩ := exists_schemeOf ((isI2c_iff_owner i).1 ⟨b, k, hmem⟩)
  have hc : c = s.i2c.cell s.answer i := by
    rw [stateTable_row hrow hs s.answer k, List.getElem?_map, hi] at hcell
    exact (Option.some.inj hcell).symm
  by_cases hl : s.i2c.allows i = true
  · have hdiv := (I2cMove.of_schemeOf hsch hl s.answer).div
    rw [I2cUnit.cell, if_pos hl, hsch] at hc
    subst hc
    refine ⟨_, exec_of_done hsch hl hd, ?_, hf, rfl, ⟨sch.event s.answer, ?_⟩, rfl, rfl, rfl, hdiv⟩
    · rw [State.respond_i2c, I2cScheme.completed, I2cScheme.after_pins hsch]
    · simp [State.trace, I2cScheme.completed]
  · rw [I2cUnit.cell, if_neg hl] at hc
    subst hc
    exact exec_eq_faulted hsch hl hf

/-! ### The acknowledge slot (rule R139) -/

/-- No command but I2C_SEND changes I2C_ACKSTAT (rule R36). -/
theorem exec_ackstat {i : Instr} (hi : ∀ b, i ≠ .i2cSend b) {s t : State} (ht : exec i s = .next t) :
    t.i2c.ackstat = s.i2c.ackstat := by
  by_cases ho : ownerOf i = .i2c
  · obtain ⟨c, hc⟩ := exists_schemeOf ho
    have hafter (a : EnvAnswer) (u : I2cUnit) : (c.after a u).ackstat = u.ackstat := by
      cases i
      case i2cSend b => exact absurd rfl (hi b)
      case i2cStart | i2cRestart | i2cRecv | i2cAck | i2cStop => cases hc; rfl
      all_goals cases hc
    by_cases hl : s.i2c.allows i = true
    · cases hd : s.answer.done
      · cases (exec_of_not_done hc hl hd).symm.trans ht; rfl
      · cases (exec_of_done hc hl hd).symm.trans ht; exact hafter _ _
    · cases (exec_of_not_allows hc hl).symm.trans ht; rfl
  · have hown := (unitsOwnTheirRegisters i s t ht).1 fun h => ho ((isI2c_iff_owner i).1 h)
    exact (congrArg I2cUnit.ackstat hown :)

/-- The response to a byte sent, by the level of the acknowledge slot (rules R110, R112). -/
theorem okResponse_ack : okResponse (~~~0#1) 0#16 = 0x010000#24 ∧ okResponse (~~~1#1) 0#16 = 0x000000#24 := by
  decide

/-- Settles O31: `afterSend` puts the level in I2C_ACKSTAT and looks at it nowhere else. -/
theorem missingAckOnlyObserved : Obligations.MissingAckOnlyObserved := by
  refine ⟨fun s b a rest hd hst => ?_, fun i s t hi ht => exec_ackstat hi ht⟩
  have hl := (allows_send s.i2c b).2 hst
  have answered (k : Bit) := exec_send_of_done (s := { s with env := { a with ack := k } :: rest }) hl hd rfl
  refine ⟨_, answered 0#1, congrArg some okResponse_ack.1, ?_, s.trace_emit (.iTx b 0#1), rfl, (answered 1#1).trans ?_⟩
  · simp only [I2cUnit.afterSend]
    split <;> rfl
  · simp only [I2cUnit.afterSend, State.answer, okResponse_ack.2]
    split <;> rfl

end Sys2Proof.Machine
end

section
/-! SUPPORT. What does not read unit U1: units U2 and U3 do the same whatever its registers hold, and unit U1 itself does the
same whatever its divisor holds (rules R30, R144). -/

namespace Sys2Proof.Machine

/-- The state with unit U1's registers replaced. -/
def State.mapI2c (φ : I2cUnit → I2cUnit) (s : State) : State := { s with i2c := φ s.i2c }

/-- The course with the state it stands at replaced. -/
def Flow.map (g : State → State) : Flow → Flow
  | .go s => .go (g s)
  | .hung s => .hung (g s)
  | .faulted c s => .faulted c (g s)

/-! ### Composed courses -/

section

variable {g : State → State}

theorem Flow.bind_map {k : State → Flow} (hk : ∀ s, k (g s) = (k s).map g) (f : Flow) :
    (f.map g).bind k = (f.bind k).map g := by
  cases f with
  | go s => exact hk s
  | hung s | faulted c s => rfl

theorem Flow.forEach_map {α : Type} {body : α → State → Flow} (hb : ∀ x s, body x (g s) = (body x s).map g)
    (xs : List α) (s : State) : Flow.forEach body xs (g s) = (Flow.forEach body xs s).map g := by
  induction xs generalizing s with
  | nil => rfl
  | cons x xs ih => rw [Flow.forEach_cons, hb x s, Flow.bind_map ih, Flow.forEach_cons]

/-- The end of a command reads the state in its response only. -/
theorem conclude_mapI2c {φ : I2cUnit → I2cUnit} {rsp : State → RspWord} (hrsp : ∀ t, rsp (t.mapI2c φ) = rsp t)
    (f : Flow) : conclude rsp (f.map (State.mapI2c φ)) = (conclude rsp f).mapI2c φ := by
  cases f with
  | go t => exact congrArg (t.mapI2c φ).respond (hrsp t)
  | hung t | faulted c t => rfl

end

/-! ### Units U2 and U3 -/

section

variable (φ : I2cUnit → I2cUnit)

theorem spiTransfer_mapI2c (o : Byte) (s : State) :
    spiTransfer o (s.mapI2c φ) = (spiTransfer o s).map (State.mapI2c φ) := by
  have ha : (s.mapI2c φ).answer = s.answer := rfl
  simp only [spiTransfer, ha]
  split <;> rfl

theorem frame_mapI2c (dc : Bit) (o : Byte) (s : State) :
    frame dc o (s.mapI2c φ) = (frame dc o s).map (State.mapI2c φ) := by
  have hline : assignCs 0#1 (assignDc dc (s.mapI2c φ)) = (assignCs 0#1 (assignDc dc s)).mapI2c φ := rfl
  simp only [frame]
  rw [hline, spiTransfer_mapI2c, Flow.bind_map fun _ => rfl]

theorem frames_mapI2c (l : List (Bit × Byte)) (s : State) :
    frames l (s.mapI2c φ) = (frames l s).map (State.mapI2c φ) := by
  induction l generalizing s with
  | nil => rfl
  | cons f l ih =>
    show (frame f.1 f.2 (s.mapI2c φ)).bind (frames l) = ((frame f.1 f.2 s).bind (frames l)).map (State.mapI2c φ)
    rw [frame_mapI2c, Flow.bind_map ih]

theorem writePixel_mapI2c (x y c : Half) (s : State) :
    writePixel x y c (s.mapI2c φ) = (writePixel x y c s).map (State.mapI2c φ) := by
  rw [writePixel_eq, writePixel_eq]
  exact frames_mapI2c φ (pixelFrames s.cfg x y c) (s.emit (.pix x y c))

theorem drawCell_mapI2c (x y : Half) (k : Fin 95) (cell : Fin 5 × Fin 8) (s : State) :
    drawCell x y k cell (s.mapI2c φ) = (drawCell x y k cell s).map (State.mapI2c φ) := by
  simp only [drawCell]
  split
  · rfl
  · exact writePixel_mapI2c φ _ _ _ { s with ras.col := BitVec.ofNat 3 cell.1.val, ras.row := BitVec.ofNat 3 cell.2.val }

theorem drawGlyph_mapI2c (x y : Half) (code : Byte) (s : State) :
    drawGlyph x y code (s.mapI2c φ) = (drawGlyph x y code s).map (State.mapI2c φ) := by
  unfold drawGlyph
  split
  · rfl
  next k _ =>
    exact Flow.forEach_map (drawCell_mapI2c φ x y k) glyphCells { s with ras.gidx := BitVec.ofNat 7 k.val }

/-- What DRAW_STRING does from a text index on, the pointer standing there (rules R229, R230). -/
def drawFrom (p : Byte) (rest : List Byte) (t : State) : Flow :=
  match classify t.cfg (t.readText p) with
  | .terminator => .go t
  | .newline => drawText rest (newLine t)
  | .other => (drawGlyph t.ras.curX t.ras.curY (t.readText p) t).bind fun u => drawText rest (advance u)

theorem drawText_cons (p : Byte) (rest : List Byte) (s : State) :
    drawText (p :: rest) s = drawFrom p rest { s with ras.txtPtr := p } := rfl

theorem drawText_mapI2c (ps : List Byte) (s : State) :
    drawText ps (s.mapI2c φ) = (drawText ps s).map (State.mapI2c φ) := by
  induction ps generalizing s with
  | nil => rfl
  | cons p ps ih =>
    have hfrom (t : State) : drawFrom p ps (t.mapI2c φ) = (drawFrom p ps t).map (State.mapI2c φ) := by
      have hch : (t.mapI2c φ).readText p = t.readText p := rfl
      have hcfg : (t.mapI2c φ).cfg = t.cfg := rfl
      have hras : (t.mapI2c φ).ras = t.ras := rfl
      simp only [drawFrom, hch, hcfg, hras]
      cases classify t.cfg (t.readText p) with
      | terminator => rfl
      | newline => exact ih (newLine t)
      | other =>
        dsimp only
        rw [drawGlyph_mapI2c, Flow.bind_map fun u => ih (advance u)]
    rw [drawText_cons, drawText_cons]
    exact hfrom { s with ras.txtPtr := p }

/-- A command of units U2 and U3 neither reads nor writes unit U1 (rule R30). -/
theorem exec_mapI2c {i : Instr} (ho : ownerOf i = .spi ∨ ownerOf i = .raster) {s t : State} (ht : exec i s = .next t) :
    exec i (s.mapI2c φ) = .next (t.mapI2c φ) := by
  have ends {f f' : Flow} {rsp : State → RspWord} (hf : f' = f.map (State.mapI2c φ))
      (hrsp : ∀ t, rsp (State.mapI2c φ t) = rsp t)
      (ht : .next (conclude rsp f) = (.next t : Host.Outcome State Fault Refusal)) :
      (.next (conclude rsp f') : Host.Outcome State Fault Refusal) = .next (t.mapI2c φ) := by
    cases ht
    rw [hf, conclude_mapI2c hrsp]
  cases i
  case spiXfer b => exact ends (spiTransfer_mapI2c φ b s) (fun _ => rfl) ht
  case spiCs l | spiDc l => cases ht; rfl
  case lcdCmd b => exact ends (frame_mapI2c φ 0#1 b s) (fun _ => rfl) ht
  case lcdData b => exact ends (frame_mapI2c φ 1#1 b s) (fun _ => rfl) ht
  case lcdData16 h => exact ends (frames_mapI2c φ (data16 h) s) (fun _ => rfl) ht
  case setWindow x0 y0 x1 y1 => exact ends (frames_mapI2c φ (windowFrames s.cfg x0 y0 x1 y1) s) (fun _ => rfl) ht
  case writePixel x y c => exact ends (writePixel_mapI2c φ x y c s) (fun _ => rfl) ht
  case clear h =>
    refine ends ?_ (fun _ => rfl) ht
    rw [clear_eq, clear_eq]
    exact frames_mapI2c φ (clearFrames s.cfg h) s
  case drawChar x y c => exact ends (drawGlyph_mapI2c φ x y c s) (fun _ => rfl) ht
  case drawString x y p =>
    exact ends (drawText_mapI2c φ (textIndices p)
      { s with ras.curX := x, ras.curY := y, ras.orgX := x, ras.txtPtr := p }) (fun _ => rfl) ht
  all_goals simp [ownerOf] at ho

end

end Sys2Proof.Machine
end

section
/-! The I2C clock divisor influences nothing but itself (rules R38, R144). -/

namespace Sys2Proof.Machine

/-- Unit U1 with another divisor. -/
def I2cUnit.withDiv (d : Half) (u : I2cUnit) : I2cUnit := { u with div := d }

theorem allows_withDiv (u : I2cUnit) (d : Half) (i : Instr) : (u.withDiv d).allows i = u.allows i := by
  cases i <;> rfl

section

variable {i : Instr} {d : Half} {s t : State} (ht : exec i s = .next t)

include ht

/-- An I2C command: neither its legality nor the registers it leaves look at the divisor. -/
theorem exec_i2c_withDiv (ho : ownerOf i = .i2c) :
    exec i (s.mapI2c (I2cUnit.withDiv d)) = .next (t.mapI2c (I2cUnit.withDiv d)) := by
  obtain ⟨c, hc⟩ := exists_schemeOf ho
  have hafter (a : EnvAnswer) (u : I2cUnit) : c.after a (u.withDiv d) = (c.after a u).withDiv d := by
    cases i
    case i2cSend b =>
      cases hc
      dsimp only [I2cUnit.afterSend, I2cUnit.withDiv]
      split <;> rfl
    case i2cStart | i2cRestart | i2cRecv | i2cAck | i2cStop => cases hc; rfl
    all_goals cases hc
  have hrsp (u : State) : c.rsp (u.mapI2c (I2cUnit.withDiv d)) = c.rsp u := by
    cases i
    case i2cStart | i2cRestart | i2cSend | i2cRecv | i2cAck | i2cStop => cases hc; rfl
    all_goals cases hc
  have hanswer : (s.mapI2c (I2cUnit.withDiv d)).answer = s.answer := rfl
  have hl' : (s.mapI2c (I2cUnit.withDiv d)).i2c.allows i = s.i2c.allows i := allows_withDiv s.i2c d i
  by_cases hl : s.i2c.allows i = true
  · cases hd : s.answer.done
    · cases (exec_of_not_done hc hl hd).symm.trans ht
      exact exec_of_not_done hc (hl'.trans hl) hd
    · cases (exec_of_done hc hl hd).symm.trans ht
      have hcomp : c.completed (s.mapI2c (I2cUnit.withDiv d)) = (c.completed s).mapI2c (I2cUnit.withDiv d) :=
        congrArg (fun u => ({ c.completed s with i2c := u } : State))
          (hafter s.answer { s.i2c with pins := s.i2c.pins.run (c.steps s.answer) })
      rw [exec_of_done hc (hl'.trans hl) hd, hcomp, hrsp]
      rfl
  · cases (exec_of_not_allows hc hl).symm.trans ht
    exact exec_of_not_allows hc (by rwa [hl'])

/-- A system command: register number 1 is the divisor's, every other names something else (rule R52). -/
theorem exec_system_withDiv (ho : ownerOf i = .front) (hr : i ≠ .rdReg 1) (hw : ∀ v, i ≠ .wrReg 1 v) :
    exec i (s.mapI2c (I2cUnit.withDiv d)) = .next (t.mapI2c (I2cUnit.withDiv d)) := by
  cases i
  case nop | txtWr | txtRd => cases ht; rfl
  case rdReg r =>
    have hr1 : r ≠ 1#8 := fun h => hr (by rw [h]; rfl)
    have hread : (s.mapI2c (I2cUnit.withDiv d)).readReg r = s.readReg r := by
      simp only [State.readReg, if_neg hr1]
      rfl
    obtain rfl := Host.Outcome.next.inj ht
    simp only [exec, execRdReg, hread]
    cases s.readReg r <;> rfl
  case wrReg r v =>
    have hr1 : r ≠ 1#8 := fun h => hw v (by rw [h]; rfl)
    have hwrite : (s.mapI2c (I2cUnit.withDiv d)).writeReg r v =
        (s.writeReg r v).map (State.mapI2c (I2cUnit.withDiv d)) := by
      simp only [State.writeReg, if_neg hr1]
      split
      · rfl
      split
      · rfl
      split <;> rfl
    obtain rfl := Host.Outcome.next.inj ht
    simp only [exec, execWrReg, hwrite]
    cases s.writeReg r v <;> rfl
  all_goals cases ho

end

/-- Settles O49, owner by owner of the command. -/
theorem i2cDivisorHasNoEffect : Obligations.I2cDivisorHasNoEffect := by
  refine ⟨fun i s t d hr hw ht => ?_, fun s d v => rfl⟩
  cases ho : ownerOf i with
  | front => exact exec_system_withDiv ht ho hr hw
  | i2c => exact exec_i2c_withDiv ht ho
  | spi => exact exec_mapI2c (I2cUnit.withDiv d) (.inl ho) ht
  | raster => exact exec_mapI2c (I2cUnit.withDiv d) (.inr ho) ht

end Sys2Proof.Machine
end

section
/-! SUPPORT. Clock stretching and holding at the I2C pins (rules R143, R150): what they add to a list of steps cannot be seen on
the lines while SCL is low, so a reader makes of the steps an environment lets happen what it makes of the steps themselves. -/

namespace Sys2Proof.Machine

/-! ### The shape of a list of steps -/

/-- A step that has nothing to do with SCL. -/
def I2cPinOp.keepsScl : I2cPinOp → Bool
  | .scl _ | .wait | .hold => false
  | _ => true

/-- A list of steps that takes SCL from one level to another: each rise is waited for, and nothing else is. -/
inductive Clocked : Bit → List I2cPinOp → Bit → Prop
  | nil (x : Bit) : Clocked x [] x
  | rise {ops : List I2cPinOp} {y : Bit} (h : Clocked 1#1 ops y) : Clocked 0#1 (.scl 1#1 :: .wait :: ops) y
  | fall {ops : List I2cPinOp} {y : Bit} (h : Clocked 0#1 ops y) : Clocked 1#1 (.scl 0#1 :: ops) y
  | other {x y : Bit} {op : I2cPinOp} {ops : List I2cPinOp} (ho : op.keepsScl = true) (h : Clocked x ops y) :
      Clocked x (op :: ops) y

theorem Clocked.append {x y z : Bit} {xs ys : List I2cPinOp} (h : Clocked x xs y) (k : Clocked y ys z) :
    Clocked x (xs ++ ys) z := by
  induction h with
  | nil => exact k
  | rise _ ih => exact .rise (ih k)
  | fall _ ih => exact .fall (ih k)
  | other ho _ ih => exact .other ho (ih k)

theorem Clocked.head_ne_wait {x y : Bit} {ops : List I2cPinOp} (h : Clocked x ops y) : ops.head? ≠ some .wait := by
  cases h with
  | other ho => rintro ⟨⟩; cases ho
  | nil | rise | fall => simp

/-! ### Stretching and holding, step by step -/

/-- What clock stretching puts before a rise of SCL (rule R150). -/
def holdIf (h : Bool) : List I2cPinOp := if h then [.hold] else []

section

variable {op : I2cPinOp} {b : Bit} {ops : List I2cPinOp} (hs : List Bool) (k : Nat)

theorem stretched_cons (ho : op.keepsScl = true) : stretched hs (op :: ops) = op :: stretched hs ops := by
  cases op
  case scl | wait | hold => cases ho
  all_goals simp [stretched]

theorem stretched_scl (hw : ops.head? ≠ some .wait) : stretched hs (.scl b :: ops) = .scl b :: stretched hs ops := by
  rcases ops with _ | ⟨op, ops⟩
  · simp [stretched]
  · cases op
    case wait => exact absurd rfl hw
    all_goals simp [stretched]

theorem stretched_rise : stretched hs (.scl b :: .wait :: ops) =
    holdIf (hs.headD false) ++ .scl b :: .wait :: stretched hs.tail ops := by
  cases hs with
  | nil => simp [holdIf]
  | cons h hs => simp [stretched, holdIf]

theorem heldAt_cons (ho : op.keepsScl = true) : heldAt k (op :: ops) = op :: heldAt k ops := by
  cases op
  case scl | wait | hold => cases ho
  all_goals cases k <;> simp [heldAt]

theorem heldAt_scl (hw : ops.head? ≠ some .wait) : heldAt k (.scl b :: ops) = .scl b :: heldAt k ops := by
  rcases ops with _ | ⟨op, ops⟩
  · cases k <;> simp [heldAt]
  · cases op
    case wait => exact absurd rfl hw
    all_goals cases k <;> simp [heldAt]

theorem heldAt_rise_zero : heldAt 0 (.scl b :: .wait :: ops) = [.hold, .scl b] := by simp [heldAt]

theorem heldAt_rise_succ : heldAt (k + 1) (.scl b :: .wait :: ops) = .scl b :: .wait :: heldAt k ops := by
  simp [heldAt]

theorem heldAt_head_ne_wait (hw : ops.head? ≠ some .wait) : (heldAt k ops).head? ≠ some .wait := by
  rcases ops with _ | ⟨op, ops⟩
  · cases k <;> simp [heldAt]
  · cases op
    case wait => exact absurd rfl hw
    case scl b =>
      by_cases h : ops.head? = some .wait
      · obtain ⟨rest, rfl⟩ : ∃ rest, ops = .wait :: rest := ⟨ops.tail, List.eq_cons_of_mem_head? h⟩
        cases k <;> simp [heldAt]
      · simp [heldAt_scl k h]
    all_goals cases k <;> simp [heldAt]

end

/-! ### What the reader makes of it -/

theorem I2cReader.see_snd_last (r : I2cReader) (c : I2cSample) : (r.see c).2.last = c := by
  unfold I2cReader.see
  split
  · split <;> rfl
  split
  · rfl
  split
  · split
    · rfl
    · dsimp only
      split <;> rfl
  · rfl

/-- The lines after a list of steps. -/
def I2cLines.after (l : I2cLines) (ops : List I2cPinOp) : I2cLines := ops.foldl I2cPinOp.apply l

@[simp] theorem I2cLines.after_nil (l : I2cLines) : l.after [] = l := rfl

@[simp] theorem I2cLines.after_cons (l : I2cLines) (op : I2cPinOp) (ops : List I2cPinOp) :
    l.after (op :: ops) = (op.apply l).after ops := rfl

/-- What a reader makes of a list of steps. -/
def I2cReader.watch (r : I2cReader) (l : I2cLines) (ops : List I2cPinOp) : List Event × I2cReader :=
  r.read (l.samples ops)

@[simp] theorem I2cReader.watch_nil (r : I2cReader) (l : I2cLines) : r.watch l [] = ([], r) := rfl

theorem I2cReader.watch_cons (r : I2cReader) (l : I2cLines) (op : I2cPinOp) (ops : List I2cPinOp) :
    r.watch l (op :: ops) = ((r.see (op.apply l).sample).1 ++ ((r.see (op.apply l).sample).2.watch (op.apply l) ops).1,
      ((r.see (op.apply l).sample).2.watch (op.apply l) ops).2) := rfl

/-- The reader has seen the lines as they are, the clock is not stretched, and the block drives SCL with a level. -/
structure I2cReader.Watches (r : I2cReader) (l : I2cLines) (scl : Bit) : Prop where
  last : r.last = l.sample
  env  : l.envScl = 1#1
  scl  : l.pins.scl = scl

theorem I2cPinOp.apply_of_keepsScl {op : I2cPinOp} (ho : op.keepsScl = true) (l : I2cLines) :
    (op.apply l).envScl = l.envScl ∧ (op.apply l).pins.scl = l.pins.scl := by
  cases op
  case scl | wait | hold => cases ho
  all_goals exact ⟨rfl, rfl⟩

section

variable {r : I2cReader} {l : I2cLines} {x : Bit}

theorem I2cReader.Watches.sample_scl (hw : r.Watches l x) : l.sample.scl = x := by
  simp only [I2cLines.sample, I2cLines.sclIn, hw.env, hw.scl]
  exact BitVec.and_allOnes

theorem I2cReader.Watches.other (hw : r.Watches l x) {op : I2cPinOp} (ho : op.keepsScl = true) :
    (r.see (op.apply l).sample).2.Watches (op.apply l) x :=
  ⟨r.see_snd_last _, (I2cPinOp.apply_of_keepsScl ho l).1.trans hw.env, (I2cPinOp.apply_of_keepsScl ho l).2.trans hw.scl⟩

theorem I2cReader.Watches.assign (hw : r.Watches l x) (b : Bit) :
    (r.see ((I2cPinOp.scl b).apply l).sample).2.Watches ((I2cPinOp.scl b).apply l) b :=
  ⟨r.see_snd_last _, hw.env, rfl⟩

/-- A step after which the lines look as before is not seen. -/
theorem I2cReader.watch_unseen {op : I2cPinOp} (h : (op.apply l).sample = r.last) (ops : List I2cPinOp) :
    r.watch l (op :: ops) = r.watch (op.apply l) ops := by
  rw [I2cReader.watch_cons, h, r.see_last]
  rfl

/-- A rise of SCL begins a clock. -/
theorem I2cReader.see_rise {c : I2cSample} (hl : r.last.scl = 0#1) (hc : c.scl = 1#1) :
    r.see c = ([], { r with last := c, rise := some c }) := by
  simp [I2cReader.see, hl, hc]

/-- The lines with SCL let go by the block. -/
def I2cLines.raised (l : I2cLines) : I2cLines := { l with pins.scl := 1#1 }

/-- The reader at the beginning of a clock. -/
def I2cReader.atRise (r : I2cReader) (l : I2cLines) : I2cReader :=
  { r with last := l.raised.sample, rise := some l.raised.sample }

theorem I2cReader.Watches.raised (hw : r.Watches l 0#1) : (r.atRise l).Watches l.raised 1#1 := ⟨rfl, hw.env, rfl⟩

/-- Where the clock is not stretched there is nothing to wait for. -/
theorem wait_apply (henv : l.envScl = 1#1) : I2cPinOp.wait.apply l = l :=
  congrArg (fun e => { l with envScl := e }) henv.symm

/-- Stretching a clock is not seen: SCL stays low while the environment holds it, let go by the block or not. -/
theorem hold_sample (hw : r.Watches l 0#1) : (I2cPinOp.hold.apply l).sample = r.last ∧
    ((I2cPinOp.scl 1#1).apply (I2cPinOp.hold.apply l)).sample = r.last := by
  rw [hw.last]
  simp [I2cPinOp.apply, I2cLines.sample, I2cLines.sclIn, I2cLines.sdaIn, hw.scl]

/-- A clock begins the same whether it is stretched or not: the reader sees SCL when it rises at last. -/
theorem I2cReader.watch_rise (hw : r.Watches l 0#1) (h : Bool) (ops : List I2cPinOp) :
    r.watch l (holdIf h ++ .scl 1#1 :: .wait :: ops) = (r.atRise l).watch l.raised ops := by
  have hlow : r.last.scl = 0#1 := (congrArg I2cSample.scl hw.last).trans hw.sample_scl
  have hhigh : l.raised.sample.scl = 1#1 := hw.raised.sample_scl
  cases h with
  | false =>
    have hrise : (I2cPinOp.scl 1#1).apply l = l.raised := rfl
    have hwait : I2cPinOp.wait.apply l.raised = l.raised := wait_apply hw.env
    rw [holdIf, if_neg Bool.false_ne_true, List.nil_append, I2cReader.watch_cons, hrise, I2cReader.see_rise hlow hhigh]
    change (r.atRise l).watch l.raised (.wait :: ops) = _
    rw [I2cReader.watch_unseen (by rw [hwait]; rfl), hwait]
  | true =>
    obtain ⟨hhold, hrise⟩ := hold_sample hw
    have hwait : I2cPinOp.wait.apply ((I2cPinOp.scl 1#1).apply (I2cPinOp.hold.apply l)) = l.raised :=
      wait_apply (l := l.raised) hw.env ▸ rfl
    rw [holdIf, if_pos rfl, List.singleton_append, I2cReader.watch_unseen hhold, I2cReader.watch_unseen hrise,
      I2cReader.watch_cons, hwait, I2cReader.see_rise hlow hhigh]
    rfl

theorem I2cReader.watch_rise_plain (hw : r.Watches l 0#1) (ops : List I2cPinOp) :
    r.watch l (.scl 1#1 :: .wait :: ops) = (r.atRise l).watch l.raised ops := I2cReader.watch_rise hw false ops

end

/-- Stretching is invisible to a reader (rules R143, R150). -/
theorem Clocked.watch_stretched {x y : Bit} {ops : List I2cPinOp} (h : Clocked x ops y) (hs : List Bool) {r : I2cReader}
    {l : I2cLines} (hw : r.Watches l x) : r.watch l (stretched hs ops) = r.watch l ops := by
  induction h generalizing hs r l with
  | nil => cases hs <;> rfl
  | rise _ ih =>
    rw [stretched_rise, I2cReader.watch_rise hw, I2cReader.watch_rise_plain hw, ih _ hw.raised]
  | fall h ih => rw [stretched_scl _ h.head_ne_wait, I2cReader.watch_cons, I2cReader.watch_cons, ih _ (hw.assign 0#1)]
  | other ho _ ih => rw [stretched_cons _ ho, I2cReader.watch_cons, I2cReader.watch_cons, ih _ (hw.other ho)]

/-- Held at the clock that comes next, an operation shows nothing more. -/
theorem I2cReader.watch_held_rise {r : I2cReader} {l : I2cLines} (hw : r.Watches l 0#1) (hs : List Bool) :
    (r.watch l (stretched hs [.hold, .scl 1#1])).1 = [] := by
  have hst : stretched hs [.hold, .scl 1#1] = [.hold, .scl 1#1] := by simp [stretched]
  obtain ⟨hhold, hrise⟩ := hold_sample hw
  rw [hst, I2cReader.watch_unseen hhold, I2cReader.watch_unseen hrise, I2cReader.watch_nil]

theorem I2cReader.watch_cons_eq_nil {r : I2cReader} {l : I2cLines} {op : I2cPinOp} {ops : List I2cPinOp} :
    (r.watch l (op :: ops)).1 = [] ↔
      (r.see (op.apply l).sample).1 = [] ∧ ((r.see (op.apply l).sample).2.watch (op.apply l) ops).1 = [] := by
  rw [I2cReader.watch_cons, List.append_eq_nil_iff]

theorem waits_cons {op : I2cPinOp} (ho : op ≠ .wait) (ops : List I2cPinOp) : waits (op :: ops) = waits ops :=
  List.count_cons_of_ne ho

/-- An operation held at one of its clocks shows nothing if the steps before its last clock do not (rule R157). -/
theorem Clocked.watch_held {x y : Bit} {ops : List I2cPinOp} (h : Clocked x ops y) (hy : y = 0#1) (rest : List I2cPinOp)
    {k : Nat} (hk : k ≤ waits ops) (hs : List Bool) {r : I2cReader} {l : I2cLines} (hw : r.Watches l x)
    (hquiet : (r.watch l ops).1 = []) :
    (r.watch l (stretched hs (heldAt k (ops ++ .scl 1#1 :: .wait :: rest)))).1 = [] := by
  have hhead {ops : List I2cPinOp} (h : ops.head? ≠ some .wait) :
      (ops ++ .scl 1#1 :: .wait :: rest).head? ≠ some .wait := by
    cases ops with
    | nil => simp
    | cons => exact h
  induction h generalizing hs r l k with
  | nil x =>
    subst hy
    obtain rfl : k = 0 := Nat.le_zero.1 hk
    rw [List.nil_append, heldAt_rise_zero]
    exact I2cReader.watch_held_rise hw hs
  | @rise ops y _ ih =>
    rw [I2cReader.watch_rise_plain hw] at hquiet
    cases k with
    | zero =>
      rw [List.cons_append, List.cons_append, heldAt_rise_zero]
      exact I2cReader.watch_held_rise hw hs
    | succ k =>
      have hk' : k ≤ waits ops := by simpa [waits] using hk
      rw [List.cons_append, List.cons_append, heldAt_rise_succ, stretched_rise, I2cReader.watch_rise hw]
      exact ih hy hk' _ hw.raised hquiet
  | @fall ops y h ih =>
    have hne := hhead h.head_ne_wait
    rw [waits_cons (by decide)] at hk
    obtain ⟨hsee, hrest⟩ := I2cReader.watch_cons_eq_nil.1 hquiet
    rw [List.cons_append, heldAt_scl k hne, stretched_scl hs (heldAt_head_ne_wait k hne), I2cReader.watch_cons_eq_nil]
    exact ⟨hsee, ih hy hk hs (hw.assign 0#1) hrest⟩
  | @other x y op ops ho _ ih =>
    rw [waits_cons (by rintro rfl; cases ho)] at hk
    obtain ⟨hsee, hrest⟩ := I2cReader.watch_cons_eq_nil.1 hquiet
    rw [List.cons_append, heldAt_cons k ho, stretched_cons hs ho, I2cReader.watch_cons_eq_nil]
    exact ⟨hsee, ih hy hk hs (hw.other ho) hrest⟩

/-! ### What a reader is to make of an operation -/

/-- A reader makes one event of the steps of an operation, however its clocks are stretched, and none of an operation that is
held at one of them. -/
structure I2cReader.Reads (r : I2cReader) (l : I2cLines) (steps : List I2cPinOp) (e : Event) (r' : I2cReader) : Prop where
  done (hs : List Bool) : r.watch l (stretched hs steps) = ([e], r')
  held (hs : List Bool) {k : Nat} (hk : k < waits steps) : (r.watch l (stretched hs (heldAt k steps))).1 = []

/-- For an operation that finds SCL low it is enough to read its steps unstretched, and to read nothing before its last clock. -/
theorem I2cReader.Reads.of_clocked {r r' : I2cReader} {l : I2cLines} {ops rest : List I2cPinOp} {e : Event} {y : Bit}
    (hw : r.Watches l 0#1) (hops : Clocked 0#1 ops 0#1) (hrest : Clocked 1#1 rest y) (hlast : waits rest = 0)
    (hquiet : (r.watch l ops).1 = []) (hdone : r.watch l (ops ++ .scl 1#1 :: .wait :: rest) = ([e], r')) :
    r.Reads l (ops ++ .scl 1#1 :: .wait :: rest) e r' where
  done hs := by rw [(hops.append (.rise hrest)).watch_stretched hs hw, hdone]
  held hs k hk := by
    have hk' : k ≤ waits ops := by
      have hsum : waits (ops ++ .scl 1#1 :: .wait :: rest) = waits ops + (waits rest + 1) := by simp [waits]
      omega
    exact hops.watch_held rfl rest hk' hs hw hquiet

end Sys2Proof.Machine
end

section
/-! SUPPORT. What a reader of the I2C lines makes of the steps of each command (rules R151 to R157), clock by clock. -/

namespace Sys2Proof.Machine

/-! ### Where a list of steps leaves the lines -/

/-- A clocked list of steps leaves SCL where it says, the clock not stretched. -/
theorem Clocked.after {x y : Bit} {ops : List I2cPinOp} (h : Clocked x ops y) {l : I2cLines} (henv : l.envScl = 1#1)
    (hscl : l.pins.scl = x) : (l.after ops).envScl = 1#1 ∧ (l.after ops).pins.scl = y := by
  induction h generalizing l with
  | nil => exact ⟨henv, hscl⟩
  | rise _ ih => exact ih rfl rfl
  | fall _ ih => exact ih henv rfl
  | other ho _ ih =>
    obtain ⟨he, hs⟩ := I2cPinOp.apply_of_keepsScl ho l
    exact ih (he.trans henv) (hs.trans hscl)

theorem Clocked.of_keepsScl {ops : List I2cPinOp} (h : ∀ op ∈ ops, op.keepsScl = true) (x : Bit) : Clocked x ops x := by
  induction ops with
  | nil => exact .nil x
  | cons op ops ih =>
    obtain ⟨ho, hops⟩ := List.forall_mem_cons.1 h
    exact .other ho (ih hops)

theorem Clocked.flatMap {α : Type} {f : α → List I2cPinOp} {x : Bit} (h : ∀ a, Clocked x (f a) x) (as : List α) :
    Clocked x (as.flatMap f) x := by
  induction as with
  | nil => exact .nil x
  | cons a as ih => exact (h a).append ih

/-- A step at which no line moves. -/
def I2cPinOp.movesNoLine : I2cPinOp → Bool
  | .load _ | .count _ | .shiftOut | .shiftIn | .sampleAck => true
  | _ => false

/-! ### Steps that go by without an item -/

/-- The reader comes from one place to another by a list of steps, and makes no event of them. -/
def I2cReader.Passes (r : I2cReader) (l : I2cLines) (xs : List I2cPinOp) (r' : I2cReader) (l' : I2cLines) : Prop :=
  ∀ ops, r.watch l (xs ++ ops) = r'.watch l' ops

section

variable {r r' r'' : I2cReader} {l l' l'' : I2cLines} {xs ys : List I2cPinOp}

theorem I2cReader.Passes.trans (h : r.Passes l xs r' l') (k : r'.Passes l' ys r'' l'') : r.Passes l (xs ++ ys) r'' l'' :=
  fun ops => by rw [List.append_assoc, h, k]

theorem I2cReader.Passes.quiet (h : r.Passes l xs r' l') : (r.watch l xs).1 = [] := by
  have hnil := h []
  rw [List.append_nil] at hnil
  rw [hnil, I2cReader.watch_nil]

/-- While SCL is low nothing that happens to SDA matters. -/
theorem I2cReader.Passes.low (hw : r.Watches l 0#1) (hx : ∀ op ∈ xs, op.keepsScl = true) :
    r.Passes l xs { r with last := (l.after xs).sample } (l.after xs) := by
  induction xs generalizing r l with
  | nil =>
    intro ops
    have hlast : l.sample = r.last := hw.last.symm
    rw [I2cLines.after_nil, hlast]
    rfl
  | cons op xs ih =>
    obtain ⟨ho, hx⟩ := List.forall_mem_cons.1 hx
    have hlow : r.last.scl = 0#1 := (congrArg I2cSample.scl hw.last).trans hw.sample_scl
    have hsee : r.see (op.apply l).sample = ([], { r with last := (op.apply l).sample }) := by
      simp [I2cReader.see, hlow, (hw.other ho).sample_scl]
    have hw' := hw.other ho
    rw [hsee] at hw'
    intro ops
    rw [List.cons_append, I2cReader.watch_cons, hsee]
    exact ih hw' hx ops

theorem I2cReader.Passes.internal (hlast : r.last = l.sample) (hx : ∀ op ∈ xs, op.movesNoLine = true) :
    r.Passes l xs r (l.after xs) ∧ (l.after xs).sample = l.sample := by
  induction xs generalizing l with
  | nil => exact ⟨fun _ => rfl, rfl⟩
  | cons op xs ih =>
    obtain ⟨ho, hx⟩ := List.forall_mem_cons.1 hx
    have hop : (op.apply l).sample = l.sample := by
      cases op
      case load | count | shiftOut | shiftIn | sampleAck => rfl
      all_goals cases ho
    obtain ⟨hp, hs⟩ := ih (hlast.trans hop.symm) hx
    refine ⟨fun ops => ?_, hs.trans hop⟩
    rw [List.cons_append, I2cReader.watch_unseen (hop.trans hlast.symm)]
    exact hp ops

end

/-! ### One clock -/

/-- The lines after a clock, steps `m` having been made while SCL was high. -/
def I2cLines.clocked (l : I2cLines) (m : List I2cPinOp) : I2cLines := (I2cPinOp.scl 0#1).apply (l.raised.after m)

/-- A reader with the transaction at a phase, the lines as they are, and no clock or item begun. -/
def I2cReader.resting (ph : Phase) (l : I2cLines) : I2cReader := ⟨ph, l.sample, none, []⟩

section

variable {r : I2cReader} {l : I2cLines} {m : List I2cPinOp} (hw : r.Watches l 0#1)
  (hm : ∀ op ∈ m, op.movesNoLine = true)

include hw hm

theorem I2cReader.Watches.clocked {r' : I2cReader} (hr : r'.last = (l.clocked m).sample) :
    r'.Watches (l.clocked m) 0#1 := by
  have hkeep : ∀ op ∈ m, op.keepsScl = true := by
    intro op hop
    have hno := hm op hop
    cases op
    case scl | wait | hold => cases hno
    all_goals rfl
  exact ⟨hr, ((Clocked.of_keepsScl hkeep 1#1).after (l := l.raised) hw.env rfl).1, rfl⟩

/-- SCL rises and falls again: the reader takes up what was on SDA at the rise. -/
theorem I2cReader.watch_clock (ops : List I2cPinOp) :
    r.watch l (.scl 1#1 :: .wait :: (m ++ .scl 0#1 :: ops)) =
      (((r.atRise l).see (l.clocked m).sample).1 ++
        (((r.atRise l).see (l.clocked m).sample).2.watch (l.clocked m) ops).1,
        (((r.atRise l).see (l.clocked m).sample).2.watch (l.clocked m) ops).2) := by
  rw [I2cReader.watch_rise_plain hw, (I2cReader.Passes.internal hw.raised.last hm).1]
  rfl

theorem I2cReader.clock_levels : (r.atRise l).last.scl = 1#1 ∧ (l.clocked m).sample.scl = 0#1 :=
  ⟨hw.raised.sample_scl, (hw.clocked hm (r' := { r with last := (l.clocked m).sample }) rfl).sample_scl⟩

/-- A clock that completes no item. -/
theorem I2cReader.Passes.clock (hi : clockedItem r.phase (r.bits ++ [l.raised.sample]) = none) :
    r.Passes l (.scl 1#1 :: .wait :: (m ++ [.scl 0#1]))
      { r with last := (l.clocked m).sample, rise := none, bits := r.bits ++ [l.raised.sample] } (l.clocked m) := by
  obtain ⟨hhigh, hlow⟩ := I2cReader.clock_levels hw hm
  have hsee : (r.atRise l).see (l.clocked m).sample =
      ([], { r with last := (l.clocked m).sample, rise := none, bits := r.bits ++ [l.raised.sample] }) := by
    rw [I2cReader.see, hhigh, hlow]
    simp [I2cReader.atRise, hi]
  intro ops
  simp only [List.cons_append, List.append_assoc, List.nil_append]
  rw [I2cReader.watch_clock hw hm, hsee]
  rfl

/-- A clock that completes an item, and what follows while SCL is low. -/
theorem I2cReader.watch_clock_item {e : Event} {p : Phase} {ops : List I2cPinOp}
    (hi : clockedItem r.phase (r.bits ++ [l.raised.sample]) = some e) (hp : r.phase.next e = some p)
    (hops : ∀ op ∈ ops, op.keepsScl = true) :
    r.watch l (.scl 1#1 :: .wait :: (m ++ .scl 0#1 :: ops)) = ([e], .resting p ((l.clocked m).after ops)) := by
  obtain ⟨hhigh, hlow⟩ := I2cReader.clock_levels hw hm
  have hsee : (r.atRise l).see (l.clocked m).sample = ([e], .resting p (l.clocked m)) := by
    rw [I2cReader.see, hhigh, hlow]
    simp [I2cReader.atRise, hi, I2cReader.item, hp, I2cReader.resting]
  have hrest := I2cReader.Passes.low (r := .resting p (l.clocked m)) (hw.clocked hm rfl) hops []
  rw [List.append_nil] at hrest
  rw [I2cReader.watch_clock hw hm, hsee, hrest]
  rfl

end

/-! ### What the clocks make up -/

/-- What is seen at a clock at which the block drives SDA with a bit. -/
def drivenBit (b : Bit) : I2cSample := ⟨1#1, b, b⟩

/-- What is seen at a clock at which the block has let SDA go and the slave drives it. -/
def slaveBit (b : Bit) : I2cSample := ⟨1#1, b, 1#1⟩

theorem byteOfBits_eq_none {bits : List Bit} (h : bits.length ≠ 8) : byteOfBits bits = none := by
  unfold byteOfBits
  split
  · exact absurd rfl h
  · rfl

theorem clockedItem_of_sending {ph : Phase} (hph : ph = .fresh ∨ ph = .write) (bits : List I2cSample) :
    clockedItem ph bits = clockedItem.sent bits := by
  rcases hph with rfl | rfl <;> rfl

/-- Fewer than nine clocks are no byte sent. -/
theorem clockedItem_sent_short {bits : List I2cSample} (h : bits.length ≤ 8) : clockedItem.sent bits = none := by
  have hb : byteOfBits (bits.dropLast.map I2cSample.sda) = none := by
    apply byteOfBits_eq_none
    simp only [List.length_map, List.length_dropLast]
    omega
  unfold clockedItem.sent
  split
  · rw [hb]
    simp
  · rfl

/-- Eight clocks that show the bits of a byte, bit 7 first, make up that byte (rule R75 a). -/
theorem byteOfBits_clocks {f : Bit → I2cSample} (hf : ∀ b, (f b).sda = b) (d : Byte) :
    byteOfBits (((msbFirst d).map f).map I2cSample.sda) = some d := by
  have hid : I2cSample.sda ∘ f = id := funext hf
  rw [List.map_map, hid, List.map_id, byteOfBits_msbFirst]

/-- Eight clocks the block drives and a ninth at which it lets SDA go are a byte sent (rules R153, R157). -/
theorem clockedItem_sent_byte (b : Byte) (a : Bit) :
    clockedItem.sent ((msbFirst b).map drivenBit ++ [slaveBit a]) = some (.iTx b a) := by
  have hb := byteOfBits_clocks (f := drivenBit) (fun _ => rfl) b
  simp only [clockedItem.sent, List.getLast?_concat, List.dropLast_concat, hb]
  simp [drivenBit, slaveBit]

/-- Fewer than eight clocks are no byte received. -/
theorem clockedItem_read_short {bits : List I2cSample} (h : bits.length ≤ 7) : clockedItem .read bits = none := by
  have hb : byteOfBits (bits.map I2cSample.sda) = none := by
    apply byteOfBits_eq_none
    rw [List.length_map]
    omega
  simp [clockedItem, hb]

/-- Eight clocks at which the block lets SDA go are a byte received (rules R154, R157). -/
theorem clockedItem_read_byte (d : Byte) : clockedItem .read ((msbFirst d).map slaveBit) = some (.iRx d) := by
  have hb := byteOfBits_clocks (f := slaveBit) (fun _ => rfl) d
  have hall : ((msbFirst d).map slaveBit).all (fun c => c.drive = 1#1) = true := by simp [slaveBit]
  simp only [clockedItem, hall, if_true, hb, Option.map_some]

/-- A clock at which the block drives SDA after a byte received is its acknowledge (rules R155, R157). -/
theorem clockedItem_owed (k : Bit) : clockedItem .owed [drivenBit k] = some (.iMack k) := if_pos rfl

/-! ### The bits of a byte sent -/

/-- The bits that leave a shift register in a number of shifts. -/
def bitsOut : Nat → Byte → List Bit
  | 0, _ => []
  | n + 1, x => x.extractLsb' 7 1 :: bitsOut n (x.extractLsb' 0 7 ++ 0#1)

theorem bitsOut_eight (b : Byte) : bitsOut 8 b = msbFirst b := by
  revert b; decide

theorem Clocked.sendBit (n : BitVec 4) : Clocked 0#1 (sendBitSteps n) 0#1 :=
  .other rfl (.other rfl (.rise (.fall (.other rfl (.nil _)))))

theorem Clocked.recvBit (n : BitVec 4) (b : Bit) : Clocked 0#1 (recvBitSteps n b) 0#1 :=
  .other rfl (.other rfl (.rise (.other rfl (.fall (.nil _)))))

/-- What is seen where SCL has just risen. -/
theorem I2cLines.raised_sample {l : I2cLines} (henv : l.envScl = 1#1) :
    l.raised.sample = ⟨1#1, l.pins.sda &&& l.envSda, l.pins.sda⟩ := by
  simp [I2cLines.sample, I2cLines.sclIn, I2cLines.sdaIn, I2cLines.raised, henv]

theorem I2cLines.raised_driven {l : I2cLines} (henv : l.envScl = 1#1) (hsda : l.envSda = 1#1) :
    l.raised.sample = drivenBit l.pins.sda := by
  rw [I2cLines.raised_sample henv, hsda]
  exact congrArg (I2cSample.mk 1#1 · _) BitVec.and_allOnes

theorem I2cLines.raised_slave {l : I2cLines} (henv : l.envScl = 1#1) (hsda : l.pins.sda = 1#1) :
    l.raised.sample = slaveBit l.envSda := by
  rw [I2cLines.raised_sample henv, hsda]
  exact congrArg (I2cSample.mk 1#1 · _) BitVec.allOnes_and

/-- A bit sent goes by, the reader taking it up (rule R153). -/
theorem I2cReader.passes_sendBit (n : BitVec 4) {r : I2cReader} {l : I2cLines} (hw : r.Watches l 0#1)
    (hsda : l.envSda = 1#1) (hph : r.phase = .fresh ∨ r.phase = .write) (hlen : r.bits.length < 8) :
    ∃ r' l', r.Passes l (sendBitSteps n) r' l' ∧ r'.Watches l' 0#1 ∧ l'.envSda = 1#1 ∧ r'.phase = r.phase ∧
      r'.bits = r.bits ++ [drivenBit (l.pins.shift.extractLsb' 7 1)] ∧
      l'.pins.shift = l.pins.shift.extractLsb' 0 7 ++ 0#1 := by
  have hlow := I2cReader.Passes.low (xs := [.count n, .driveMsb]) hw (by simp [I2cPinOp.keepsScl])
  generalize hl₁ : l.after [.count n, .driveMsb] = l₁ at hlow
  have hw₁ : I2cReader.Watches { r with last := l₁.sample } l₁ 0#1 := by subst hl₁; exact ⟨rfl, hw.env, hw.scl⟩
  have hbit : l₁.raised.sample = drivenBit (l.pins.shift.extractLsb' 7 1) := by
    subst hl₁
    exact I2cLines.raised_driven hw.env hsda
  have hshort : clockedItem r.phase (r.bits ++ [l₁.raised.sample]) = none := by
    rw [clockedItem_of_sending hph]
    apply clockedItem_sent_short
    simpa using hlen
  have hclock := I2cReader.Passes.clock hw₁ (m := []) (by simp) hshort
  have hw₂ := hw₁.clocked (m := []) (by simp)
    (r' := { r with last := (l₁.clocked []).sample, rise := none, bits := r.bits ++ [l₁.raised.sample] }) rfl
  obtain ⟨hshift, hsame⟩ := I2cReader.Passes.internal (xs := [.shiftOut]) hw₂.last (by simp [I2cPinOp.movesNoLine])
  refine ⟨_, _, (hlow.trans hclock).trans hshift, ⟨hw₂.last.trans hsame.symm, hw₂.env, hw₂.scl⟩, ?_, rfl, ?_, ?_⟩
  · subst hl₁; exact hsda
  · rw [hbit]
  · subst hl₁; rfl

/-- Bits sent one after another go by, the reader taking up each (rule R153). -/
theorem I2cReader.passes_sendBits (ns : List (BitVec 4)) {r : I2cReader} {l : I2cLines} (hw : r.Watches l 0#1)
    (hsda : l.envSda = 1#1) (hph : r.phase = .fresh ∨ r.phase = .write) (hlen : r.bits.length + ns.length ≤ 8) :
    ∃ r' l', r.Passes l (ns.flatMap sendBitSteps) r' l' ∧ r'.Watches l' 0#1 ∧ l'.envSda = 1#1 ∧ r'.phase = r.phase ∧
      r'.bits = r.bits ++ (bitsOut ns.length l.pins.shift).map drivenBit := by
  induction ns generalizing r l with
  | nil => exact ⟨r, l, fun _ => rfl, hw, hsda, rfl, by simp [bitsOut]⟩
  | cons n ns ih =>
    rw [List.length_cons] at hlen
    obtain ⟨r₁, l₁, hpass, hw₁, hsda₁, hph₁, hbits₁, hshift⟩ := I2cReader.passes_sendBit n hw hsda hph (by omega)
    obtain ⟨r₂, l₂, hrest, hw₂, hsda₂, hph₂, hbits₂⟩ :=
      ih hw₁ hsda₁ (by rwa [hph₁]) (by rw [hbits₁, List.length_append, List.length_singleton]; omega)
    refine ⟨r₂, l₂, hpass.trans hrest, hw₂, hsda₂, hph₂.trans hph₁, ?_⟩
    rw [hbits₂, hbits₁, hshift, List.length_cons, bitsOut, List.map_cons, List.append_assoc, List.singleton_append]

/-- A bit received goes by, the reader taking it up (rule R154). -/
theorem I2cReader.passes_recvBit (n : BitVec 4) (b : Bit) {r : I2cReader} {l : I2cLines} (hw : r.Watches l 0#1)
    (hsda : l.pins.sda = 1#1) (hph : r.phase = .read) (hlen : r.bits.length < 7) :
    ∃ r' l', r.Passes l (recvBitSteps n b) r' l' ∧ r'.Watches l' 0#1 ∧ l'.pins.sda = 1#1 ∧ r'.phase = .read ∧
      r'.bits = r.bits ++ [slaveBit b] := by
  have hlow := I2cReader.Passes.low (xs := [.count n, .env b]) hw (by simp [I2cPinOp.keepsScl])
  generalize hl₁ : l.after [.count n, .env b] = l₁ at hlow
  have hw₁ : I2cReader.Watches { r with last := l₁.sample } l₁ 0#1 := by subst hl₁; exact ⟨rfl, hw.env, hw.scl⟩
  have hbit : l₁.raised.sample = slaveBit b := by
    subst hl₁
    exact I2cLines.raised_slave hw.env hsda
  have hshort : clockedItem r.phase (r.bits ++ [l₁.raised.sample]) = none := by
    rw [hph]
    apply clockedItem_read_short
    simpa using hlen
  have hclock := I2cReader.Passes.clock hw₁ (m := [.shiftIn]) (by simp [I2cPinOp.movesNoLine]) hshort
  have hw₂ := hw₁.clocked (m := [.shiftIn]) (by simp [I2cPinOp.movesNoLine])
    (r' := { r with last := (l₁.clocked [.shiftIn]).sample, rise := none, bits := r.bits ++ [l₁.raised.sample] }) rfl
  refine ⟨_, _, hlow.trans hclock, hw₂, ?_, hph, ?_⟩
  · subst hl₁; exact hsda
  · rw [hbit]

/-- Bits received one after another go by, the reader taking up each (rule R154). -/
theorem I2cReader.passes_recvBits (cs : List (BitVec 4 × Bit)) {r : I2cReader} {l : I2cLines} (hw : r.Watches l 0#1)
    (hsda : l.pins.sda = 1#1) (hph : r.phase = .read) (hlen : r.bits.length + cs.length ≤ 7) :
    ∃ r' l', r.Passes l (cs.flatMap fun c => recvBitSteps c.1 c.2) r' l' ∧ r'.Watches l' 0#1 ∧ l'.pins.sda = 1#1 ∧
      r'.phase = .read ∧ r'.bits = r.bits ++ cs.map fun c => slaveBit c.2 := by
  induction cs generalizing r l with
  | nil => exact ⟨r, l, fun _ => rfl, hw, hsda, hph, by simp⟩
  | cons c cs ih =>
    rw [List.length_cons] at hlen
    obtain ⟨r₁, l₁, hpass, hw₁, hsda₁, hph₁, hbits₁⟩ := I2cReader.passes_recvBit c.1 c.2 hw hsda hph (by omega)
    obtain ⟨r₂, l₂, hrest, hw₂, hsda₂, hph₂, hbits₂⟩ :=
      ih hw₁ hsda₁ hph₁ (by rw [hbits₁, List.length_append, List.length_singleton]; omega)
    refine ⟨r₂, l₂, hpass.trans hrest, hw₂, hsda₂, hph₂, ?_⟩
    rw [hbits₂, hbits₁, List.map_cons, List.append_assoc, List.singleton_append]

end Sys2Proof.Machine
end

section
/-! SUPPORT. What a reader makes of each I2C command, from the phase and the lines it finds (rules R151 to R157). -/

namespace Sys2Proof.Machine

/-! ### Commands -/

/-- A reader at rest on a bus whose clock is not stretched. -/
theorem I2cReader.resting_watches (ph : Phase) {l : I2cLines} {x : Bit} (henv : l.envScl = 1#1) (h : l.pins.scl = x) :
    (I2cReader.resting ph l).Watches l x := ⟨rfl, henv, h⟩

/-- Inside a transaction a command may put SDA anywhere before its first clock. -/
theorem I2cReader.Passes.resting (ph : Phase) {l : I2cLines} {xs : List I2cPinOp} (henv : l.envScl = 1#1)
    (hscl : l.pins.scl = 0#1) (hx : ∀ op ∈ xs, op.keepsScl = true) :
    (I2cReader.resting ph l).Passes l xs (.resting ph (l.after xs)) (l.after xs) :=
  .low (I2cReader.resting_watches ph henv hscl) hx

section

variable {r : I2cReader} {l : I2cLines} {ph : Phase}

/-- SDA falls while SCL is high: a START or, in a transaction, a repeated one; then SCL falls, and no clock has begun. -/
theorem I2cReader.watch_start {e : Event} (hw : r.Watches l 1#1) (hsda : l.pins.sda = 1#1) (henv : l.envSda = 1#1)
    (he : (if r.phase = .never ∨ r.phase = .closed then Event.iStart else .iRestart) = e)
    (hp : r.phase.next e = some ph) :
    r.watch l [.sda 0#1, .scl 0#1] = ([e], .resting ph (l.after [.sda 0#1, .scl 0#1])) := by
  have hlast : r.last = ⟨1#1, 1#1, 1#1⟩ := by
    rw [hw.last, I2cLines.sample, I2cLines.sclIn, I2cLines.sdaIn, hw.scl, hw.env, hsda, henv]
    rfl
  have hfall : ((I2cPinOp.sda 0#1).apply l).sample = ⟨1#1, 0#1, 0#1⟩ := by
    simp [I2cPinOp.apply, I2cLines.sample, I2cLines.sclIn, I2cLines.sdaIn, hw.scl, hw.env, henv]
  have hlow : ((I2cPinOp.scl 0#1).apply ((I2cPinOp.sda 0#1).apply l)).sample = ⟨0#1, 0#1, 0#1⟩ := by
    simp [I2cPinOp.apply, I2cLines.sample, I2cLines.sclIn, I2cLines.sdaIn, henv]
  have hsee : r.see ⟨1#1, 0#1, 0#1⟩ = ([e], ⟨ph, ⟨1#1, 0#1, 0#1⟩, none, []⟩) := by
    rw [I2cReader.see, hlast]
    simp [he, I2cReader.item, hp]
  rw [I2cReader.watch_cons, I2cReader.watch_cons, hfall, hlow, hsee, I2cReader.resting, I2cLines.after_cons,
    I2cLines.after_cons, I2cLines.after_nil, hlow]
  simp [I2cReader.see]

/-- SDA rises while SCL is high: a STOP. -/
theorem I2cReader.watch_stop (hw : r.Watches l 1#1) (hsda : l.pins.sda = 0#1) (henv : l.envSda = 1#1)
    (hp : r.phase.next .iStop = some ph) :
    r.watch l [.sda 1#1] = ([.iStop], .resting ph (l.after [.sda 1#1])) := by
  have hlast : r.last = ⟨1#1, 0#1, 0#1⟩ := by
    rw [hw.last, I2cLines.sample, I2cLines.sclIn, I2cLines.sdaIn, hw.scl, hw.env, hsda, henv]
    rfl
  have hrise : ((I2cPinOp.sda 1#1).apply l).sample = ⟨1#1, 1#1, 1#1⟩ := by
    simp [I2cPinOp.apply, I2cLines.sample, I2cLines.sclIn, I2cLines.sdaIn, hw.scl, hw.env, henv]
  have hsee : r.see ⟨1#1, 1#1, 1#1⟩ = ([.iStop], ⟨ph, ⟨1#1, 1#1, 1#1⟩, none, []⟩) := by
    rw [I2cReader.see, hlast]
    simp [I2cReader.item, hp]
  rw [I2cReader.watch_cons, hrise, hsee, I2cReader.resting, I2cLines.after_cons, I2cLines.after_nil, hrise]
  rfl

end

section

variable {ph ph' : Phase} {p : I2cPins}

/-- A START from an idle bus: its one wait stretched or not, SDA falls while SCL is high (rule R151). -/
theorem reads_start (hscl : p.scl = 1#1) (hsda : p.sda = 1#1) (hp : ph.next .iStart = some ph') :
    (I2cReader.resting ph p.lines).Reads p.lines startSteps .iStart (.resting ph' (p.run startSteps).lines) := by
  have he : (if ph = .never ∨ ph = .closed then Event.iStart else .iRestart) = .iStart := by
    revert hp; cases ph <;> simp [Phase.next, isI2cEvent]
  have hw := I2cReader.resting_watches ph (l := p.lines) rfl hscl
  have hrest : p.lines.sample = ⟨1#1, 1#1, 1#1⟩ := by
    simp [I2cLines.sample, I2cLines.sclIn, I2cLines.sdaIn, hsda, hscl, I2cPins.lines]
  have hhold : (I2cPinOp.hold.apply p.lines).sample = ⟨0#1, 1#1, 1#1⟩ := by
    simp [I2cPinOp.apply, I2cLines.sample, I2cLines.sclIn, I2cLines.sdaIn, hsda, I2cPins.lines]
  have hsee : (I2cReader.resting ph p.lines).see (I2cPinOp.hold.apply p.lines).sample =
      ([], { I2cReader.resting ph p.lines with last := (I2cPinOp.hold.apply p.lines).sample }) := by
    simp [I2cReader.see, I2cReader.resting, hrest, hhold]
  refine ⟨fun hs => ?_, fun hs k hk => ?_⟩
  · have hst : stretched hs startSteps = holdIf (hs.headD false) ++ startSteps := by
      cases hs <;> simp [startSteps, stretched, holdIf]
    rw [hst]
    cases hs.headD false with
    | false => exact (I2cReader.watch_unseen rfl _).trans (I2cReader.watch_start hw hsda rfl he hp)
    | true =>
      have hwait : I2cPinOp.wait.apply (I2cPinOp.hold.apply p.lines) = p.lines := rfl
      rw [holdIf, if_pos rfl, List.singleton_append, startSteps, I2cReader.watch_cons, hsee, I2cReader.watch_cons, hwait,
        I2cReader.see_rise (congrArg I2cSample.scl hhold) (congrArg I2cSample.scl hrest)]
      exact I2cReader.watch_start (r := ⟨ph, p.lines.sample, some p.lines.sample, []⟩) ⟨rfl, rfl, hscl⟩ hsda rfl he hp
  · obtain rfl : k = 0 := by
      have hone : waits startSteps = 1 := rfl
      omega
    have hst : stretched hs (heldAt 0 startSteps) = [.hold] := by simp [startSteps, heldAt, stretched]
    rw [hst, I2cReader.watch_cons, hsee]
    rfl

/-- A repeated START: SDA falls while SCL is high (rule R152). -/
theorem reads_restart (hscl : p.scl = 0#1) (hp : ph.next .iRestart = some ph') :
    (I2cReader.resting ph p.lines).Reads p.lines restartSteps .iRestart (.resting ph' (p.run restartSteps).lines) := by
  have he : (if ph = .never ∨ ph = .closed then Event.iStart else .iRestart) = .iRestart := by
    revert hp; cases ph <;> simp [Phase.next, isI2cEvent]
  have hw := I2cReader.resting_watches ph (l := p.lines.after [.sda 1#1]) rfl hscl
  have hpass := I2cReader.Passes.resting ph (l := p.lines) (xs := [.sda 1#1]) rfl hscl (by simp [I2cPinOp.keepsScl])
  refine .of_clocked (ops := [.sda 1#1]) (rest := [.sda 0#1, .scl 0#1]) (I2cReader.resting_watches ph rfl hscl)
    (.other rfl (.nil _)) (.other rfl (.fall (.nil _))) rfl hpass.quiet ?_
  exact (hpass _).trans ((I2cReader.watch_rise_plain hw _).trans (I2cReader.watch_start hw.raised rfl rfl he hp))

/-- A STOP: SDA rises while SCL is high (rule R156). -/
theorem reads_stop (hscl : p.scl = 0#1) (hp : ph.next .iStop = some ph') :
    (I2cReader.resting ph p.lines).Reads p.lines stopSteps .iStop (.resting ph' (p.run stopSteps).lines) := by
  have hw := I2cReader.resting_watches ph (l := p.lines.after [.sda 0#1]) rfl hscl
  have hpass := I2cReader.Passes.resting ph (l := p.lines) (xs := [.sda 0#1]) rfl hscl (by simp [I2cPinOp.keepsScl])
  refine .of_clocked (ops := [.sda 0#1]) (rest := [.sda 1#1]) (I2cReader.resting_watches ph rfl hscl)
    (.other rfl (.nil _)) (.other rfl (.nil _)) rfl hpass.quiet ?_
  exact (hpass _).trans ((I2cReader.watch_rise_plain hw _).trans (I2cReader.watch_stop hw.raised rfl rfl hp))

/-- An acknowledge: one clock with the block driving SDA (rule R155). -/
theorem reads_ack (hscl : p.scl = 0#1) (k : Bit) (hp : ph.next (.iMack k) = some ph') :
    (I2cReader.resting ph p.lines).Reads p.lines (ackSteps k) (.iMack k) (.resting ph' (p.run (ackSteps k)).lines) := by
  obtain rfl : ph = .owed := by revert hp; cases ph <;> simp [Phase.next, isI2cEvent]
  have hw := I2cReader.resting_watches .owed (l := p.lines.after [.sda k]) rfl hscl
  have hpass := I2cReader.Passes.resting .owed (l := p.lines) (xs := [.sda k]) rfl hscl (by simp [I2cPinOp.keepsScl])
  have hitem : clockedItem .owed [(p.lines.after [.sda k]).raised.sample] = some (.iMack k) := by
    rw [I2cLines.raised_driven rfl rfl]
    exact clockedItem_owed k
  refine .of_clocked (ops := [.sda k]) (rest := [.scl 0#1]) (I2cReader.resting_watches .owed rfl hscl)
    (.other rfl (.nil _)) (.fall (.nil _)) rfl hpass.quiet ?_
  exact (hpass _).trans (I2cReader.watch_clock_item hw (m := []) (ops := []) (by simp) hitem hp (by simp))

/-- The lines at rest after a byte: SCL low, SDA let go by both sides (rule R150). -/
theorem I2cReader.resting_afterByte (ph : Phase) {l : I2cLines} (hscl : l.pins.scl = 0#1) (hsda : l.pins.sda = 1#1)
    (x : Byte) :
    I2cReader.resting ph (l.after [.env 1#1, .count 0#4]) = .resting ph (I2cPins.lines ⟨x, 0#4, 0#1, 1#1⟩) := by
  simp [I2cReader.resting, I2cPinOp.apply, I2cLines.sample, I2cLines.sclIn, I2cLines.sdaIn, I2cPins.lines, hscl, hsda]

/-- The counts of the eight bits of a byte. -/
def bitCounts : List (BitVec 4) := [0#4, 1#4, 2#4, 3#4, 4#4, 5#4, 6#4, 7#4]

/-- The steps of I2C_SEND before its acknowledge clock (rule R153). -/
def sendLead (b : Byte) (a : Bit) : List I2cPinOp :=
  .load b :: (bitCounts.flatMap sendBitSteps ++ ([.count 8#4, .sda 1#1, .env a] : List I2cPinOp))

theorem sendSteps_eq (b : Byte) (a : Bit) : sendSteps b a =
    sendLead b a ++ I2cPinOp.scl 1#1 :: .wait :: .sampleAck :: .scl 0#1 :: .env 1#1 :: .count 0#4 :: [] := by
  simp [sendSteps, sendLead, bitCounts]

theorem clocked_sendLead (b : Byte) (a : Bit) : Clocked 0#1 (sendLead b a) 0#1 :=
  .other rfl (.append (.flatMap Clocked.sendBit _) (.other rfl (.other rfl (.other rfl (.nil _)))))

/-- A byte sent: eight clocks with the block driving SDA, a ninth with the slave driving it (rule R153). -/
theorem reads_send (hscl : p.scl = 0#1) (b : Byte) (a : Bit) (hp : ph.next (.iTx b a) = some ph') :
    (I2cReader.resting ph p.lines).Reads p.lines (sendSteps b a) (.iTx b a)
      (.resting ph' (p.run (sendSteps b a)).lines) := by
  have hph : ph = .fresh ∨ ph = .write := by revert hp; cases ph <;> simp [Phase.next, isI2cEvent]
  have hload := I2cReader.Passes.resting ph (l := p.lines) (xs := [.load b]) rfl hscl (by simp [I2cPinOp.keepsScl])
  obtain ⟨r, l, hbits, hw, -, hrph, hr⟩ := I2cReader.passes_sendBits bitCounts
    (I2cReader.resting_watches ph (l := p.lines.after [.load b]) rfl hscl) rfl hph le_rfl
  have hslot := I2cReader.Passes.low (xs := [.count 8#4, .sda 1#1, .env a]) hw (by simp [I2cPinOp.keepsScl])
  have hpass : I2cReader.Passes _ _ (sendLead b a) _ _ := hload.trans (hbits.trans hslot)
  generalize hl' : l.after [.count 8#4, .sda 1#1, .env a] = l' at hpass
  have hw' : I2cReader.Watches { r with last := l'.sample } l' 0#1 := by subst hl'; exact ⟨rfl, hw.env, hw.scl⟩
  have hack : l'.raised.sample = slaveBit a := by subst hl'; exact I2cLines.raised_slave hw.env rfl
  have hitem : clockedItem r.phase (r.bits ++ [l'.raised.sample]) = some (.iTx b a) := by
    have hr' : r.bits = (msbFirst b).map drivenBit := hr.trans (congrArg (List.map drivenBit) (bitsOut_eight b))
    rw [hrph, hr', hack]
    exact (clockedItem_of_sending hph _).trans (clockedItem_sent_byte b a)
  have hitem' := I2cReader.watch_clock_item hw' (m := [.sampleAck]) (ops := [.env 1#1, .count 0#4])
    (by simp [I2cPinOp.movesNoLine]) hitem ((congrArg (Phase.next · _) hrph).trans hp) (by simp [I2cPinOp.keepsScl])
  have hend : I2cReader.resting ph' ((l'.clocked [.sampleAck]).after [.env 1#1, .count 0#4]) =
      .resting ph' (p.run (sendSteps b a)).lines := by
    rw [run_sendSteps]
    subst hl'
    exact I2cReader.resting_afterByte ph' rfl rfl 0x00#8
  rw [← hend, sendSteps_eq]
  exact .of_clocked (I2cReader.resting_watches ph rfl hscl) (clocked_sendLead b a)
    (.other rfl (.fall (.other rfl (.other rfl (.nil _))))) rfl hpass.quiet ((hpass _).trans hitem')

/-- The first seven clocks of a byte received (rule R154). -/
def firstSeven (d : Byte) : List (BitVec 4 × Bit) := (bitCounts.zip (msbFirst d)).take 7

/-- The steps of I2C_RECV before its last clock (rule R154). -/
def recvLead (d : Byte) : List I2cPinOp :=
  .sda 1#1 :: ((firstSeven d).flatMap (fun c => recvBitSteps c.1 c.2) ++
    ([.count 7#4, .env (d.extractLsb' 0 1)] : List I2cPinOp))

theorem recvSteps_eq (d : Byte) : recvSteps d =
    recvLead d ++ I2cPinOp.scl 1#1 :: .wait :: .shiftIn :: .scl 0#1 :: .env 1#1 :: .count 0#4 :: [] := by
  simp [recvSteps, recvLead, firstSeven, bitCounts, msbFirst, recvBitSteps]

theorem clocked_recvLead (d : Byte) : Clocked 0#1 (recvLead d) 0#1 :=
  .other rfl (.append (.flatMap (fun c : BitVec 4 × Bit => Clocked.recvBit c.1 c.2) _) (.other rfl (.other rfl (.nil _))))

/-- A byte received: eight clocks with the block letting SDA go (rule R154). -/
theorem reads_recv (hscl : p.scl = 0#1) (d : Byte) (hp : ph.next (.iRx d) = some ph') :
    (I2cReader.resting ph p.lines).Reads p.lines (recvSteps d) (.iRx d) (.resting ph' (p.run (recvSteps d)).lines) := by
  obtain rfl : ph = .read := by revert hp; cases ph <;> simp [Phase.next, isI2cEvent]
  have hrelease := I2cReader.Passes.resting .read (l := p.lines) (xs := [.sda 1#1]) rfl hscl (by simp [I2cPinOp.keepsScl])
  obtain ⟨r, l, hbits, hw, hsda, hrph, hr⟩ := I2cReader.passes_recvBits (firstSeven d)
    (I2cReader.resting_watches .read (l := p.lines.after [.sda 1#1]) rfl hscl) rfl rfl le_rfl
  have hslot := I2cReader.Passes.low (xs := [.count 7#4, .env (d.extractLsb' 0 1)]) hw (by simp [I2cPinOp.keepsScl])
  have hpass : I2cReader.Passes _ _ (recvLead d) _ _ := hrelease.trans (hbits.trans hslot)
  generalize hl' : l.after [.count 7#4, .env (d.extractLsb' 0 1)] = l' at hpass
  have hw' : I2cReader.Watches { r with last := l'.sample } l' 0#1 := by subst hl'; exact ⟨rfl, hw.env, hw.scl⟩
  have hlast : l'.raised.sample = slaveBit (d.extractLsb' 0 1) := by
    subst hl'; exact I2cLines.raised_slave hw.env hsda
  have hitem : clockedItem r.phase (r.bits ++ [l'.raised.sample]) = some (.iRx d) := by
    have hr' : r.bits ++ [slaveBit (d.extractLsb' 0 1)] = (msbFirst d).map slaveBit :=
      congrArg (· ++ [slaveBit (d.extractLsb' 0 1)]) hr
    rw [hrph, hlast, hr', clockedItem_read_byte]
  have hitem' := I2cReader.watch_clock_item hw' (m := [.shiftIn]) (ops := [.env 1#1, .count 0#4])
    (by simp [I2cPinOp.movesNoLine]) hitem ((congrArg (Phase.next · _) hrph).trans hp) (by simp [I2cPinOp.keepsScl])
  have hend : I2cReader.resting ph' ((l'.clocked [.shiftIn]).after [.env 1#1, .count 0#4]) =
      .resting ph' (p.run (recvSteps d)).lines := by
    rw [run_recvSteps]
    subst hl'
    exact I2cReader.resting_afterByte ph'
      (l := (l.after [.count 7#4, .env (d.extractLsb' 0 1)]).clocked [.shiftIn]) rfl hsda d
  rw [← hend, recvSteps_eq]
  exact .of_clocked (I2cReader.resting_watches .read rfl hscl) (clocked_recvLead d)
    (.other rfl (.fall (.other rfl (.other rfl (.nil _))))) rfl hpass.quiet ((hpass _).trans hitem')

end

end Sys2Proof.Machine
end

section
/-! The line activity of every step reads back as the I2C events it appends (rule R157). -/

namespace Sys2Proof.Machine

/-! ### Every I2C command -/

/-- The lines between commands: let go outside a transaction, SCL held low inside one (rule R150). -/
structure I2cUnit.LinesRest (u : I2cUnit) : Prop where
  closed : u.isOpen = false → u.pins.scl = 1#1 ∧ u.pins.sda = 1#1
  opened : u.isOpen = true → u.pins.scl = 0#1

theorem tracks_iff (r : I2cReader) (s : State) :
    r.Tracks s ↔ r = .resting s.i2c.phase s.i2c.pins.lines ∧ s.i2c.LinesRest := by
  constructor
  · rintro ⟨hphase, hlast, hrise, hbits, hclosed, hopened⟩
    obtain ⟨ph, last, rise, bits⟩ := r
    subst hphase hlast hrise hbits
    exact ⟨rfl, hclosed, hopened⟩
  · rintro ⟨rfl, hclosed, hopened⟩
    exact ⟨rfl, rfl, rfl, rfl, hclosed, hopened⟩

/-- The event of a completed operation takes the grammar from phase to phase (rule R57 f). -/
theorem I2cMove.phase_next {u u' : I2cUnit} {e : Event} {tr : List Event} (hm : I2cMove u e u') (h : u.Sound tr) :
    u.phase.next e = some u'.phase := by
  have hg := (hm.sound h).grammar
  rwa [phaseOf, h.grammar, Option.bind_some] at hg

/-- Where an operation other than a START may come, SCL is low. -/
theorem I2cUnit.LinesRest.scl_low {u : I2cUnit} (h : u.LinesRest) {e : Event} {ph : Phase}
    (hp : u.phase.next e = some ph) (hi : isI2cEvent e = true) (hne : e ≠ .iStart) : u.pins.scl = 0#1 := by
  apply h.opened
  have hphase : u.phase ≠ .never ∧ u.phase ≠ .closed := by
    constructor <;> intro hph <;> rw [hph] at hp <;> cases e <;> simp_all [Phase.next, isI2cEvent]
  revert hphase
  cases hst : u.st <;> simp [I2cUnit.phase, I2cUnit.isOpen, I2cUnit.addressedOrLater, hst]

/-- Where a START may come, the bus is idle. -/
theorem I2cUnit.LinesRest.idle {u : I2cUnit} (h : u.LinesRest) (hl : u.mayStart = true) :
    u.pins.scl = 1#1 ∧ u.pins.sda = 1#1 := by
  apply h.closed
  have hst : u.st = .idle ∨ u.st = .stopped := (allows_start u).1 hl
  rcases hst with hst | hst <;> simp [I2cUnit.isOpen, I2cUnit.addressedOrLater, hst]

/-- A completed operation brings the lines to rest (rules R150 to R156). -/
theorem I2cMove.linesRest {u u' : I2cUnit} {e : Event} {tr : List Event} (hm : I2cMove u e u') (h : u.Sound tr)
    (hr : u.AtRest) : u'.LinesRest := by
  have hlines := (hm.atRest h hr).lines
  refine ⟨fun hclosed => ?_, hlines.2⟩
  have hscl : u'.pins.scl ≠ 0#1 := fun h0 => by simp [hlines.1 h0] at hclosed
  have hrest := hm.linesMirror tr
  cases hm with
  | stop => exact ⟨rfl, rfl⟩
  | start | restart | send | recv | ack => exact absurd (congrArg Prod.fst hrest) hscl

/-- The reader at rest reads each I2C command that is legal as its event, and is at rest where the command leaves unit U1. -/
theorem reads_command {i : Instr} {c : I2cScheme} (hc : schemeOf i = some c) {u : I2cUnit} (hl : u.allows i = true)
    {tr : List Event} (hs : u.Sound tr) (hr : u.LinesRest) (a : EnvAnswer) :
    (I2cReader.resting u.phase u.pins.lines).Reads u.pins.lines (c.steps a) (c.event a)
      (.resting (c.after a { u with pins := u.pins.run (c.steps a) }).phase (u.pins.run (c.steps a)).lines) := by
  have hp := (I2cMove.of_schemeOf hc hl a).phase_next hs
  cases i
  case i2cStart =>
    cases hc
    obtain ⟨hscl, hsda⟩ := hr.idle hl
    exact reads_start hscl hsda hp
  case i2cRestart => cases hc; exact reads_restart (hr.scl_low hp rfl nofun) hp
  case i2cSend b => cases hc; exact reads_send (hr.scl_low hp rfl nofun) b a.ack hp
  case i2cRecv => cases hc; exact reads_recv (hr.scl_low hp rfl nofun) a.data hp
  case i2cAck k => cases hc; exact reads_ack (hr.scl_low hp rfl nofun) k hp
  case i2cStop => cases hc; exact reads_stop (hr.scl_low hp rfl nofun) hp
  all_goals cases hc

/-! ### Every step -/

/-- What rule R157 asks of a step from `s` to `t` whose line activity is `w`, read by a reader `r`. -/
def ReadsBack (r : I2cReader) (w : List I2cSample) (s t : State) : Prop :=
  ∃ es, t.trace = s.trace ++ es ∧ (r.read w).1 = es.filter isI2cEvent ∧ (t.busy = 0#1 → (r.read w).2.Tracks t)

/-- A step in which unit U1 and its lines do not move. -/
theorem ReadsBack.unmoved {r : I2cReader} {s t : State} (hr : r.Tracks s) {es : List Event}
    (htr : t.trRev = es ++ s.trRev) (hes : ∀ e ∈ es, isI2cEvent e = false)
    (hi : t.i2c = { s.i2c with div := t.i2c.div }) : ReadsBack r [] s t := by
  refine ⟨es.reverse, by simp [State.trace, htr], ?_, fun _ => ?_⟩
  · refine (List.filter_eq_nil_iff.2 fun e he => ?_).symm
    simp [hes e (List.mem_reverse.1 he)]
  · obtain ⟨hreader, hclosed, hopened⟩ := (tracks_iff r s).1 hr
    refine (tracks_iff r t).2 ?_
    rw [hi]
    exact ⟨hreader, hclosed, hopened⟩

/-- A command of another owner moves neither unit U1 nor its lines (rule R30). -/
theorem exec_other_frame {i : Instr} (ho : ownerOf i ≠ .i2c) {s t : State} (ht : exec i s = .next t) :
    (∃ es, t.trRev = es ++ s.trRev ∧ ∀ e ∈ es, isI2cEvent e = false) ∧ t.i2c = { s.i2c with div := t.i2c.div } := by
  have ofDraw {f : Flow} {rsp : State → RspWord} (hx : exec i s = .next (conclude rsp f)) (hd : DrawPath s f.state) :
      (∃ es, t.trRev = es ++ s.trRev ∧ ∀ e ∈ es, isI2cEvent e = false) ∧
        t.i2c = { s.i2c with div := t.i2c.div } := by
    cases hx.symm.trans ht
    have hi : f.state.i2c = s.i2c := by rw [hd.textOnly.same]
    simp only [conclude_trRev, conclude_i2c, hi]
    exact ⟨hd.textOnly.events, trivial⟩
  cases h : ownerOf i with
  | i2c => exact absurd h ho
  | front =>
    obtain ⟨rsp, f, hx, hc⟩ := exec_system h s
    refine ⟨⟨[], ?_, by simp⟩, (exec_system_frame ht h).1⟩
    cases hx.symm.trans ht
    rw [conclude_trRev]
    cases hc with
    | answers | illegal | writesText => rfl
    | writesReg hw => rw [Flow.state_go, writeReg_only hw]; rfl
  | spi =>
    obtain ⟨rsp, f, hx, hp⟩ := exec_spi h s
    exact ofDraw hx hp.toDraw
  | raster =>
    obtain ⟨rsp, f, hx, hp⟩ := exec_draw h s
    exact ofDraw hx hp

theorem schemeOf_eq_none {i : Instr} (ho : ownerOf i ≠ .i2c) : schemeOf i = none := by
  cases i
  case i2cStart | i2cRestart | i2cSend | i2cRecv | i2cAck | i2cStop => exact absurd rfl ho
  all_goals rfl

/-- Each operation waits at least once (decision D10). -/
theorem waits_pos {i : Instr} {c : I2cScheme} (hc : schemeOf i = some c) (a : EnvAnswer) : 0 < waits (c.steps a) := by
  apply List.count_pos_iff.2
  cases i
  case i2cStart => cases hc; simp [startSteps]
  case i2cRestart => cases hc; simp [restartSteps]
  case i2cSend b => cases hc; simp [sendSteps]
  case i2cRecv => cases hc; simp [recvSteps, recvBitSteps]
  case i2cAck k => cases hc; simp [ackSteps]
  case i2cStop => cases hc; simp [stopSteps]
  all_goals cases hc

theorem I2cMove.isI2cEvent {u u' : I2cUnit} {e : Event} (hm : I2cMove u e u') : isI2cEvent e = true := by
  cases hm <;> rfl

/-- A legal I2C command: its event if the environment lets it complete, none if it does not. -/
theorem i2c_readsBack {i : Instr} {c : I2cScheme} (hc : schemeOf i = some c) {s t : State} {r : I2cReader}
    (hl : s.i2c.allows i = true) (hs : s.i2c.Sound s.trRev) (hrest : s.i2c.AtRest) (hr : r.Tracks s)
    (ht : exec i s = .next t) :
    ReadsBack r (s.i2c.pins.lines.samples (stepsMade s.answer (c.steps s.answer))) s t := by
  obtain ⟨rfl, hlines⟩ := (tracks_iff r s).1 hr
  have hread := reads_command hc hl hs hlines s.answer
  cases hd : s.answer.done with
  | true =>
    have hm := I2cMove.of_schemeOf hc hl s.answer
    have hpins := c.after_pins hc s.answer s.i2c (s.i2c.pins.run (c.steps s.answer))
    have hdone := hread.done s.answer.stretch
    cases (exec_of_done hc hl hd).symm.trans ht
    rw [stepsMade, if_pos hd]
    refine ⟨[c.event s.answer], s.trace_emit _, ?_, fun _ => (tracks_iff _ _).2 ⟨?_, hm.linesRest hs hrest⟩⟩
    · rw [List.filter_cons_of_pos hm.isI2cEvent]
      exact congrArg Prod.fst hdone
    · refine (congrArg Prod.snd hdone).trans ?_
      rw [State.respond_i2c, I2cScheme.completed, hpins]
  | false =>
    have hheld := hread.held s.answer.stretch (Nat.mod_lt s.answer.stall (waits_pos hc s.answer))
    cases (exec_of_not_done hc hl hd).symm.trans ht
    rw [stepsMade, if_neg (by simp [hd])]
    exact ⟨[], (List.append_nil _).symm, hheld, nofun⟩

/-- The line activity of a command reads back as the I2C events it appends. -/
theorem exec_readsBack {i : Instr} {s t : State} {r : I2cReader} (hs : s.i2c.Sound s.trRev) (hrest : s.i2c.AtRest)
    (hr : r.Tracks s) (ht : exec i s = .next t) : ReadsBack r (i2cActivity i s) s t := by
  unfold i2cActivity
  rw [i2cSteps_eq]
  by_cases ho : ownerOf i = .i2c
  · obtain ⟨c, hc⟩ := exists_schemeOf ho
    rw [hc]
    by_cases hl : s.i2c.allows i = true
    · simp only [Option.map_some, if_pos hl]
      exact i2c_readsBack hc hl hs hrest hr ht
    · simp only [Option.map_some, if_neg hl]
      cases (exec_of_not_allows hc hl).symm.trans ht
      exact .unmoved hr (es := []) rfl (by simp) rfl
  · obtain ⟨⟨es, htr, hes⟩, hi⟩ := exec_other_frame ho ht
    rw [schemeOf_eq_none ho]
    exact .unmoved hr htr hes hi

theorem i2cActivity_of_command {s : State} {w : CmdWord} {i : Instr} (hin : s.inputs.head? = some (.command w))
    (hb : s.busy = 0#1) (hf : s.fault = 0#4) (hd : decode w = .ok i) :
    s.i2cActivity = i2cActivity i s := by
  simp [State.i2cActivity, hin, hb, hf, hd]

/-- Settles O56, by what a step can do: only an accepted command moves the lines. -/
theorem pinActivityReadsBack : Obligations.PinActivityReadsBack := by
  refine ⟨(tracks_iff _ _).2 ⟨rfl, fun _ => ⟨rfl, rfl⟩, nofun⟩, fun s t r hinv hr hbusy hreset hst => ?_⟩
  obtain ⟨-, -, hs, hrest, -⟩ := (inv_iff s).1 hinv
  have still {u : State} (hquiet : s.i2cActivity = []) (htr : u.trRev = s.trRev) (hi : u.i2c = s.i2c) :
      ReadsBack r s.i2cActivity s u := by
    rw [hquiet]
    exact .unmoved hr (es := []) htr (by simp) (by rw [hi])
  rcases step_cases s with ⟨hr', -⟩ | ⟨-, hn, he⟩ | ⟨w, hin, -, hf, he⟩ | ⟨w, e, hin, -, -, hd, he⟩ |
    ⟨w, i, hin, hb, hf, hd, he⟩
  · exact absurd hr' hreset
  · have hnone : s.inputs.head? = none := hn.resolve_right (by simp [hbusy])
    cases he.symm.trans hst
    exact still (by simp [State.i2cActivity, hnone]) rfl rfl
  · cases he.symm.trans hst
    exact still (by simp [State.i2cActivity, hin, hf]) rfl rfl
  · cases he.symm.trans hst
    exact still (by simp [State.i2cActivity, hin, hd]) rfl rfl
  · have hr' : r.Tracks s.nextInput.accept := (tracks_iff _ _).2 ((tracks_iff r s).1 hr)
    rw [i2cActivity_of_command hin hb hf hd]
    exact exec_readsBack (s := s.nextInput.accept) hs (hrest hbusy) hr' (he.symm.trans hst)

end Sys2Proof.Machine
end

section
/-! The three SPI primitives, each in every state and environment (rules R171 to R174). -/

namespace Sys2Proof.Machine

/-- Settles O32, by the two outcomes of a transfer. -/
theorem spiXferEffect : Obligations.SpiXferEffect := by
  intro s o
  have hdecode : decode (0x20#8 ++ 0#56 ++ o) = .ok (.spiXfer o) :=
    (congrArg decode BitVec.append_assoc).trans (decodeOfEncode (.spiXfer o))
  have hexec : exec (.spiXfer o) s =
      .next (conclude (fun t => okResponse 0#1 (zext16 t.spi.rx)) (spiTransfer o s)) := rfl
  refine ⟨hdecode, fun hd => ?_, fun hd => ?_⟩
  · obtain ⟨-, h⟩ := (spiTransfer_cases o s).resolve_right (by simp [hd])
    rw [hexec, h, ← okResponse_zext16]
    rfl
  · obtain ⟨-, h⟩ := (spiTransfer_cases o s).resolve_left (by simp [hd])
    rw [hexec, h]
    rfl

/-- Settles O33: neither assignment looks at the level it replaces. -/
theorem spiLineAssignments : Obligations.SpiLineAssignments := by
  refine fun s l => ⟨?_, ?_, rfl, rfl⟩
  · exact (congrArg decode BitVec.append_assoc).trans (decodeOfEncode (.spiCs l))
  · exact (congrArg decode BitVec.append_assoc).trans (decodeOfEncode (.spiDc l))

end Sys2Proof.Machine
end

section
/-! SUPPORT. The courses of all three units do the same whatever the SPI divisor holds, and leave it as it was (rules R43,
R176). -/

namespace Sys2Proof.Machine

/-- The state with another SPI divisor. -/
def State.withSpiDiv (d : Half) (s : State) : State := { s with spi.div := d }

/-- A course that does the same whatever the SPI divisor holds, and leaves it as it was. -/
def SpiDivBlind (k : State → Flow) : Prop :=
  ∀ (d : Half) (s : State), k (s.withSpiDiv d) = (k s).map (State.withSpiDiv d)

theorem SpiDivBlind.bind {f k : State → Flow} (hf : SpiDivBlind f) (hk : SpiDivBlind k) :
    SpiDivBlind fun s => (f s).bind k :=
  fun d s => (congrArg (Flow.bind · k) (hf d s)).trans (Flow.bind_map (hk d) (f s))

theorem SpiDivBlind.forEach {α : Type} {body : α → State → Flow} (hb : ∀ x, SpiDivBlind (body x)) (xs : List α) :
    SpiDivBlind (Flow.forEach body xs) :=
  fun d s => Flow.forEach_map (fun x => hb x d) xs s

/-- A course that starts with an update that neither reads nor writes the divisor. -/
theorem SpiDivBlind.comp {k : State → Flow} (hk : SpiDivBlind k) {g : State → State}
    (hg : ∀ d s, g (s.withSpiDiv d) = (g s).withSpiDiv d) : SpiDivBlind fun s => k (g s) :=
  fun d s => (congrArg k (hg d s)).trans (hk d (g s))

theorem SpiDivBlind.update {g : State → State} (hg : ∀ d s, g (s.withSpiDiv d) = (g s).withSpiDiv d) :
    SpiDivBlind fun s => .go (g s) :=
  fun d s => congrArg Flow.go (hg d s)

/-- The end of a command whose response does not read the divisor either. -/
theorem SpiDivBlind.conclude {k : State → Flow} (hk : SpiDivBlind k) {rsp : State → RspWord}
    (hrsp : ∀ d t, rsp (State.withSpiDiv d t) = rsp t) {d : Half} {s t : State}
    (ht : .next (conclude rsp (k s)) = (.next t : Host.Outcome State Fault Refusal)) :
    (.next (Machine.conclude rsp (k (s.withSpiDiv d))) : Host.Outcome State Fault Refusal) = .next (t.withSpiDiv d) := by
  cases ht
  rw [hk d s]
  cases k s with
  | go u => exact congrArg (fun w => Host.Outcome.next ((u.withSpiDiv d).respond w)) (hrsp d u)
  | hung u | faulted c u => rfl

/-! ### The courses of the units -/

theorem spiDivBlind_spiTransfer (o : Byte) : SpiDivBlind (spiTransfer o) := by
  intro d s
  have ha : (s.withSpiDiv d).answer = s.answer := rfl
  simp only [spiTransfer, ha]
  split <;> rfl

theorem spiDivBlind_frame (dc : Bit) (o : Byte) : SpiDivBlind (frame dc o) :=
  .bind (.comp (spiDivBlind_spiTransfer o) fun _ _ => rfl) (.update fun _ _ => rfl)

theorem spiDivBlind_frames (l : List (Bit × Byte)) : SpiDivBlind (frames l) := by
  unfold frames
  exact .forEach (fun f => spiDivBlind_frame f.1 f.2) l

theorem spiDivBlind_setWindow (x0 y0 x1 y1 : Half) : SpiDivBlind (setWindow x0 y0 x1 y1) :=
  fun d s => spiDivBlind_frames (windowFrames s.cfg x0 y0 x1 y1) d s

theorem spiDivBlind_writePixel (x y c : Half) : SpiDivBlind (writePixel x y c) :=
  .bind (.comp (spiDivBlind_setWindow x y (x + 1#16) (y + 1#16)) fun _ _ => rfl) (spiDivBlind_frames (data16 c))

theorem spiDivBlind_drawCell (x y : Half) (k : Fin 95) (cell : Fin 5 × Fin 8) : SpiDivBlind (drawCell x y k cell) := by
  intro d s
  simp only [drawCell]
  split
  · rfl
  · exact spiDivBlind_writePixel _ _ _ d
      { s with ras.col := BitVec.ofNat 3 cell.1.val, ras.row := BitVec.ofNat 3 cell.2.val }

theorem spiDivBlind_drawGlyph (x y : Half) (code : Byte) : SpiDivBlind (drawGlyph x y code) := by
  unfold drawGlyph
  cases glyphIndex? code with
  | none => exact fun _ _ => rfl
  | some k => exact .comp (.forEach (spiDivBlind_drawCell x y k) glyphCells) fun _ _ => rfl

theorem spiDivBlind_drawText (ps : List Byte) : SpiDivBlind (drawText ps) := by
  induction ps with
  | nil => exact fun _ _ => rfl
  | cons p ps ih =>
    have hfrom : SpiDivBlind (drawFrom p ps) := by
      intro d t
      have hcfg : (t.withSpiDiv d).cfg = t.cfg := rfl
      have hch : (t.withSpiDiv d).readText p = t.readText p := rfl
      simp only [drawFrom, hcfg, hch]
      cases classify t.cfg (t.readText p) with
      | terminator => rfl
      | newline => exact ih.comp (g := newLine) (fun _ _ => rfl) d t
      | other => exact (spiDivBlind_drawGlyph _ _ _).bind (ih.comp (g := advance) fun _ _ => rfl) d t
    exact hfrom.comp fun _ _ => rfl

theorem spiDivBlind_i2cCommand (legal : I2cUnit → Bool) (steps : EnvAnswer → List I2cPinOp) (event : EnvAnswer → Event)
    (after : EnvAnswer → I2cUnit → I2cUnit) : SpiDivBlind fun s => i2cCommand (legal s.i2c) steps event after s := by
  intro d s
  have hi : (s.withSpiDiv d).i2c = s.i2c := rfl
  have ha : (s.withSpiDiv d).answer = s.answer := rfl
  simp only [i2cCommand, i2cAwait, hi, ha]
  split
  · split <;> rfl
  · rfl

end Sys2Proof.Machine
end

section
/-! The SPI clock divisor influences nothing but itself (rules R43, R176). -/

namespace Sys2Proof.Machine

section

variable {i : Instr} {d : Half} {s t : State} (ht : exec i s = .next t)

include ht

/-- A command of units U2 and U3 does not read the divisor it stands beside. -/
theorem exec_display_withSpiDiv (ho : ownerOf i = .spi ∨ ownerOf i = .raster) :
    exec i (s.withSpiDiv d) = .next (t.withSpiDiv d) := by
  cases i
  case spiXfer b => exact (spiDivBlind_spiTransfer b).conclude (fun _ _ => rfl) ht
  case spiCs l | spiDc l => cases ht; rfl
  case lcdCmd b => exact (spiDivBlind_frame 0#1 b).conclude (fun _ _ => rfl) ht
  case lcdData b => exact (spiDivBlind_frame 1#1 b).conclude (fun _ _ => rfl) ht
  case lcdData16 h => exact (spiDivBlind_frames (data16 h)).conclude (fun _ _ => rfl) ht
  case setWindow x0 y0 x1 y1 => exact (spiDivBlind_setWindow x0 y0 x1 y1).conclude (fun _ _ => rfl) ht
  case writePixel x y c => exact (spiDivBlind_writePixel x y c).conclude (fun _ _ => rfl) ht
  case clear h =>
    have hclear : SpiDivBlind fun u => (setWindow 0#16 0#16 u.cfg.clearX1 u.cfg.clearY1 u).bind
        (Flow.times (lcdData16 h) (Config.surfW * Config.surfH)) := by
      intro d u
      simp only [clear_eq]
      exact spiDivBlind_frames (clearFrames u.cfg h) d u
    exact hclear.conclude (fun _ _ => rfl) ht
  case drawChar x y c => exact (spiDivBlind_drawGlyph x y c).conclude (fun _ _ => rfl) ht
  case drawString x y p =>
    exact ((spiDivBlind_drawText (textIndices p)).comp
      (g := fun u => { u with ras.curX := x, ras.curY := y, ras.orgX := x, ras.txtPtr := p }) fun _ _ => rfl).conclude
      (fun _ _ => rfl) ht
  all_goals simp [ownerOf] at ho

/-- An I2C command reads unit U1 alone. -/
theorem exec_i2c_withSpiDiv (ho : ownerOf i = .i2c) : exec i (s.withSpiDiv d) = .next (t.withSpiDiv d) := by
  obtain ⟨c, hc⟩ := exists_schemeOf ho
  have hrsp (d : Half) (u : State) : c.rsp (u.withSpiDiv d) = c.rsp u := by
    cases i
    case i2cStart | i2cRestart | i2cSend | i2cRecv | i2cAck | i2cStop => cases hc; rfl
    all_goals cases hc
  rw [exec_of_schemeOf hc] at ht ⊢
  exact (spiDivBlind_i2cCommand (·.allows i) c.steps c.event c.after).conclude hrsp ht

/-- A system command: register number 2 is the divisor's, every other names something else (rule R52). -/
theorem exec_system_withSpiDiv (ho : ownerOf i = .front) (hr : i ≠ .rdReg 2) (hw : ∀ v, i ≠ .wrReg 2 v) :
    exec i (s.withSpiDiv d) = .next (t.withSpiDiv d) := by
  cases i
  case nop | txtWr | txtRd => cases ht; rfl
  case rdReg r =>
    have hr2 : r ≠ 2#8 := fun h => hr (by rw [h]; rfl)
    have hread : (s.withSpiDiv d).readReg r = s.readReg r := by
      simp only [State.readReg, if_neg hr2]
      rfl
    obtain rfl := Host.Outcome.next.inj ht
    simp only [exec, execRdReg, hread]
    cases s.readReg r <;> rfl
  case wrReg r v =>
    have hr2 : r ≠ 2#8 := fun h => hw v (by rw [h]; rfl)
    have hwrite : (s.withSpiDiv d).writeReg r v = (s.writeReg r v).map (State.withSpiDiv d) := by
      simp only [State.writeReg, if_neg hr2]
      split
      · rfl
      split
      · rfl
      split <;> rfl
    obtain rfl := Host.Outcome.next.inj ht
    simp only [exec, execWrReg, hwrite]
    cases s.writeReg r v <;> rfl
  all_goals cases ho

end

/-- Settles O50, owner by owner of the command. -/
theorem spiDivisorHasNoEffect : Obligations.SpiDivisorHasNoEffect := by
  refine ⟨fun i s t d hr hw ht => ?_, fun s d v => rfl⟩
  cases ho : ownerOf i with
  | front => exact exec_system_withSpiDiv ht ho hr hw
  | i2c => exact exec_i2c_withSpiDiv ht ho
  | spi => exact exec_display_withSpiDiv ht (.inl ho)
  | raster => exact exec_display_withSpiDiv ht (.inr ho)

end Sys2Proof.Machine
end

section
/-! SUPPORT. What is seen of an SPI transfer (rule R178), clock by clock, in every mode and bit order: the bits that go out,
the levels of MOSI at the sampling edges, and what a reader of the lines makes of it. -/

namespace Sys2Proof.Machine

variable {p : Params}

/-! ### The bits that go out -/

/-- The bits that leave the shifter as others come in. -/
def sentBits (p : Params) : Byte → List Bit → List Bit
  | _, [] => []
  | x, b :: bs => firstBit p x :: sentBits p (shiftBit p x b) bs

theorem length_bitsInOrder (p : Params) (x : Byte) : (bitsInOrder p x).length = 8 := by
  unfold bitsInOrder
  split <;> rfl

/-- A shift takes the first bit away and puts the new one behind the last. -/
theorem bitsInOrder_shiftBit (p : Params) (x : Byte) (b : Bit) :
    bitsInOrder p x ++ [b] = firstBit p x :: bitsInOrder p (shiftBit p x b) := by
  unfold bitsInOrder firstBit shiftBit
  cases p.spiMsbFirst <;> revert x b <;> decide

/-- What has come in goes out after the byte that was there. -/
theorem sentBits_eq_take (x : Byte) (bs : List Bit) : sentBits p x bs = (bitsInOrder p x ++ bs).take bs.length := by
  induction bs generalizing x with
  | nil => simp [sentBits]
  | cons b bs ih =>
    have hshift : bitsInOrder p x ++ b :: bs = firstBit p x :: (bitsInOrder p (shiftBit p x b) ++ bs) := by
      rw [List.append_cons, bitsInOrder_shiftBit, List.cons_append]
    rw [sentBits, ih, hshift, List.length_cons, List.take_succ_cons]

/-- A whole byte in moves a whole byte out. -/
theorem sentBits_bitsInOrder (o m : Byte) : sentBits p o (bitsInOrder p m) = bitsInOrder p o := by
  rw [sentBits_eq_take, List.take_left' (by rw [length_bitsInOrder, length_bitsInOrder])]

/-! ### One clock -/

theorem sckIdle_ne_not (p : Params) : p.sckIdle ≠ ~~~p.sckIdle := by
  generalize p.sckIdle = c
  revert c
  decide

section

variable {l : SpiLines} (hl : l.pins.sck = p.sckIdle) (n : BitVec 4) (b : Bit)

include hl

/-- One clock has one sampling edge, at which MOSI is at the bit that goes out. -/
theorem mosiAtEdges_clock (w : List SpiSeen) :
    mosiAtEdges p p.sckIdle (l.seen p (spiBitSteps p n b) ++ w) =
      firstBit p l.pins.shift :: mosiAtEdges p p.sckIdle w := by
  have hne := sckIdle_ne_not p
  cases hlate : samplesLate p <;>
    simp [spiBitSteps, SpiLines.seen, SpiPinOp.apply, mosiAtEdges, samplingEdge, hlate, hl, hne, hne.symm]

/-- A reader takes up one pair of bits at a clock, and where they make up a transfer begins anew. -/
theorem SpiReader.read_clock (bits : List (Bit × Bit)) :
    SpiReader.read p ⟨p.sckIdle, bits⟩ (l.seen p (spiBitSteps p n b)) =
      match xferOf p (bits ++ [(firstBit p l.pins.shift, b)]) with
      | some e => ([e], .fresh p)
      | none => ([], ⟨p.sckIdle, bits ++ [(firstBit p l.pins.shift, b)]⟩) := by
  have hne := sckIdle_ne_not p
  cases hlate : samplesLate p <;> cases hx : xferOf p (bits ++ [(firstBit p l.pins.shift, b)]) <;>
    simp [spiBitSteps, SpiLines.seen, SpiPinOp.apply, SpiReader.read, SpiReader.see, SpiReader.fresh, samplingEdge, hlate,
      hl, hne, hne.symm, hx]

end

/-! ### One clock after another -/

/-- The clocks of a list of bits that come in, each with its number (rule R178). -/
def clocks (p : Params) (cs : List (BitVec 4 × Bit)) : List SpiPinOp := cs.flatMap fun c => spiBitSteps p c.1 c.2

/-- The lines after one clock: a bit out, a bit in, SCK back at rest. -/
def SpiLines.clocked (p : Params) (l : SpiLines) (c : BitVec 4 × Bit) : SpiLines :=
  ⟨⟨shiftBit p l.pins.shift c.2, c.1, p.sckIdle, firstBit p l.pins.shift⟩, c.2, c.2⟩

theorem seen_clocks_cons (l : SpiLines) (c : BitVec 4 × Bit) (cs : List (BitVec 4 × Bit)) (ops : List SpiPinOp) :
    l.seen p (clocks p (c :: cs) ++ ops) =
      l.seen p (spiBitSteps p c.1 c.2) ++ (l.clocked p c).seen p (clocks p cs ++ ops) := by
  simp only [clocks, List.flatMap_cons, List.append_assoc, SpiLines.seen_append, foldl_spiBitSteps, SpiLines.clocked]

/-- A step that leaves SCK at rest is no edge. -/
theorem mosiAtEdges_count {l : SpiLines} (hl : l.pins.sck = p.sckIdle) (n : BitVec 4) :
    mosiAtEdges p p.sckIdle (l.seen p [.count n]) = [] := by
  simp [SpiLines.seen, SpiPinOp.apply, mosiAtEdges, hl]

theorem mosiAtEdges_clocks {l : SpiLines} (hl : l.pins.sck = p.sckIdle) (cs : List (BitVec 4 × Bit)) (n : BitVec 4) :
    mosiAtEdges p p.sckIdle (l.seen p (clocks p cs ++ [.count n])) =
      sentBits p l.pins.shift (cs.map Prod.snd) := by
  induction cs generalizing l with
  | nil => exact mosiAtEdges_count hl n
  | cons c cs ih =>
    rw [seen_clocks_cons, mosiAtEdges_clock hl, ih rfl]
    rfl

/-- Fewer than eight clocks are no transfer. -/
theorem xferOf_short {bits : List (Bit × Bit)} (h : bits.length < 8) : xferOf p bits = none := by
  have hlen : (if p.spiMsbFirst then bits.map Prod.fst else (bits.map Prod.fst).reverse).length ≠ 8 := by
    split <;> simp only [List.length_reverse, List.length_map] <;> omega
  rw [xferOf, byteInOrder, byteOfBits_eq_none hlen, Option.bind_none]

/-- The bits of two bytes, side by side in bus order, are a transfer of the one out and the other in. -/
theorem xferOf_zip (o m : Byte) : xferOf p ((bitsInOrder p o).zip (bitsInOrder p m)) = some (.sXfer o m) := by
  have hlen : (bitsInOrder p o).length = (bitsInOrder p m).length := by rw [length_bitsInOrder, length_bitsInOrder]
  rw [xferOf, List.map_fst_zip hlen.le, List.map_snd_zip hlen.ge, byteInOrder_bitsInOrder, byteInOrder_bitsInOrder]
  rfl

theorem SpiReader.read_count {l : SpiLines} (hl : l.pins.sck = p.sckIdle) (n : BitVec 4) :
    (SpiReader.fresh p).read p (l.seen p [.count n]) = ([], .fresh p) := by
  simp [SpiLines.seen, SpiPinOp.apply, SpiReader.read, SpiReader.see, SpiReader.fresh, hl]

/-- The clocks that are still to come before a transfer is whole end in that transfer. -/
theorem SpiReader.read_clocks {e : Event} {n : BitVec 4} {cs : List (BitVec 4 × Bit)} {l : SpiLines}
    {bits : List (Bit × Bit)} (hl : l.pins.sck = p.sckIdle) (hcs : cs ≠ []) (hlen : bits.length + cs.length = 8)
    (he : xferOf p (bits ++ (sentBits p l.pins.shift (cs.map Prod.snd)).zip (cs.map Prod.snd)) = some e) :
    SpiReader.read p ⟨p.sckIdle, bits⟩ (l.seen p (clocks p cs ++ [.count n])) = ([e], .fresh p) := by
  induction cs generalizing l bits with
  | nil => exact absurd rfl hcs
  | cons c cs ih =>
    rw [List.length_cons] at hlen
    rw [List.map_cons, sentBits, List.zip_cons_cons, List.append_cons] at he
    rw [seen_clocks_cons, SpiReader.read_append, SpiReader.read_clock hl]
    by_cases hlast : cs = []
    · subst hlast
      rw [List.map_nil, List.zip_nil_right, List.append_nil] at he
      have hcount := SpiReader.read_count (l := l.clocked p c) rfl n
      simp only [he, clocks, List.flatMap_nil, List.nil_append, hcount, List.append_nil]
    · have hpos := List.length_pos_iff.2 hlast
      have hshort : xferOf p (bits ++ [(firstBit p l.pins.shift, c.2)]) = none := by
        apply xferOf_short
        rw [List.length_append, List.length_singleton]
        omega
      have hrest := ih (l := l.clocked p c) (bits := bits ++ [(firstBit p l.pins.shift, c.2)]) rfl hlast
        (by rw [List.length_append, List.length_singleton]; omega) he
      simp only [hshort, hrest, List.nil_append]

/-! ### The transfer -/

/-- The eight clocks of a transfer with the bits of the slave's byte (rule R178). -/
def byteClocks (p : Params) (m : Byte) : List (BitVec 4 × Bit) :=
  [0#4, 1#4, 2#4, 3#4, 4#4, 5#4, 6#4, 7#4].zip (bitsInOrder p m)

theorem byteClocks_bits (p : Params) (m : Byte) : (byteClocks p m).map Prod.snd = bitsInOrder p m :=
  List.map_snd_zip (length_bitsInOrder p m).le

/-- A transfer loads the byte, runs its eight clocks and lets the count fall back. -/
theorem spiSteps_eq (p : Params) (o m : Byte) :
    spiSteps p o m = .load o :: (clocks p (byteClocks p m) ++ [.count 0#4]) := rfl

section

variable {q : SpiPins} (hq : q.sck = p.sckIdle) (o m : Byte)

include hq

/-- At the load nothing is seen but the lines at rest. -/
theorem seen_spiSteps : q.lines.seen p (spiSteps p o m) = .levels p.sckIdle q.mosi Config.idleMiso ::
    ((SpiPinOp.load o).apply p q.lines).seen p (clocks p (byteClocks p m) ++ [.count 0#4]) := by
  rw [spiSteps_eq, ← hq]
  rfl

/-- In every mode and bit order MOSI shows the bits of the byte at the sampling edges, in the order they go over the bus. -/
theorem mosiAtEdges_transfer : mosiAtEdges p p.sckIdle (q.lines.seen p (spiSteps p o m)) = bitsInOrder p o := by
  rw [seen_spiSteps hq, mosiAtEdges, if_neg fun h => h.1 rfl, mosiAtEdges_clocks hq, byteClocks_bits]
  exact sentBits_bitsInOrder o m

/-- A reader makes of a transfer its event, and stands as before. -/
theorem SpiReader.read_transfer :
    (SpiReader.fresh p).read p (q.lines.seen p (spiSteps p o m)) = ([.sXfer o m], .fresh p) := by
  have hload : (SpiReader.fresh p).see p (.levels p.sckIdle q.mosi Config.idleMiso) = ([], .fresh p) :=
    if_neg fun h => h.1 rfl
  have hbits : xferOf p ([] ++ (sentBits p o ((byteClocks p m).map Prod.snd)).zip ((byteClocks p m).map Prod.snd)) =
      some (.sXfer o m) := by
    rw [byteClocks_bits, sentBits_bitsInOrder, List.nil_append, xferOf_zip]
  have hlen : (byteClocks p m).length = 8 := by rw [← List.length_map Prod.snd, byteClocks_bits, length_bitsInOrder]
  have hclocks := SpiReader.read_clocks (n := 0#4) (bits := []) (l := (SpiPinOp.load o).apply p q.lines) hq
    (List.ne_nil_of_length_eq_add_one hlen) ((Nat.zero_add _).trans hlen) hbits
  rw [seen_spiSteps hq, SpiReader.read, hload]
  exact hclocks

end

end Sys2Proof.Machine
end

section
/-! The SPI bus at pin level: the bits MOSI shows, and the events a reader of the lines makes of them (rule R178). -/

namespace Sys2Proof.Machine

/-- Settles O57: in mode 0 the rising edges are the sampling ones, and with bit 7 first the bits go out in the order of
`msbFirst`. -/
theorem spiShifterSendsMsbFirst : Obligations.SpiShifterSendsMsbFirst := by
  refine fun p q o m => ⟨fun hmode hmsb hsck => ?_, transfer_eq q p o m⟩
  have hidle : p.sckIdle = 0#1 := by rw [Params.sckIdle, hmode]; decide
  have hmosi : mosiAtEdges p 0#1 (q.lines.seen p (spiSteps p o m)) = msbFirst o := by
    rw [← hidle, mosiAtEdges_transfer (hsck.trans hidle.symm), bitsInOrder, if_pos hmsb]
  rw [hmosi]
  refine ⟨?_, rfl, fun n hn => ?_, ?_⟩
  · rw [samplingEdge, samplesLate, hmode, hidle]
    decide
  · interval_cases n <;> rfl
  · rw [transfer_eq, SpiPins.resting, hidle, lastBit, if_pos hmsb]

/-- A reader that stands at rest makes of each event's activity the event, if it is one of this bus, and stands at rest
again. -/
theorem SpiReader.read_spiActivity {p : Params} {q : SpiPins} (hq : q.sck = p.sckIdle) (e : Event) :
    (SpiReader.fresh p).read p (spiActivity p q e) = ([e].filter isSpiEvent, .fresh p) := by
  cases e
  case sXfer o m => exact SpiReader.read_transfer hq o m
  all_goals rfl

/-- Settles O59, event by event: each leaves SCK and the reader at rest. -/
theorem spiActivityReadsBack : Obligations.SpiActivityReadsBack := by
  intro p q es hq
  induction es generalizing q with
  | nil => rfl
  | cons e es ih =>
    have hrest := ih (q.after p e) (q.after_sck p e hq)
    rw [spiRun, SpiReader.read_append, SpiReader.read_spiActivity hq, hrest, ← List.filter_append, List.singleton_append]

end Sys2Proof.Machine
end

section
/-! SUPPORT. What the commands of the display family do, said once for all six: each is a list of framed writes after a list of
events (rules R190 to R196), and no course of framed writes faults (rule R200). -/

namespace Sys2Proof.Machine

open Sys2Proof.Claims

/-! ### Events before the framed writes -/

/-- Events emitted one after another (rule R14). -/
def State.emitAll (s : State) (es : List Event) : State := { s with trRev := es.reverse ++ s.trRev }

theorem State.trace_sent (s : State) (fs : List (Bit × Byte)) : (s.sent fs).trace = s.trace ++ sentEvents fs s.env := by
  simp [State.trace]

theorem State.trace_emitAll_sent (s : State) (es : List Event) (fs : List (Bit × Byte)) :
    ((s.emitAll es).sent fs).trace = s.trace ++ (es ++ sentEvents fs s.env) := by
  simp [State.trace, State.emitAll]

/-! ### The bytes of the statements are the model's framed writes -/

theorem windowBytes_eq (p : Params) (x0 y0 x1 y1 : Half) : windowBytes p x0 y0 x1 y1 = windowFrames p x0 y0 x1 y1 := rfl

theorem pixelBytes_eq (p : Params) (x y c : Half) :
    windowBytes p x y (x + 1#16) (y + 1#16) ++ wordBytes c = pixelFrames p x y c := rfl

theorem clearBytes_eq (p : Params) (h : Half) :
    windowBytes p 0#16 0#16 p.clearX1 p.clearY1 ++ (List.replicate (128 * 128) (wordBytes h)).flatten = clearFrames p h := rfl

/-! ### The course of a display command -/

theorem frames_singleton (f : Bit × Byte) (s : State) : frames [f] s = frame f.1 f.2 s := by
  rw [frames, Flow.forEach_cons]
  cases frame f.1 f.2 s <;> rfl

/-- A display command is its events and then its framed writes, answered OK with no data (rules R191 to R196). -/
theorem exec_display {i : Instr} {s : State} {pre : List Event} {bytes : List (Bit × Byte)}
    (h : displayBytes s.cfg i = some (pre, bytes)) :
    exec i s = .next (conclude (fun _ => okResponse 0#1 0x0000#16) (frames bytes (s.emitAll pre))) := by
  cases i
  case lcdCmd b =>
    cases h
    rw [frames_singleton]
    rfl
  case lcdData b =>
    cases h
    rw [frames_singleton]
    rfl
  case lcdData16 w =>
    cases h
    rfl
  case setWindow x0 y0 x1 y1 =>
    cases h
    rfl
  case writePixel x y c =>
    cases h
    rw [exec, execWritePixel, writePixel_eq]
    rfl
  case clear w =>
    obtain ⟨rfl, rfl⟩ := Prod.mk.inj (Option.some.inj h)
    rw [exec, execClear, clear_eq]
    rfl
  all_goals cases h

/-- In a responsive environment a display command ends OK, all its framed writes done (rule R200). -/
theorem exec_display_responsive {i : Instr} {s : State} {pre : List Event} {bytes : List (Bit × Byte)}
    (h : displayBytes s.cfg i = some (pre, bytes)) (hr : Responsive bytes.length s) :
    exec i s = .next (ended ((s.emitAll pre).sent bytes)) := by
  have hgo : frames bytes (s.emitAll pre) = .go ((s.emitAll pre).sent bytes) :=
    frames_go bytes _ (hr.of_env rfl)
  rw [exec_display h, hgo]
  rfl

/-! ### No fault -/

/-- A course that raises no fault (rule R200). -/
def Flow.Faultless : Flow → Prop
  | .go _ => True
  | .hung _ => True
  | .faulted _ _ => False

theorem Flow.Faultless.bind {f : Flow} {k : State → Flow} (hf : f.Faultless) (hk : ∀ t, (k t).Faultless) :
    (f.bind k).Faultless := by
  cases f with
  | go t => exact hk t
  | hung t => trivial
  | faulted c t => exact hf.elim

theorem faultless_spiTransfer (o : Byte) (s : State) : (spiTransfer o s).Faultless := by
  rcases spiTransfer_cases o s with ⟨-, h⟩ | ⟨-, h⟩ <;> rw [h] <;> trivial

theorem faultless_frame (dc : Bit) (o : Byte) (s : State) : (frame dc o s).Faultless :=
  (faultless_spiTransfer o _).bind fun _ => trivial

theorem faultless_frames (l : List (Bit × Byte)) (s : State) : (frames l s).Faultless := by
  induction l generalizing s with
  | nil => trivial
  | cons f l ih => exact (faultless_frame f.1 f.2 s).bind ih

/-- The OK response with its flag at 0 (rules R110, R111). -/
theorem okResponse_zero (d : Half) : okResponse 0#1 d = 0x00#8 ++ d := rfl

/-- A command has ended with status OK and no flag, or hangs, and FAULT is as it was (rules R110, R284). -/
def OkOrHangs (s t : State) : Prop :=
  t.fault = s.fault ∧ ((∃ d : Half, t.rsp = some (0x00#8 ++ d) ∧ t.busy = 0#1) ∨ t.rsp = none ∧ t.busy = 1#1)

theorem Flow.Faultless.okOrHangs {s : State} {f : Flow} (hf : f.Faultless) (hfault : f.state.fault = s.fault)
    (data : State → Half) : OkOrHangs s (conclude (fun t => okResponse 0#1 (data t)) f) := by
  cases f with
  | go t => exact ⟨hfault, .inl ⟨data t, congrArg some (okResponse_zero _), rfl⟩⟩
  | hung t => exact ⟨hfault, .inr ⟨rfl, rfl⟩⟩
  | faulted c t => exact hf.elim

end Sys2Proof.Machine
end

section
/-! The six display commands in a responsive environment, and where they stop in any other (rules R190 to R197, R200, R285). -/

namespace Sys2Proof.Machine

open Sys2Proof.Claims

/-- A word made of a command's opcode and operands decodes to the command (rule R101). -/
theorem decode_of_append {i : Instr} {w : CmdWord} (h : w = i.opcode ++ i.operands) : decode w = .ok i :=
  h ▸ decodeOfEncode i

/-- Settles O34: both commands are one framed write, which completes or hangs. -/
theorem lcdByteIsOneFramedWrite : Obligations.LcdByteIsOneFramedWrite := by
  refine ⟨fun b => ⟨decode_of_append BitVec.append_assoc, decode_of_append BitVec.append_assoc⟩, ?_⟩
  rintro s b i d hi u rfl
  have hexec : exec i s = .next (conclude (fun _ => okResponse 0#1 0x0000#16) (frame d b s)) := by
    simp only [List.mem_cons, List.not_mem_nil, or_false, Prod.mk.injEq] at hi
    rcases hi with ⟨rfl, rfl⟩ | ⟨rfl, rfl⟩ <;> rfl
  rw [hexec]
  rcases frame_cases d b s with ⟨hdone, hf⟩ | ⟨hdone, hf⟩ <;> rw [hf]
  · exact ⟨fun _ => rfl, fun h => absurd (h.symm.trans hdone) (by decide)⟩
  · exact ⟨fun h => absurd (h.symm.trans hdone) (by decide), fun _ => rfl⟩

/-- Settles O35: the command's framed writes are the two halves of its word. -/
theorem lcdData16SendsTwoBytes : Obligations.LcdData16SendsTwoBytes :=
  fun _ h => ⟨decode_of_append BitVec.append_assoc, rfl, exec_display_responsive (i := .lcdData16 h) (pre := []) rfl⟩

/-- Settles O36: ten framed writes, or eleven with WINDOW_RAMWR, and the environment lets eleven complete. -/
theorem setWindowSendsItsBytes : Obligations.SetWindowSendsItsBytes := by
  intro s x0 y0 x1 y1
  have hlen := length_windowFrames s.cfg x0 y0 x1 y1
  rw [← windowBytes_eq] at hlen
  refine ⟨decode_of_append ?_, hlen, fun hr => exec_display_responsive (pre := []) rfl (hr.mono ?_)⟩
  · simp only [Instr.operands, BitVec.append_assoc, BitVec.cast_eq]
    rfl
  · rw [hlen]
    split <;> omega

/-- Settles O37: the window's framed writes and two more, after the marker. -/
theorem writePixelSendsItsBytes : Obligations.WritePixelSendsItsBytes := by
  intro s x y c
  have hlen := length_pixelFrames s.cfg x y c
  rw [← pixelBytes_eq] at hlen
  refine ⟨decode_of_append ?_, hlen, fun hr => exec_display_responsive (pre := [.pix x y c]) rfl (hr.mono ?_)⟩
  · simp only [Instr.operands, BitVec.append_assoc, BitVec.cast_eq]
    rfl
  · rw [hlen]
    split <;> omega

/-- Settles O38: each framed write is four events and none is a marker; their number is the window's and two for each of the
16384 colour words. -/
theorem clearStreamsTheSurface : Obligations.ClearStreamsTheSurface := by
  intro s h
  refine ⟨decode_of_append BitVec.append_assoc, fun hr => ?_⟩
  rw [clearBytes_eq]
  have hlen := length_clearFrames s.cfg h
  have hfit : Responsive (clearFrames s.cfg h).length s := hr.mono (by rw [hlen]; split <;> omega)
  have hexec : exec (.clear h) s = .next (ended (s.sent (clearFrames s.cfg h))) :=
    exec_display_responsive (pre := []) (congrArg some (congrArg (Prod.mk []) (clearBytes_eq s.cfg h))) hfit
  refine ⟨hexec, _, sentEvents (clearFrames s.cfg h) s.env, hexec, State.trace_sent s _, pixels_sentEvents _ _, ?_⟩
  rw [length_sentEvents _ _ hfit.1, hlen]
  split <;> rfl

/-- Settles O39: neither a framed write nor a primitive of unit U2 raises a fault. -/
theorem spiAndDisplayNeverFault : Obligations.SpiAndDisplayNeverFault := by
  intro i s t hi hx
  suffices h : ∃ u, exec i s = .next u ∧ OkOrHangs s u by
    obtain ⟨u, hu, hok⟩ := h
    cases hu.symm.trans hx
    exact hok
  rcases hi with hd | ⟨b, rfl⟩ | ⟨l, rfl⟩ | ⟨l, rfl⟩
  · obtain ⟨⟨pre, bytes⟩, hd⟩ := Option.ne_none_iff_exists'.1 hd
    exact ⟨_, exec_display hd, (faultless_frames bytes _).okOrHangs (DisplayOnly.frames bytes _).kept.fault fun _ => 0#16⟩
  · exact ⟨_, rfl, (faultless_spiTransfer b s).okOrHangs (DisplayOnly.transfer b s).kept.fault fun u => zext16 u.spi.rx⟩
  · exact ⟨_, rfl, Flow.Faultless.okOrHangs (f := .go (assignCs l s)) trivial rfl fun _ => 0#16⟩
  · exact ⟨_, rfl, Flow.Faultless.okOrHangs (f := .go (assignDc l s)) trivial rfl fun _ => 0#16⟩

/-- Settles O40: the framed writes before the one that hangs are done, and that one's two assignments. -/
theorem displayHangKeepsItsPart : Obligations.DisplayHangKeepsItsPart := by
  intro s i pre bytes n f a hd hf hr ha hdone
  have hexec : exec i s = .next (assignCs 0#1 (assignDc f.1 ((s.emitAll pre).sent (bytes.take n)))).nextAnswer.hang := by
    rw [exec_display hd, frames_hung bytes (s.emitAll pre) n f a hf (hr.of_env rfl) ha hdone]
    rfl
  have hlen : (bytes.take n).length = n :=
    List.length_take_of_le (List.getElem?_eq_some_iff.1 hf).1.le
  refine ⟨_, hexec, ?_, rfl, rfl, rfl, rfl, rfl, rfl, rfl, rfl, ?_⟩
  · simp [State.trace, State.emitAll]
  · simp [State.emitAll, hlen]

end Sys2Proof.Machine
end

section
/-! SUPPORT. What the reference display (rule R201) makes of the framed bytes of a window and of a colour word, for either
reading of the window end. -/

namespace Sys2Proof.Machine

theorem hiByte_append_loByte (h : Half) : hiByte h ++ loByte h = h :=
  (BitVec.extractLsb'_append_extractLsb'_eq_extractLsb' rfl).trans BitVec.extractLsb'_eq_self

/-- The display with the window of a pixel set (rule R195), awaiting colour words at the window's corner. -/
def Display.atPixel (d : Display) (x y : Half) : Display := { d with
  mode := .memory, xs := some (x.toNat, (x + 1#16).toNat), ys := some (y.toNat, (y + 1#16).toNat),
  cursor := some (x.toNat, y.toNat) }

section

variable {p : Params} {incl : Bool} {d : Display} (hd : d.params = [])

include hd

/-- The column command and its two words set the columns of the window. -/
theorem Display.receive_columns (x0 x1 : Half) :
    ([(0#1, p.cmdCaset)] ++ data16 x0 ++ data16 x1).foldl (Display.receive p incl) d =
      { d with mode := .unasked, xs := some (x0.toNat, x1.toNat) } := by
  simp [data16, Display.receive, Display.command, Display.data, hd, hiByte_append_loByte]

/-- The page command and its two words set the rows of the window. -/
theorem Display.receive_rows (hcp : p.cmdCaset ≠ p.cmdPaset) (y0 y1 : Half) :
    ([(0#1, p.cmdPaset)] ++ data16 y0 ++ data16 y1).foldl (Display.receive p incl) d =
      { d with mode := .unasked, ys := some (y0.toNat, y1.toNat) } := by
  simp [data16, Display.receive, Display.command, Display.data, hd, hcp.symm, hiByte_append_loByte]

/-- The memory-write command puts the cursor at the corner of the window. -/
theorem Display.receive_ramwr (hcr : p.cmdCaset ≠ p.cmdRamwr) (hpr : p.cmdPaset ≠ p.cmdRamwr) :
    Display.receive p incl d (0#1, p.cmdRamwr) = { d with mode := .memory, cursor := d.corner } := by
  simp [Display.receive, Display.command, Display.corner, hd, hcr.symm, hpr.symm]

/-- A colour word sent to the memory is stored at the cursor. -/
theorem Display.receive_colour (hm : d.mode = .memory) (c : Half) :
    (data16 c).foldl (Display.receive p incl) d = d.store incl c := by
  have hself : { d with mode := .memory, params := [] } = d := by rw [← hd, ← hm]
  simp [data16, Display.receive, Display.data, hd, hm, hiByte_append_loByte, hself]

/-- A pixel's framed writes store its colour in the window of rule R195, from the window's corner on. -/
theorem Display.receive_pixelFrames (hcp : p.cmdCaset ≠ p.cmdPaset) (hcr : p.cmdCaset ≠ p.cmdRamwr)
    (hpr : p.cmdPaset ≠ p.cmdRamwr) (hw : p.windowRamwr = true) (x y c : Half) :
    (pixelFrames p x y c).foldl (Display.receive p incl) d = (d.atPixel x y).store incl c := by
  have hframes : pixelFrames p x y c =
      ([(0#1, p.cmdCaset)] ++ data16 x ++ data16 (x + 1#16)) ++
      (([(0#1, p.cmdPaset)] ++ data16 y ++ data16 (y + 1#16)) ++ (0#1, p.cmdRamwr) :: data16 c) := by
    simp [pixelFrames, windowFrames, hw]
  rw [hframes, List.foldl_append, Display.receive_columns hd, List.foldl_append, Display.receive_rows (by exact hd) hcp,
    List.foldl_cons, Display.receive_ramwr (by exact hd) hcr hpr, Display.receive_colour (by exact hd) rfl]
  rfl

end

/-- On the surface a pixel lies in its own window, whose ends do not wrap. -/
theorem toNat_lt_toNat_succ {x : Half} (hx : x.toNat < 128) : x.toNat < (x + 1#16).toNat := by
  bv_omega

/-- On the surface the colour of a pixel becomes a cell, and the contents stay known (rule R201). -/
theorem Display.store_atPixel {x y : Half} (hx : x.toNat < 128) (hy : y.toNat < 128) (incl : Bool) (d : Display) (c : Half) :
    ((d.atPixel x y).store incl c).cells = (x.toNat, y.toNat, c) :: d.cells ∧
    ((d.atPixel x y).store incl c).known = d.known := by
  have hcol := toNat_lt_toNat_succ hx
  have hrow := toNat_lt_toNat_succ hy
  have hin : x.toNat < (if incl then (x + 1#16).toNat + 1 else (x + 1#16).toNat) ∧
      y.toNat < (if incl then (y + 1#16).toNat + 1 else (y + 1#16).toNat) ∧
      x.toNat < Config.surfW ∧ y.toNat < Config.surfH := by
    refine ⟨?_, ?_, hx, hy⟩ <;> split <;> omega
  simp only [Display.store, Display.atPixel, if_pos hin, and_self]

end Sys2Proof.Machine
end

section
/-! A pixel on the reference display (rule R201). -/

namespace Sys2Proof.Machine

open Sys2Proof.Claims

/-- Settles O58: the pixel's framed bytes set a window with the pixel in its corner, and its colour is stored there. -/
theorem pixelLandsOnItsCell : Obligations.PixelLandsOnItsCell := by
  intro s t x y c es incl hw hcp hcr hpr hx hy hr hexec hes
  have hfit : Responsive (pixelFrames s.cfg x y c).length s := hr.mono (by rw [length_pixelFrames, if_pos hw])
  cases (exec_display_responsive (pre := [.pix x y c]) rfl hfit).symm.trans hexec
  have hshow : Display.show s.cfg incl (.pix x y c :: sentEvents (pixelFrames s.cfg x y c) s.env) =
      (Display.fresh.atPixel x y).store incl c :=
    (congrArg (List.foldl _ _) (framedBytes_sentEvents 1#1 1#1 _ _ hfit.1)).trans
      (Display.receive_pixelFrames rfl hcp hcr hpr hw x y c)
  obtain ⟨hcells, hknown⟩ := Display.store_atPixel hx hy incl Display.fresh c
  obtain rfl : es = .pix x y c :: sentEvents (pixelFrames s.cfg x y c) s.env :=
    List.append_cancel_left (hes.symm.trans (State.trace_emitAll_sent s [.pix x y c] (pixelFrames s.cfg x y c)))
  rw [hshow, Display.cell, hcells, hknown]
  simp [Display.fresh]

end Sys2Proof.Machine
end

section
/-! SUPPORT. Characters: which codes have a glyph (rules R221, R223), how many pixels one asks for and where they lie (rules R224,
R227), and how events are read off the trace. -/

namespace Sys2Proof.Machine

open Sys2Proof.Claims

/-! ### Codes -/

theorem glyphIndex?_of_toNat {c : Byte} {k : Fin 95} (h : c.toNat = k.val + 32) : glyphIndex? c = some k := by
  have hrange : Config.glyphFirst ≤ c.toNat ∧ c.toNat ≤ Config.glyphLast := by
    simp only [Config.glyphFirst, Config.glyphLast]
    omega
  rw [glyphIndex?, dif_pos hrange]
  exact congrArg some (Fin.ext (Nat.sub_eq_of_eq_add h))

theorem drawable_eq_false {c : Byte} (h : c.toNat < 32 ∨ 126 < c.toNat) : drawable c = false := by
  simp only [drawable, Bool.and_eq_false_iff, decide_eq_false_iff_not]
  omega

/-- A code without a glyph faults with nothing done (rule R223). -/
theorem drawGlyph_of_not_drawable (x y : Half) {c : Byte} (h : drawable c = false) (s : State) :
    drawGlyph x y c s = .faulted .glyphRange s := by
  rw [drawGlyph, glyphIndex?_none h]

/-- A raised fault, where none was latched, is the fault entry of the statements (rule R280). -/
theorem raise_eq_faulted {s : State} (hf : s.fault = 0#4) (c : FaultCode) : s.raise c = faulted s c.code := by
  simp only [State.raise, if_pos hf]
  cases c <;> rfl

/-! ### Events and their pixels -/

theorem State.trace_of_trRev {s t : State} {es : List Event} (h : t.trRev = es.reverse ++ s.trRev) :
    t.trace = s.trace ++ es := by
  rw [State.trace, h, List.reverse_append, List.reverse_reverse, State.trace]

theorem mem_pixels_of_mem {es : List Event} {x y c : Half} (h : .pix x y c ∈ es) : (x, y, c) ∈ pixels es :=
  List.mem_filterMap.2 ⟨_, h, rfl⟩

/-! ### The cells inside coordinate 128 -/

/-- Of `n` cells from coordinate `a` on, those up to coordinate 128 (rule R227). -/
theorem length_filter_unclipped (n a : Nat) :
    ((List.finRange n).filter fun j => a + j.val ≤ 128).length = min n (129 - a) := by
  have hle (j : Fin n) : a + j.val ≤ 128 ↔ j.val < 129 - a := by omega
  simp only [hle]
  exact Fin.card_filter_val_lt

/-- The same number for each element that passes a test, and nothing for the others. -/
theorem length_flatMap_of_filter {α β : Type} {f : α → List β} {q : α → Bool} {m : Nat}
    (h : ∀ a, (f a).length = if q a then m else 0) (l : List α) : (l.flatMap f).length = (l.filter q).length * m := by
  induction l with
  | nil => exact (Nat.zero_mul m).symm
  | cons a l ih =>
    rw [List.flatMap_cons, List.length_append, ih, h, List.filter_cons]
    by_cases ha : q a = true
    · rw [if_pos ha, if_pos ha, List.length_cons, Nat.add_mul, Nat.one_mul, Nat.add_comm]
    · rw [if_neg ha, if_neg ha, Nat.zero_add]

/-- A column that is not clipped holds as many pixels as any other (rule R227). -/
theorem length_charPixels (g : Glyphs) (fg bg x y : Half) (k : Fin 95) :
    (charPixels g fg bg x y k).length = charPixelCount x y := by
  rw [charPixels, length_flatMap_of_filter (q := fun i : Fin 5 => x.toNat + i.val ≤ 128) (m := min 8 (129 - y.toNat)),
    length_filter_unclipped, charPixelCount]
  intro i
  rw [List.length_map]
  by_cases hx : x.toNat + i.val ≤ 128
  · simpa [hx] using length_filter_unclipped 8 y.toNat
  · simp [hx]

/-- A pixel of a character lies in its cell, at an integer coordinate up to 128, so none wraps (rule R224). -/
theorem bounds_of_mem_glyphPixels {g : Glyphs} {fg bg x y px py col : Half} {c : Byte}
    (h : (px, py, col) ∈ glyphPixels g fg bg x y c) :
    x.toNat ≤ px.toNat ∧ px.toNat ≤ x.toNat + 4 ∧ px.toNat ≤ 128 ∧
    y.toNat ≤ py.toNat ∧ py.toNat ≤ y.toNat + 7 ∧ py.toNat ≤ 128 ∧ (col = fg ∨ col = bg) := by
  unfold glyphPixels at h
  split at h
  · cases h
  · obtain ⟨i, -, hi⟩ := List.mem_flatMap.1 h
    obtain ⟨j, hj, he⟩ := List.mem_map.1 hi
    obtain ⟨hx, hy⟩ : x.toNat + i.val ≤ 128 ∧ y.toNat + j.val ≤ 128 := by simpa using (List.mem_filter.1 hj).2
    obtain ⟨rfl, rfl, rfl⟩ : _ ∧ _ ∧ _ := by simpa only [Prod.mk.injEq] using he
    have hpx : (BitVec.ofNat 16 (x.toNat + i.val)).toNat = x.toNat + i.val := Nat.mod_eq_of_lt (by omega)
    have hpy : (BitVec.ofNat 16 (y.toNat + j.val)).toNat = y.toNat + j.val := Nat.mod_eq_of_lt (by omega)
    rw [hpx, hpy]
    exact ⟨by omega, by omega, hx, by omega, by omega, hy, ite_eq_or_eq _ _ _⟩

end Sys2Proof.Machine
end

section
/-! DRAW_CHAR (rules R223 to R227). -/

namespace Sys2Proof.Machine

open Sys2Proof.Claims

/-- Settles O41: the code has no glyph, and the fault is entered on the state the command found. -/
theorem drawCharOutOfRangeFaults : Obligations.DrawCharOutOfRangeFaults := by
  intro s x y c hc hf
  rw [exec, execDrawChar, drawGlyph_of_not_drawable x y (drawable_eq_false hc)]
  exact congrArg Host.Outcome.next (raise_eq_faulted hf .glyphRange)

/-- Settles O42: the character's cells are drawn one by one, and their number is counted column by column. -/
theorem drawCharDrawsItsCells : Obligations.DrawCharDrawsItsCells := by
  intro s x y c k hc hr
  obtain ⟨t, hgo, honly, ⟨es, htr, hpix, hbytes, hlen⟩, -⟩ :=
    drawGlyph_drawn x y c k s (glyphIndex?_of_toNat hc) hr
  have hexec : exec (.drawChar x y c) s = .next (t.respond 0x000000#24) := by
    rw [exec, execDrawChar, hgo]
    rfl
  obtain ⟨hi2c, hdiv, -, -, htext⟩ := exec_draw_frame hexec rfl
  have hcount := length_charPixels s.cfg.glyph s.ras.fg s.ras.bg x y k
  refine ⟨_, es, hexec, State.trace_of_trRev htr, hpix, ?_, ?_, ?_, rfl, rfl, honly.kept.fault, hi2c, htext, hdiv,
    honly.cfg, congrArg State.ras honly.same⟩
  · rw [hbytes, hpix]
    rfl
  · rw [hpix, hcount]
  · rw [hlen, hcount]

/-- Settles O43: whatever the environment does, the pixels asked for are the first few of the character's. -/
theorem drawCharStaysInItsCell : Obligations.DrawCharStaysInItsCell := by
  intro s t x y c es hexec hes px py col hmem
  obtain rfl := Host.Outcome.next.inj hexec
  obtain ⟨es', htr, hprefix, -⟩ := drawGlyph_asked x y c s
  obtain rfl : es = es' :=
    List.append_cancel_left (hes.symm.trans (State.trace_of_trRev ((conclude_trRev _ _).trans htr)))
  exact bounds_of_mem_glyphPixels (hprefix.subset (mem_pixels_of_mem hmem))

end Sys2Proof.Machine
end

section
/-! SUPPORT. DRAW_STRING up to the byte it ends at, said once for its three ends (rules R229 to R233). -/

namespace Sys2Proof.Machine

open Sys2Proof.Claims

/-- What DRAW_STRING has done once it has drawn the characters `chs` from the cursor `(x, y)` on (rules R230, R231). -/
structure StringDrawn (s : State) (x y : Half) (chs : List Byte) (t : State) : Prop where
  only   : TextOnly s t
  cursor : (t.ras.curX, t.ras.curY) = cursorAfter s.cfg.newline x y chs
  pixels : ∃ es, t.trace = s.trace ++ es ∧
    pixels es = stringPixels s.cfg.newline s.cfg.glyph s.ras.fg s.ras.bg x x y chs ∧
    framedBytes s.spi.csN s.spi.dc es = pixelBytes s.cfg (Machine.pixels es)

/-- Moving the text pointer draws nothing. -/
theorem StringDrawn.setTxtPtr {s t : State} {x y : Half} {chs : List Byte} (h : StringDrawn s x y chs t) (q : Byte) :
    StringDrawn s x y chs { t with ras.txtPtr := q } :=
  ⟨h.only.trans (.ofRas t _ rfl rfl), h.cursor, h.pixels⟩

theorem StringDrawn.raise {s t : State} {x y : Half} {chs : List Byte} (h : StringDrawn s x y chs t) (hf : s.fault = 0#4)
    (c : FaultCode) : t.raise c = faulted t c.code :=
  raise_eq_faulted (h.only.kept.fault.trans hf) c

/-- The state in which DRAW_STRING enters its loop (rule R230). -/
def State.stringStart (s : State) (x y : Half) (p : Byte) : State :=
  { s with ras := { s.ras with curX := x, curY := y, orgX := x, txtPtr := p } }

theorem exec_drawString_eq (s : State) (x y : Half) (p : Byte) : exec (.drawString x y p) s =
    .next (conclude (fun _ => okResponse 0#1 0x0000#16) (drawText (textIndices p) (s.stringStart x y p))) := rfl

theorem TextOnly.stringStart (s : State) (x y : Half) (p : Byte) : TextOnly s (s.stringStart x y p) :=
  .ofRas s _ rfl rfl

section

variable {s : State} {p : Byte} {chs : List Byte} (x y : Half) (hold : HoldsText s p chs)
  (hr : Responsive (520 * chs.length) s)

include hold hr

/-- The characters a string begins with are drawn, and its loop stands at the index after them (rule R230). -/
theorem exec_drawString_drawn : ∃ t, StringDrawn s x y chs t ∧
    (chs ≠ [] → t.ras.txtPtr = BitVec.ofNat 8 (p.toNat + chs.length - 1)) ∧
    exec (.drawString x y p) s = .next (conclude (fun _ => okResponse 0#1 0x0000#16)
      (drawText ((List.range' (p.toNat + chs.length) (256 - (p.toNat + chs.length))).map (BitVec.ofNat 8)) t)) := by
  obtain ⟨t, hloop, honly, -, hcur, hptr, ⟨es, htr, hpix, hbytes⟩, -⟩ :=
    walked chs p.toNat (s.stringStart x y p) hold.1 hold.2 hr
  refine ⟨t, ⟨(TextOnly.stringStart s x y p).trans honly, hcur.trans (walk_start _ x y chs), es,
    State.trace_of_trRev htr, hpix, hbytes _ _⟩, fun hne => ?_, ?_⟩
  · rw [hptr, if_neg hne]
  · rw [exec_drawString_eq, textIndices_eq, hloop]

/-- The byte after them, at an index of TEXT, decides what the string does next, the text pointer at it (rule R229). -/
theorem exec_drawString_at (hlt : p.toNat + chs.length ≤ 255) : ∃ t rest, StringDrawn s x y chs t ∧
    t.ras.txtPtr = BitVec.ofNat 8 (p.toNat + chs.length) ∧
    exec (.drawString x y p) s = .next (conclude (fun _ => okResponse 0#1 0x0000#16)
      (drawFrom (BitVec.ofNat 8 (p.toNat + chs.length)) rest t)) := by
  obtain ⟨t, hd, -, hexec⟩ := exec_drawString_drawn x y hold hr
  rw [indices_cons (Nat.lt_succ_of_le hlt), drawText_cons] at hexec
  exact ⟨_, _, hd.setTxtPtr _, rfl, hexec⟩

end

/-- The terminator ends a string (rule R229). -/
theorem drawFrom_terminator {q : Byte} {t : State} (h : t.readText q = 0x00#8) (rest : List Byte) :
    drawFrom q rest t = .go t := by
  rw [drawFrom, classify_terminator h]

/-- A byte a string does not go on after, other than the terminator, has no glyph (rule R233). -/
theorem drawFrom_not_drawsOn {q : Byte} {t : State} (h0 : t.readText q ≠ 0x00#8)
    (hn : ¬drawsOn t.cfg.newline (t.readText q)) (rest : List Byte) :
    drawFrom q rest t = .faulted .glyphRange t := by
  obtain ⟨hnl, hdr⟩ : t.readText q ≠ t.cfg.newline ∧ drawable (t.readText q) = false := by simpa [drawsOn, h0] using hn
  rw [drawFrom, classify_other h0 hnl]
  simp only [drawGlyph_of_not_drawable _ _ hdr, Flow.bind_faulted]

end Sys2Proof.Machine
end

section
/-! DRAW_STRING and its three ends (rules R231 to R233). -/

namespace Sys2Proof.Machine

open Sys2Proof.Claims

/-- Settles O44: the byte after the characters is the terminator. -/
theorem drawStringEndsOk : Obligations.DrawStringEndsOk := by
  intro s x y p chs hold hlt hterm hr
  obtain ⟨t, rest, hd, -, hexec⟩ := exec_drawString_at x y hold hr hlt
  rw [drawFrom_terminator ((hd.only.readText _).trans hterm)] at hexec
  obtain ⟨hi2c, hdiv, hfg, hbg, htext⟩ := exec_draw_frame hexec rfl
  obtain ⟨es, htr, hpix, hbytes⟩ := hd.pixels
  exact ⟨_, es, hexec, htr, hpix, hbytes, hd.cursor, rfl, rfl, hd.only.kept.fault, hi2c, htext, hdiv, hfg, hbg,
    hd.only.kept.cfg⟩

/-- Settles O45: no index is left after the last character, and the text pointer is still at it. -/
theorem drawStringOverrunFaults : Obligations.DrawStringOverrunFaults := by
  intro s x y p chs hold hend hr hf
  have hne : chs ≠ [] := by
    rintro rfl
    exact p.isLt.ne hend
  obtain ⟨t, hd, hptr, hexec⟩ := exec_drawString_drawn x y hold hr
  rw [hend] at hptr hexec
  replace hexec : exec (.drawString x y p) s = .next (faulted t 4#4) :=
    hexec.trans (congrArg _ (hd.raise hf .textOverrun))
  obtain ⟨hi2c, -, -, -, htext⟩ := exec_draw_frame hexec rfl
  obtain ⟨es, htr, hpix, -⟩ := hd.pixels
  exact ⟨_, es, hexec, rfl, rfl, rfl, htr, hpix, hd.cursor, hptr hne, hi2c, htext⟩

/-- Settles O46: the byte after the characters has no glyph, and the fault is entered with the text pointer at it. -/
theorem drawStringGlyphRangeFaults : Obligations.DrawStringGlyphRangeFaults := by
  intro s x y p c chs hold hlt hc h0 hn hr hf
  obtain ⟨t, rest, hd, hptr, hexec⟩ := exec_drawString_at x y hold hr hlt
  obtain rfl : t.readText (BitVec.ofNat 8 (p.toNat + chs.length)) = c := (hd.only.readText _).trans hc
  rw [← hd.only.kept.cfg] at hn
  rw [drawFrom_not_drawsOn h0 hn] at hexec
  replace hexec : exec (.drawString x y p) s = .next (faulted t 3#4) :=
    hexec.trans (congrArg _ (hd.raise hf .glyphRange))
  obtain ⟨hi2c, -, -, -, htext⟩ := exec_draw_frame hexec rfl
  obtain ⟨es, htr, hpix, -⟩ := hd.pixels
  exact ⟨_, es, hexec, rfl, rfl, rfl, htr, hpix, hd.cursor, hptr, hi2c, htext⟩

end Sys2Proof.Machine
end

section
/-! SUPPORT. The registers by number (rules R52, R53, R71) and what each system command ends with (rules R250 to R255). -/

namespace Sys2Proof.Machine

open Sys2Proof.Claims

/-! ### The fields of STATUS (rule R53) -/

/-- A field that lies wholly above the low part of a word is a field of the high part. -/
theorem field_above {v w start len : Nat} {x : BitVec v} {y : BitVec w} {z : BitVec len}
    (h : x.extractLsb' start len = z) : (x ++ y).extractLsb' (start + w) len = z := by
  rw [BitVec.extractLsb'_append_eq_of_le (Nat.le_add_left w start), Nat.add_sub_cancel, h]

theorem I2cSt.toNat_code (st : I2cSt) : st.code.toNat = match st with
    | .idle => 0 | .started => 1 | .addressed => 2 | .transferring => 3 | .stopped => 4 := by
  cases st <;> rfl

/-- STATUS is built from bit 0 up: each field is what is left at the bottom when the fields below it are taken off. -/
theorem State.status_fields (s : State) :
    s.status.extractLsb' 0 3 = s.i2c.st.code ∧ s.status.extractLsb' 3 1 = s.i2c.dir ∧
    s.status.extractLsb' 4 1 = s.i2c.ap ∧ s.status.extractLsb' 5 1 = s.i2c.ackstat ∧
    s.status.extractLsb' 6 1 = s.spi.csN ∧ s.status.extractLsb' 7 1 = s.spi.dc ∧ s.status.extractLsb' 8 8 = 0x00#8 := by
  have lowest {v w : Nat} {x : BitVec v} {y : BitVec w} : (x ++ y).extractLsb' 0 w = y :=
    BitVec.extractLsb'_append_eq_right
  exact ⟨lowest, field_above lowest, field_above (field_above lowest), field_above (field_above (field_above lowest)),
    field_above (field_above (field_above (field_above lowest))),
    field_above (field_above (field_above (field_above (field_above lowest)))),
    field_above (field_above (field_above (field_above (field_above (field_above rfl)))))⟩

/-! ### Numbers that name no register -/

/-- A number above 8 is reserved (rules R52, R252). -/
theorem State.readReg_reserved (s : State) {r : Byte} (h : 9 ≤ r.toNat) : s.readReg r = none := by
  have hne (n : Byte) (hn : n.toNat ≤ 8) : r ≠ n := by
    rintro rfl
    omega
  simp [State.readReg, hne]

/-- WR_REG may name the numbers 1 to 4 alone (rules R52, R253). -/
theorem State.writeReg_refused (s : State) {r : Byte} (h : r.toNat = 0 ∨ 5 ≤ r.toNat) (v : Half) :
    s.writeReg r v = none := by
  have hne (n : Byte) (hn : 1 ≤ n.toNat ∧ n.toNat ≤ 4) : r ≠ n := by
    rintro rfl
    omega
  simp [State.writeReg, hne]

/-! ### The words of the commands with operands -/

/-- The last three parts of a word taken together are its operand field (rule R101). -/
theorem append_operands {k m n : Nat} (op : Byte) (z : BitVec k) (a : BitVec m) (b : BitVec n) :
    op ++ z ++ a ++ b = (op ++ (z ++ a ++ b)).cast (by omega) := by
  apply BitVec.eq_of_getLsbD_eq
  intro i _
  simp only [BitVec.getLsbD_cast, BitVec.getLsbD_append]
  grind

/-! ### The two register commands by what the register file answers -/

theorem exec_rdReg_of_some {s : State} {r : Byte} {v : Half} (h : s.readReg r = some v) :
    exec (.rdReg r) s = .next { s with rsp := some (0x00#8 ++ v), busy := 0#1 } := by
  simp only [exec, execRdReg, h, State.respond, okResponse_zero]

theorem exec_rdReg_of_none {s : State} {r : Byte} (h : s.readReg r = none) (hf : s.fault = 0#4) :
    exec (.rdReg r) s = .next (faulted s 1#4) := by
  simp only [exec, execRdReg, h, raise_eq_faulted hf, FaultCode.code]

theorem exec_wrReg_of_some {s t : State} {r : Byte} {v : Half} (h : s.writeReg r v = some t) :
    exec (.wrReg r v) s = .next (ended t) := by
  simp only [exec, execWrReg, h]
  rfl

theorem exec_wrReg_of_none {s : State} {r : Byte} {v : Half} (h : s.writeReg r v = none) (hf : s.fault = 0#4) :
    exec (.wrReg r v) s = .next (faulted s 1#4) := by
  simp only [exec, execWrReg, h, raise_eq_faulted hf, FaultCode.code]

/-! ### No system command asks the environment -/

/-- A system command comes to its end, with no event and no answer used (rule R250). -/
theorem SystemCourse.quiet {s : State} {i : Instr} {f : Flow} (hc : SystemCourse s i f) :
    f.ended = true ∧ f.state.trRev = s.trRev ∧ f.state.env = s.env := by
  cases hc with
  | answers | illegal | writesText => exact ⟨rfl, rfl, rfl⟩
  | writesReg h =>
    rw [Flow.state_go, writeReg_only h]
    exact ⟨rfl, rfl, rfl⟩

end Sys2Proof.Machine
end

section
/-! The five system commands (rules R250 to R255). -/

namespace Sys2Proof.Machine

open Sys2Proof.Claims

/-- Settles O16: NOP ends with no data on the state it found. -/
theorem nopAnswersOk : Obligations.NopAnswersOk :=
  ⟨decode_of_append (i := .nop) rfl, fun _ => rfl⟩

/-- Settles O17: each number names its register, STATUS is read field by field, and a number above 8 names nothing. -/
theorem rdRegReturnsTheRegister : Obligations.RdRegReturnsTheRegister := by
  refine ⟨fun r => decode_of_append (append_operands _ _ _ _), fun s =>
    ⟨fun r v hrv => ?_, ?_, fun r hr hf => ?_, resetValues_reset.status⟩⟩
  · apply exec_rdReg_of_some
    simp only [List.mem_cons, List.not_mem_nil, or_false, Prod.mk.injEq] at hrv
    rcases hrv with ⟨rfl, rfl⟩ | ⟨rfl, rfl⟩ | ⟨rfl, rfl⟩ | ⟨rfl, rfl⟩ | ⟨rfl, rfl⟩ | ⟨rfl, rfl⟩ | ⟨rfl, rfl⟩ | ⟨rfl, rfl⟩
    all_goals rfl
  · obtain ⟨hst, hrest⟩ := s.status_fields
    exact ⟨s.status, exec_rdReg_of_some rfl, hst ▸ s.i2c.st.toNat_code, hrest⟩
  · exact exec_rdReg_of_none (s.readReg_reserved hr) hf

/-- Settles O18: each writable number is written to its register, and every other is refused. -/
theorem wrRegWritesOneRegister : Obligations.WrRegWritesOneRegister := by
  refine ⟨fun r v => decode_of_append (append_operands _ _ _ _), fun s v => ⟨exec_wrReg_of_some rfl,
    exec_wrReg_of_some rfl, exec_wrReg_of_some rfl, exec_wrReg_of_some rfl, fun r hr hf => ?_⟩⟩
  exact exec_wrReg_of_none (s.writeReg_refused hr v) hf

/-- Settles O19: the new text memory is the old one with the byte written, and reads as rule R72 says. -/
theorem txtWrStoresOneByte : Obligations.TxtWrStoresOneByte := fun s a v =>
  ⟨decode_of_append (append_operands _ _ _ _), s.text.write a.toNat v, rfl, s.readText_writeText a v⟩

/-- Settles O20: the byte read is the data of the response. -/
theorem txtRdReturnsTheByte : Obligations.TxtRdReturnsTheByte := fun _ _ =>
  ⟨decode_of_append (append_operands _ _ _ _), rfl⟩

/-- Settles O22: every course of a system command is quiet, and of the bus units it reaches the divisors alone. -/
theorem systemCommandsTouchNoBus : Obligations.SystemCommandsTouchNoBus := by
  intro i s hi
  have ho := (isSystem_iff_owner i).1 hi
  obtain ⟨rsp, f, hx, hc⟩ := exec_system ho s
  obtain ⟨hended, htr, henv⟩ := hc.quiet
  obtain ⟨hi2c, hspi, -⟩ := exec_system_frame hx ho
  refine ⟨_, hx, (conclude_busy_eq_zero rsp f).2 hended, ?_, ?_, hi2c, hspi⟩
  · simp only [State.trace, conclude_trRev, htr]
  · rw [conclude_frame]
    exact henv

end Sys2Proof.Machine
end

section
/-! The blocked block and the hung block (rules R282, R284). -/

namespace Sys2Proof.Machine

/-- A blocked block refuses a word without decoding it (rule R282). -/
theorem step_of_blocked {s : State} {w : CmdWord} (hin : s.inputs.head? = some (.command w)) (hb : s.busy = 0#1)
    (hf : s.fault ≠ 0#4) : step s = .next s.nextInput.refuseBlocked := by
  simp [step, react, present, hin, hb, hf]

/-- An accepted word that does not decode faults ILLEGAL_CMD (rule R106). -/
theorem step_of_undecodable {s : State} {w : CmdWord} {e : DecodeError} (hin : s.inputs.head? = some (.command w))
    (hb : s.busy = 0#1) (hf : s.fault = 0#4) (hd : decode w = .error e) :
    step s = .next (s.nextInput.accept.raise .illegalCmd) := by
  simp [step, react, present, hin, hb, hf, hd]

/-- Settles O8: the word is refused as it stands, and short of a reset a step that finds a fault latched does no more. -/
theorem blockedRefusesEveryWord : Obligations.BlockedRefusesEveryWord := by
  refine fun s hf => ⟨fun w rest hb hin => ?_, fun t hst hr => ?_⟩
  · rw [step_of_blocked (by rw [hin]; rfl) hb hf]
    simp only [State.refuseBlocked, State.respond, State.nextInput, hin]
    rfl
  · cases stepTo_of_step hst with
    | reset hr' => exact absurd hr' hr
    | waits | refuses => exact ⟨rfl, rfl⟩
    | illegal _ hf' | executes _ hf' => exact absurd hf' hf

/-- Settles O9: of the five things a step does, those that take a word need BUSY at 0. -/
theorem hungBlockAcceptsNothing : Obligations.HungBlockAcceptsNothing := by
  intro s hb hr
  have hne : s.busy ≠ 0#1 := by rw [hb]; decide
  rcases step_cases s with ⟨hr', -⟩ | ⟨-, -, he⟩ | ⟨w, -, hb', -⟩ | ⟨w, e, -, hb', -⟩ | ⟨w, i, -, hb', -⟩
  · exact absurd hr' hr
  · exact he
  all_goals exact absurd hb' hne

end Sys2Proof.Machine
end

section
/-! SUPPORT. Where a draw may stop short of its end (rules R223, R232, R233, R284, R285). -/

namespace Sys2Proof.Machine

/-- A course that stops short of its end in a hang, chip-select asserted, or in a fault of one of the codes (rules R273,
R274, R285). -/
def Flow.StopsBy (codes : List FaultCode) : Flow → Prop
  | .go _ => True
  | .hung t => t.spi.csN = 0#1
  | .faulted c _ => c ∈ codes

theorem Flow.StopsBy.bind {codes : List FaultCode} {f : Flow} {k : State → Flow} (hf : f.StopsBy codes)
    (hk : ∀ t, (k t).StopsBy codes) : (f.bind k).StopsBy codes := by
  cases f with
  | go t => exact hk t
  | hung t => exact hf
  | faulted c t => exact hf

theorem Flow.StopsBy.mono {codes codes' : List FaultCode} {f : Flow} (hf : f.StopsBy codes) (hc : codes ⊆ codes') :
    f.StopsBy codes' := by
  cases f with
  | go t => trivial
  | hung t => exact hf
  | faulted c t => exact hc hf

theorem Flow.StopsBy.forEach {codes : List FaultCode} {α : Type} {body : α → State → Flow}
    (hb : ∀ x t, (body x t).StopsBy codes) (xs : List α) (s : State) : (Flow.forEach body xs s).StopsBy codes := by
  induction xs generalizing s with
  | nil => trivial
  | cons x xs ih => exact (hb x s).bind ih

/-- A framed write has no fault, and hangs between its two assignments of chip-select (rules R190, R200). -/
theorem frame_stopsBy (dc : Bit) (o : Byte) (s : State) : (frame dc o s).StopsBy [] := by
  rcases frame_cases dc o s with ⟨-, h⟩ | ⟨-, h⟩ <;> rw [h]
  · trivial
  · exact (rfl : (assignCs 0#1 (assignDc dc s)).nextAnswer.spi.csN = 0#1)

theorem frames_stopsBy (l : List (Bit × Byte)) (s : State) : (frames l s).StopsBy [] := by
  induction l generalizing s with
  | nil => trivial
  | cons f l ih => exact (frame_stopsBy f.1 f.2 s).bind ih

theorem writePixel_stopsBy (x y c : Half) (s : State) : (writePixel x y c s).StopsBy [] := by
  rw [writePixel_eq]
  exact frames_stopsBy _ _

theorem drawCell_stopsBy (x y : Half) (k : Fin 95) (cell : Fin 5 × Fin 8) (s : State) :
    (drawCell x y k cell s).StopsBy [] := by
  unfold drawCell
  dsimp only
  split
  · trivial
  · exact writePixel_stopsBy _ _ _ _

theorem drawGlyph_stopsBy (x y : Half) (ch : Byte) (s : State) : (drawGlyph x y ch s).StopsBy [.glyphRange] := by
  unfold drawGlyph
  split
  next => exact List.mem_singleton_self _
  next k _ => exact (Flow.StopsBy.forEach (drawCell_stopsBy x y k) _ _).mono (List.nil_subset _)

theorem drawText_stopsBy (ps : List Byte) (s : State) : (drawText ps s).StopsBy [.glyphRange, .textOverrun] := by
  induction ps generalizing s with
  | nil => exact List.mem_cons_of_mem _ (List.mem_singleton_self _)
  | cons p ps ih =>
    rw [drawText_cons, drawFrom]
    split
    · trivial
    · exact ih _
    · exact ((drawGlyph_stopsBy _ _ _ _).mono (by simp)).bind fun _ => ih _

end Sys2Proof.Machine
end

section
/-! Fault entry and the causes of ILLEGAL_CMD (rules R106, R270, R271, R280). -/

namespace Sys2Proof.Machine

open Sys2Proof.Claims

/-! ### What a fault leaves (rule R280) -/

/-- A fault of a system or I2C command comes before any effect, so a course that faults has done no more than a draw. -/
theorem Course.textOnly_of_faulted {s u : State} {i : Instr} {c : FaultCode} (hc : Course s i (.faulted c u)) :
    TextOnly s u := by
  cases hc with
  | system h => cases h; exact .refl s
  | i2c h => cases h; exact .refl s
  | display h => exact h.textOnly

/-- What fault entry leaves after a course that has done no more than a draw (rules R270, R280). -/
theorem TextOnly.raise {s u t : State} {c : FaultCode} (h : TextOnly s u) (hf : s.fault = 0#4) (ht : u.raise c = t) :
    t.busy = 0#1 ∧ t.rsp = some (t.fault ++ 0x00000#20) ∧ t.fault.toNat ≤ 4 ∧ (∃ es, t.trace = s.trace ++ es) ∧
    t.cfg = s.cfg ∧ t.text = s.text ∧ t.i2c = s.i2c ∧ t.spi.div = s.spi.div ∧ t.ras.fg = s.ras.fg ∧
    t.ras.bg = s.ras.bg := by
  obtain rfl := (raise_eq_faulted (h.kept.fault.trans hf) c).symm.trans ht
  refine ⟨rfl, rfl, c.code_le, h.kept.trace, ?_⟩
  rw [h.same]
  exact ⟨rfl, rfl, rfl, rfl, rfl, rfl⟩

/-- Settles O15: a step latches a fault for an illegal word, with nothing done, or at the end of a course that faults. -/
theorem faultEntry : Obligations.FaultEntry := by
  intro s t hst hf ht
  cases stepTo_of_step hst with
  | reset => exact absurd rfl ht
  | waits | refuses => exact absurd hf ht
  | illegal => exact (TextOnly.refl s.nextInput.accept).raise hf rfl
  | @executes _ _ _ f hc rsp =>
    have hfault : f.state.fault = 0#4 := hc.kept.fault.trans hf
    cases f with
    | go u => exact absurd hfault ht
    | hung u => exact absurd hfault ht
    | faulted c u => exact hc.textOnly_of_faulted.raise hf rfl

/-! ### The causes of ILLEGAL_CMD (rule R271) -/

/-- RD_REG of a reserved number, or WR_REG of a reserved or read-only one (rule R271 c, d). -/
def NamesNoRegister : Instr → Prop
  | .rdReg r => 9 ≤ r.toNat
  | .wrReg r _ => r.toNat = 0 ∨ 5 ≤ r.toNat
  | _ => False

/-- A word is illegal where it does not decode (rule R106), or decodes to a command that names no register. -/
theorem illegal_iff (w : CmdWord) :
    Illegal w ↔ (∃ e, decode w = .error e) ∨ ∃ i, decode w = .ok i ∧ NamesNoRegister i := by
  refine or_congr (tableRowsDecideDecoding.2 w).symm ⟨?_, ?_⟩
  · rintro (⟨r, hd, hr⟩ | ⟨r, v, hd, hr⟩)
    · exact ⟨_, hd, hr⟩
    · exact ⟨_, hd, by simp only [NamesNoRegister]; omega⟩
  · rintro ⟨i, hd, hi⟩
    cases i
    case rdReg r => exact .inl ⟨r, hd, hi⟩
    case wrReg r v => exact .inr ⟨r, v, hd, by simp only [NamesNoRegister] at hi; omega⟩
    all_goals exact hi.elim

/-- The numbers up to 8 name a register (rules R52, R252). -/
theorem State.exists_readReg (s : State) {r : Byte} (h : r.toNat ≤ 8) : ∃ v, s.readReg r = some v := by
  have hr : r = 0#8 ∨ r = 1#8 ∨ r = 2#8 ∨ r = 3#8 ∨ r = 4#8 ∨ r = 5#8 ∨ r = 6#8 ∨ r = 7#8 ∨ r = 8#8 := by bv_omega
  rcases hr with rfl | rfl | rfl | rfl | rfl | rfl | rfl | rfl | rfl <;> exact ⟨_, rfl⟩

/-- The numbers 1 to 4 name a register that can be written (rules R52, R253). -/
theorem State.exists_writeReg (s : State) {r : Byte} (h : 1 ≤ r.toNat ∧ r.toNat ≤ 4) (v : Half) :
    ∃ t, s.writeReg r v = some t := by
  have hr : r = 1#8 ∨ r = 2#8 ∨ r = 3#8 ∨ r = 4#8 := by bv_omega
  rcases hr with rfl | rfl | rfl | rfl <;> exact ⟨_, rfl⟩

theorem exec_of_namesNoRegister {i : Instr} (hi : NamesNoRegister i) {s : State} (hf : s.fault = 0#4) :
    exec i s = .next (faulted s 1#4) := by
  cases i
  case rdReg r => exact exec_rdReg_of_none (s.readReg_reserved hi) hf
  case wrReg r v => exact exec_wrReg_of_none (s.writeReg_refused hi v) hf
  all_goals exact hi.elim

/-- Only a course that raises ILLEGAL_CMD latches its code (rule R270). -/
theorem exists_faulted_illegalCmd {rsp : State → RspWord} {f : Flow} (hf : f.state.fault = 0#4)
    (h : (conclude rsp f).fault = 1#4) : ∃ u, f = .faulted .illegalCmd u := by
  cases f with
  | go u => cases hf.symm.trans h
  | hung u => cases hf.symm.trans h
  | faulted c u =>
    have hc : c.code = 1#4 := (if_pos hf).symm.trans h
    cases c
    case illegalCmd => exact ⟨u, rfl⟩
    all_goals cases hc

/-- The course of a draw, and how it may stop. -/
theorem exec_draw_stopsBy {i : Instr} (h : ownerOf i = .raster) (s : State) : ∃ rsp f,
    exec i s = .next (conclude rsp f) ∧ f.state.fault = s.fault ∧ f.StopsBy [.glyphRange, .textOverrun] := by
  cases i
  case drawChar x y c =>
    exact ⟨_, _, rfl, (DisplayOnly.drawGlyph x y c s).kept.fault, (drawGlyph_stopsBy x y c s).mono (by simp)⟩
  case drawString x y p => exact ⟨_, _, rfl, (TextOnly.drawString x y p s).kept.fault, drawText_stopsBy _ _⟩
  all_goals cases h

/-- The commands of unit U2 are those rule R200 says never fault. -/
theorem exec_spi_fault {i : Instr} (h : ownerOf i = .spi) {s t : State} (ht : exec i s = .next t) : t.fault = s.fault := by
  refine (spiAndDisplayNeverFault i s t ?_ ht).1
  cases i
  case spiXfer b => exact .inr (.inl ⟨b, rfl⟩)
  case spiCs l => exact .inr (.inr (.inl ⟨l, rfl⟩))
  case spiDc l => exact .inr (.inr (.inr ⟨l, rfl⟩))
  case lcdCmd | lcdData | lcdData16 | setWindow | writePixel | clear => exact .inl (Option.some_ne_none _)
  all_goals cases h

/-- A command that names a register, or none at all, does not fault ILLEGAL_CMD, whoever carries it out. -/
theorem exec_fault_ne_illegalCmd {i : Instr} (hi : ¬NamesNoRegister i) {s t : State} (hf : s.fault = 0#4)
    (ht : exec i s = .next t) : t.fault ≠ 1#4 := by
  have unchanged (h : t.fault = s.fault) : t.fault ≠ 1#4 := by
    rw [h, hf]
    decide
  cases ho : ownerOf i with
  | front =>
    cases i
    case nop | txtWr | txtRd => cases ht; exact unchanged rfl
    case rdReg r =>
      obtain ⟨v, hv⟩ := s.exists_readReg (Nat.le_of_lt_succ (Nat.not_le.1 hi))
      cases (exec_rdReg_of_some hv).symm.trans ht
      exact unchanged rfl
    case wrReg r v =>
      obtain ⟨u, hu⟩ := s.exists_writeReg (r := r) (by simp only [NamesNoRegister] at hi; omega) v
      cases (exec_wrReg_of_some hu).symm.trans ht
      exact unchanged (by rw [writeReg_only hu]; rfl)
    all_goals cases ho
  | i2c =>
    obtain ⟨rsp, f, hx, hc⟩ := exec_i2c ho s
    cases hx.symm.trans ht
    intro h1
    obtain ⟨u, rfl⟩ := exists_faulted_illegalCmd ((Course.i2c (i := i) hc).kept.fault.trans hf) h1
    cases hc
  | spi => exact unchanged (exec_spi_fault ho ht)
  | raster =>
    obtain ⟨rsp, f, hx, hfault, hs⟩ := exec_draw_stopsBy ho s
    cases hx.symm.trans ht
    intro h1
    obtain ⟨u, rfl⟩ := exists_faulted_illegalCmd (hfault.trans hf) h1
    simp [Flow.StopsBy] at hs

/-- Settles O7: the word faults where the decoder or the register file refuses it, and nothing else raises the code. -/
theorem illegalCommandsFault : Obligations.IllegalCommandsFault := by
  intro s w rest hb hf hin
  have hhead : s.inputs.head? = some (.command w) := by rw [hin]; rfl
  rw [illegal_iff]
  constructor
  · intro hw
    have hst : step s = .next (faulted s.nextInput.accept 1#4) := by
      rcases hw with ⟨e, hd⟩ | ⟨i, hd, hi⟩
      · rw [step_of_undecodable hhead hb hf hd, raise_eq_faulted (s := s.nextInput.accept) hf]
        rfl
      · rw [step_of_command hhead hb hf hd, exec_of_namesNoRegister hi (s := s.nextInput.accept) hf]
    rw [hst]
    simp [faulted, State.accept, State.nextInput, hin]
  · intro hn t hst
    cases hd : decode w with
    | error e => exact absurd (.inl ⟨e, hd⟩) hn
    | ok i =>
      exact exec_fault_ne_illegalCmd (fun hi => hn (.inr ⟨i, hd, hi⟩)) (s := s.nextInput.accept) hf
        ((step_of_command hhead hb hf hd).symm.trans hst)

end Sys2Proof.Machine
end

section
/-! SUPPORT. DRAW_STRING in an environment that lets it hang: the characters before the one it hangs in, one by one (rules R229
to R231, R285). -/

namespace Sys2Proof.Machine

open Sys2Proof.Claims

/-! ### The first character and the rest -/

theorem walk_cons (nl : Byte) (org : Half) (c : Half × Half) (ch : Byte) (chs : List Byte) :
    walk nl org c (ch :: chs) = walk nl org (walk nl org c [ch]) chs := by
  by_cases h : ch = nl <;> simp [walk, h]

theorem stringPixels_cons (nl : Byte) (g : Glyphs) (fg bg org cx cy : Half) (ch : Byte) (chs : List Byte) :
    stringPixels nl g fg bg org cx cy (ch :: chs) = stringPixels nl g fg bg org cx cy [ch] ++
      stringPixels nl g fg bg org (walk nl org (cx, cy) [ch]).1 (walk nl org (cx, cy) [ch]).2 chs := by
  by_cases h : ch = nl <;> simp [stringPixels, walk, h]

theorem drawFrom_newline {q : Byte} {t : State} (h0 : t.readText q ≠ 0x00#8) (h : t.readText q = t.cfg.newline)
    (rest : List Byte) : drawFrom q rest t = drawText rest (newLine t) := by
  rw [drawFrom, classify_newline h0 h]

theorem drawFrom_other {q : Byte} {t : State} (h0 : t.readText q ≠ 0x00#8) (h : t.readText q ≠ t.cfg.newline)
    (rest : List Byte) : drawFrom q rest t =
      (drawGlyph t.ras.curX t.ras.curY (t.readText q) t).bind fun u => drawText rest (advance u) := by
  rw [drawFrom, classify_other h0 h]

/-! ### One character that is drawn -/

/-- What the loop has done from `s` to `u` in drawing the one character `ch`, whatever the environment answered (rules R230,
R231). -/
structure CharDrawn (s : State) (ch : Byte) (u : State) : Prop where
  only   : TextOnly s u
  org    : u.ras.orgX = s.ras.orgX
  cursor : (u.ras.curX, u.ras.curY) = walk s.cfg.newline s.ras.orgX (s.ras.curX, s.ras.curY) [ch]
  pixels : ∃ es, u.trRev = es.reverse ++ s.trRev ∧
    pixels es = stringPixels s.cfg.newline s.cfg.glyph s.ras.fg s.ras.bg s.ras.orgX s.ras.curX s.ras.curY [ch]

theorem newLine_charDrawn (s : State) : CharDrawn s s.cfg.newline (newLine s) where
  only := .newLine s
  org := rfl
  cursor := by simp [walk, newLine, Config.advY]
  pixels := ⟨[], rfl, by simp [stringPixels, pixels]⟩

/-- A character whose drawing goes on has asked for all its pixels, and the cursor moves past it. -/
theorem advance_charDrawn {s u : State} {ch : Byte} (hnl : ch ≠ s.cfg.newline)
    (hgo : drawGlyph s.ras.curX s.ras.curY ch s = .go u) : CharDrawn s ch (advance u) := by
  have hd := DisplayOnly.drawGlyph s.ras.curX s.ras.curY ch s
  obtain ⟨es, htr, -, hpix⟩ := drawGlyph_asked s.ras.curX s.ras.curY ch s
  rw [hgo, Flow.state_go] at hd htr
  refine ⟨hd.toText.trans (.advance u), ?_, ?_, es, htr, ?_⟩
  · rw [hd.same]
    rfl
  · rw [hd.same]
    simp [walk, advance, Config.advX, hnl]
  · rw [hpix ⟨u, hgo⟩]
    simp [stringPixels, hnl]

/-! ### The character it hangs in -/

/-- The loop, entered in `s` at text index `q`, has drawn `chs` and hangs in the drawable character `c` after them (rules R200,
R285). -/
structure HangsIn (s : State) (q : Nat) (chs : List Byte) (c : Byte) (t : State) : Prop where
  fits     : q + chs.length < 256
  reads    : ∀ k ch, (chs ++ [c])[k]? = some ch →
    s.readText (BitVec.ofNat 8 (q + k)) = ch ∧ drawsOn s.cfg.newline ch
  hasGlyph : drawable c = true
  other    : c ≠ s.cfg.newline
  cursor   : (t.ras.curX, t.ras.curY) = walk s.cfg.newline s.ras.orgX (s.ras.curX, s.ras.curY) chs
  ptr      : t.ras.txtPtr = BitVec.ofNat 8 (q + chs.length)
  asked    : ∃ es part, t.trRev = es.reverse ++ s.trRev ∧
    pixels es =
      stringPixels s.cfg.newline s.cfg.glyph s.ras.fg s.ras.bg s.ras.orgX s.ras.curX s.ras.curY chs ++ part ∧
    part <+: glyphPixels s.cfg.glyph s.ras.fg s.ras.bg t.ras.curX t.ras.curY c

/-- Where the first character hangs, the cursor and the text pointer stand at it. -/
theorem HangsIn.first {s t : State} {q : Nat} {c : Byte} (hq : q < 256) (hread : s.readText (BitVec.ofNat 8 q) = c)
    (h0 : c ≠ 0x00#8) (hdr : drawable c = true) (hnl : c ≠ s.cfg.newline) (hptr : s.ras.txtPtr = BitVec.ofNat 8 q)
    (hhung : drawGlyph s.ras.curX s.ras.curY c s = .hung t) : HangsIn s q [] c t := by
  have hd := DisplayOnly.drawGlyph s.ras.curX s.ras.curY c s
  obtain ⟨es, htr, hpix, -⟩ := drawGlyph_asked s.ras.curX s.ras.curY c s
  rw [hhung, Flow.state_hung] at hd htr
  refine ⟨hq, fun k ch hk => ?_, hdr, hnl, ?_, ?_, es, pixels es, htr, rfl, ?_⟩
  · obtain ⟨rfl, rfl⟩ : k = 0 ∧ c = ch := by
      cases k with
      | zero => exact ⟨rfl, Option.some.inj hk⟩
      | succ k => cases hk
    exact ⟨hread, h0, .inr hdr⟩
  · rw [hd.same]
    rfl
  · rw [hd.same]
    exact hptr
  · rw [hd.same]
    exact hpix

/-- A character drawn before the rest is one more of those before the hang. -/
theorem HangsIn.cons {s u t : State} {q : Nat} {ch c : Byte} {chs : List Byte} (hu : CharDrawn s ch u)
    (hread : s.readText (BitVec.ofNat 8 q) = ch) (hon : drawsOn s.cfg.newline ch) (h : HangsIn u (q + 1) chs c t) :
    HangsIn s q (ch :: chs) c t := by
  have hcfg : u.cfg = s.cfg := hu.only.kept.cfg
  have hras : u.ras.fg = s.ras.fg ∧ u.ras.bg = s.ras.bg := by
    rw [hu.only.same]
    exact ⟨rfl, rfl⟩
  obtain ⟨hfits, hreads, hdr, hnl, hcur, hptr, es', part, htr', hpix', hpart⟩ := h
  obtain ⟨es, htr, hpix⟩ := hu.pixels
  rw [hcfg] at hreads hnl hcur hpix' hpart
  rw [hras.1, hras.2] at hpix' hpart
  rw [hu.org] at hcur hpix'
  refine ⟨?_, fun k d hk => ?_, hdr, hnl, ?_, ?_, es ++ es', part, ?_, ?_, hpart⟩
  · rw [List.length_cons]
    omega
  · cases k with
    | zero =>
      obtain rfl : ch = d := Option.some.inj hk
      exact ⟨hread, hon⟩
    | succ k =>
      rw [← hu.only.readText, show q + (k + 1) = q + 1 + k by omega]
      exact hreads k d hk
  · rw [hcur, hu.cursor, ← walk_cons]
  · rw [hptr, List.length_cons, show q + 1 + chs.length = q + (chs.length + 1) by omega]
  · rw [htr', htr, List.reverse_append, List.append_assoc]
  · rw [pixels_append, hpix, hpix', stringPixels_cons _ _ _ _ _ _ _ ch chs, ← hu.cursor, List.append_assoc]

/-- Where the text pointer stood before makes no difference. -/
theorem HangsIn.of_setTxtPtr {s t : State} {q : Nat} {ch c : Byte} {chs : List Byte}
    (h : HangsIn { s with ras.txtPtr := ch } q chs c t) : HangsIn s q chs c t :=
  ⟨h.fits, h.reads, h.hasGlyph, h.other, h.cursor, h.ptr, h.asked⟩

/-- What the byte at the text pointer has to do with a hang: a character may hang itself, it and a newline lead on to the rest,
and any other byte ends the loop (rule R229). -/
theorem exists_hangsIn_of_drawFrom {q : Nat} {rest : List Byte} {s t : State} (hq : q < 256)
    (hptr : s.ras.txtPtr = BitVec.ofNat 8 q) (h : drawFrom (BitVec.ofNat 8 q) rest s = .hung t)
    (hrest : ∀ u, drawText rest u = .hung t → ∃ chs c, HangsIn u (q + 1) chs c t) : ∃ chs c, HangsIn s q chs c t := by
  obtain ⟨ch, hread⟩ : ∃ ch, s.readText (BitVec.ofNat 8 q) = ch := ⟨_, rfl⟩
  have more {u : State} (hon : drawsOn s.cfg.newline ch) (hu : CharDrawn s ch u) (h : drawText rest u = .hung t) :
      ∃ chs c, HangsIn s q chs c t := by
    obtain ⟨chs, c, hc⟩ := hrest u h
    exact ⟨ch :: chs, c, hc.cons hu hread hon⟩
  by_cases h0 : ch = 0x00#8
  · rw [drawFrom_terminator (hread.trans h0)] at h
    cases h
  by_cases hnl : ch = s.cfg.newline
  · rw [drawFrom_newline (hread ▸ h0) (hread.trans hnl)] at h
    exact more ⟨h0, .inl hnl⟩ (hnl ▸ newLine_charDrawn s) h
  rw [drawFrom_other (hread ▸ h0) (hread ▸ hnl), hread] at h
  by_cases hdr : drawable ch = true
  · cases hg : drawGlyph s.ras.curX s.ras.curY ch s with
    | go u =>
      rw [hg] at h
      exact more ⟨h0, .inr hdr⟩ (advance_charDrawn hnl hg) h
    | hung u =>
      rw [hg] at h
      cases h
      exact ⟨[], ch, .first hq hread h0 hdr hnl hptr hg⟩
    | faulted c u =>
      rw [hg] at h
      cases h
  · rw [drawGlyph_of_not_drawable _ _ (Bool.eq_false_of_not_eq_true hdr)] at h
    cases h

/-- A loop that hangs has gone on through the bytes before, and hangs in a character. -/
theorem exists_hangsIn {n q : Nat} {s t : State} (hn : q + n = 256)
    (h : drawText ((List.range' q n).map (BitVec.ofNat 8)) s = .hung t) : ∃ chs c, HangsIn s q chs c t := by
  induction n generalizing q s with
  | zero => cases h
  | succ n ih =>
    rw [List.range'_succ, List.map_cons, drawText_cons] at h
    obtain ⟨chs, c, hc⟩ := exists_hangsIn_of_drawFrom (by omega) rfl h fun u => ih (by omega)
    exact ⟨chs, c, hc.of_setTxtPtr⟩

/-- A command that ends with BUSY at 1 has hung (rule R284). -/
theorem exists_hung_of_busy {rsp : State → RspWord} {f : Flow} (h : (conclude rsp f).busy = 1#1) : ∃ u, f = .hung u := by
  cases f with
  | hung u => exact ⟨u, rfl⟩
  | go u | faulted c u => cases h

end Sys2Proof.Machine
end

section
/-! A DRAW_STRING that hangs (rules R200, R285). -/

namespace Sys2Proof.Machine

open Sys2Proof.Claims

/-- Settles O47: the loop is followed to the character it hangs in, and a hang gives no response and raises no fault. -/
theorem drawStringHangKeepsItsPart : Obligations.DrawStringHangKeepsItsPart := by
  intro s t x y p ht hb
  obtain ⟨hi2c, -, -, -, htext⟩ := exec_draw_frame ht rfl
  obtain rfl := Host.Outcome.next.inj ((exec_drawString_eq s x y p).symm.trans ht)
  obtain ⟨u, hu⟩ := exists_hung_of_busy hb
  have hcs := drawText_stopsBy (textIndices p) (s.stringStart x y p)
  have honly := (TextOnly.stringStart s x y p).trans (.drawText (textIndices p) _)
  obtain ⟨chs, c, hc⟩ := exists_hangsIn (Nat.add_sub_cancel' p.isLt.le) (textIndices_eq p ▸ hu)
  obtain ⟨hfits, hreads, hdr, hnl, hcur, hptr, es, part, htr, hpix, hpart⟩ := hc
  rw [hu] at hi2c htext hcs honly ⊢
  refine ⟨chs, c, es, part, ⟨?_, hreads⟩, hdr, hnl, State.trace_of_trRev htr, hpix, hpart,
    hcur.trans (walk_start _ x y chs), hptr, hcs, rfl, honly.kept.fault, hi2c, htext⟩
  rw [List.length_append]
  exact hfits

end Sys2Proof.Machine
end

section
/-! SUPPORT. The block does not look at what the host does next (rule R313): every command does the same whatever inputs are
to come, and leaves them as they are. -/

namespace Sys2Proof.Machine

/-- The state with other inputs to come. -/
def State.withInputs (l : List HostInput) (s : State) : State := { s with inputs := l }

section

variable (l : List HostInput)

/-! ### The courses of the units -/

theorem i2cCommand_withInputs (legal : Bool) (steps : EnvAnswer → List I2cPinOp) (event : EnvAnswer → Event)
    (after : EnvAnswer → I2cUnit → I2cUnit) (s : State) :
    i2cCommand legal steps event after (s.withInputs l) =
      (i2cCommand legal steps event after s).map (State.withInputs l) := by
  have ha : (s.withInputs l).answer = s.answer := rfl
  simp only [i2cCommand, i2cAwait, ha]
  split
  · split <;> rfl
  · rfl

theorem spiTransfer_withInputs (o : Byte) (s : State) :
    spiTransfer o (s.withInputs l) = (spiTransfer o s).map (State.withInputs l) := by
  have ha : (s.withInputs l).answer = s.answer := rfl
  simp only [spiTransfer, ha]
  split <;> rfl

theorem frame_withInputs (dc : Bit) (o : Byte) (s : State) :
    frame dc o (s.withInputs l) = (frame dc o s).map (State.withInputs l) :=
  (congrArg (Flow.bind · _) (spiTransfer_withInputs l o (assignCs 0#1 (assignDc dc s)))).trans
    (Flow.bind_map (fun _ => rfl) _)

theorem frames_withInputs (fs : List (Bit × Byte)) (s : State) :
    frames fs (s.withInputs l) = (frames fs s).map (State.withInputs l) :=
  Flow.forEach_map (fun f => frame_withInputs l f.1 f.2) fs s

theorem writePixel_withInputs (x y c : Half) (s : State) :
    writePixel x y c (s.withInputs l) = (writePixel x y c s).map (State.withInputs l) := by
  rw [writePixel_eq, writePixel_eq]
  exact frames_withInputs l (pixelFrames s.cfg x y c) (s.emit (.pix x y c))

theorem drawCell_withInputs (x y : Half) (k : Fin 95) (cell : Fin 5 × Fin 8) (s : State) :
    drawCell x y k cell (s.withInputs l) = (drawCell x y k cell s).map (State.withInputs l) := by
  simp only [drawCell]
  split
  · rfl
  · exact writePixel_withInputs l _ _ _
      { s with ras.col := BitVec.ofNat 3 cell.1.val, ras.row := BitVec.ofNat 3 cell.2.val }

theorem drawGlyph_withInputs (x y : Half) (code : Byte) (s : State) :
    drawGlyph x y code (s.withInputs l) = (drawGlyph x y code s).map (State.withInputs l) := by
  unfold drawGlyph
  cases glyphIndex? code with
  | none => rfl
  | some k => exact Flow.forEach_map (drawCell_withInputs l x y k) glyphCells { s with ras.gidx := BitVec.ofNat 7 k.val }

theorem drawText_withInputs (ps : List Byte) (s : State) :
    drawText ps (s.withInputs l) = (drawText ps s).map (State.withInputs l) := by
  induction ps generalizing s with
  | nil => rfl
  | cons p ps ih =>
    have hfrom (t : State) : drawFrom p ps (t.withInputs l) = (drawFrom p ps t).map (State.withInputs l) := by
      have hcfg : (t.withInputs l).cfg = t.cfg := rfl
      have hch : (t.withInputs l).readText p = t.readText p := rfl
      simp only [drawFrom, hcfg, hch]
      cases classify t.cfg (t.readText p) with
      | terminator => rfl
      | newline => exact ih (newLine t)
      | other =>
        exact (congrArg (Flow.bind · _) (drawGlyph_withInputs l t.ras.curX t.ras.curY _ t)).trans
          (Flow.bind_map (fun u => ih (advance u)) _)
    exact hfrom { s with ras.txtPtr := p }

/-! ### Commands, and the words presented -/

theorem writeReg_withInputs (r : Byte) (v : Half) (s : State) :
    (s.withInputs l).writeReg r v = (s.writeReg r v).map (State.withInputs l) := by
  simp only [State.writeReg, apply_ite (Option.map (State.withInputs l))]
  rfl

variable {l} {s t : State}

/-- The end of a course, the response not looking at the inputs either. -/
theorem conclude_withInputs {f f' : Flow} {rsp : State → RspWord} (hf : f' = f.map (State.withInputs l))
    (hrsp : ∀ u, rsp (State.withInputs l u) = rsp u)
    (ht : .next (conclude rsp f) = (.next t : Host.Outcome State Fault Refusal)) :
    (.next (conclude rsp f') : Host.Outcome State Fault Refusal) = .next (t.withInputs l) := by
  cases ht
  subst hf
  cases f with
  | go u => exact congrArg (fun w => Host.Outcome.next ((u.withInputs l).respond w)) (hrsp u)
  | hung u | faulted c u => rfl

theorem exec_withInputs {i : Instr} (ht : exec i s = .next t) : exec i (s.withInputs l) = .next (t.withInputs l) := by
  cases i
  case nop | txtWr | txtRd | spiCs | spiDc => cases ht; rfl
  case rdReg r =>
    have hread : (s.withInputs l).readReg r = s.readReg r := rfl
    obtain rfl := Host.Outcome.next.inj ht
    simp only [exec, execRdReg, hread]
    cases s.readReg r <;> rfl
  case wrReg r v =>
    obtain rfl := Host.Outcome.next.inj ht
    simp only [exec, execWrReg, writeReg_withInputs]
    cases s.writeReg r v <;> rfl
  case i2cStart | i2cRestart | i2cSend | i2cRecv | i2cAck | i2cStop =>
    exact conclude_withInputs (i2cCommand_withInputs l _ _ _ _ s) (fun _ => rfl) ht
  case spiXfer b => exact conclude_withInputs (spiTransfer_withInputs l b s) (fun _ => rfl) ht
  case lcdCmd b | lcdData b => exact conclude_withInputs (frame_withInputs l _ b s) (fun _ => rfl) ht
  case lcdData16 h => exact conclude_withInputs (frames_withInputs l (data16 h) s) (fun _ => rfl) ht
  case setWindow x0 y0 x1 y1 =>
    exact conclude_withInputs (frames_withInputs l (windowFrames s.cfg x0 y0 x1 y1) s) (fun _ => rfl) ht
  case writePixel x y c => exact conclude_withInputs (writePixel_withInputs l x y c s) (fun _ => rfl) ht
  case clear h =>
    refine conclude_withInputs ?_ (fun _ => rfl) ht
    rw [clear_eq, clear_eq]
    exact frames_withInputs l (clearFrames s.cfg h) s
  case drawChar x y c => exact conclude_withInputs (drawGlyph_withInputs l x y c s) (fun _ => rfl) ht
  case drawString x y p =>
    exact conclude_withInputs (drawText_withInputs l (textIndices p) (s.stringStart x y p)) (fun _ => rfl) ht

theorem present_withInputs {w : CmdWord} (ht : present w s = .next t) :
    present w (s.withInputs l) = .next (t.withInputs l) := by
  have hbusy : (s.withInputs l).busy = s.busy := rfl
  have hfault : (s.withInputs l).fault = s.fault := rfl
  revert ht
  simp only [present, hbusy, hfault]
  split
  · rintro ⟨⟩; rfl
  split
  · rintro ⟨⟩; rfl
  cases decode w with
  | error e => rintro ⟨⟩; rfl
  | ok i => exact exec_withInputs

/-- A step is the same for a host that shows one word at a time and for one whose further words stand ready. -/
theorem step_of_facing {w : CmdWord} (ht : step (s.facing w) = .next t) :
    step (s.withInputs (.command w :: l)) = .next (t.withInputs l) :=
  present_withInputs (s := s.withInputs []) ht

/-- The one word shown is taken, and nothing is left to come. -/
theorem inputs_of_facing {w : CmdWord} (ht : step (s.facing w) = .next t) : t.inputs = [] := by
  have htake : Host.Outcome.next t = .next (t.withInputs []) := ht.symm.trans (step_of_facing ht)
  exact congrArg State.inputs (Host.Outcome.next.inj htake)

end

theorem State.withInputs_nil {s : State} (h : s.inputs = []) : s.withInputs [] = s := by rw [← h]; rfl

end Sys2Proof.Machine
end

section
/-! The adaptive host (rules R313, R314). -/

namespace Sys2Proof.Machine

section

variable {h : AdaptiveHost} {n : Nat} {rs : List RspWord} {s t : State} {w : CmdWord}

/-! ### One choice of the host, and one word of a list -/

theorem AdaptiveHost.observe_of_finishes (hw : h rs = none) : h.observe (n + 1) rs s = ⟨rs, s.trace, s.ending⟩ := by
  simp [AdaptiveHost.observe, hw]

theorem AdaptiveHost.observe_of_answered {r : RspWord} (hw : h rs = some w) (ht : step (s.facing w) = .next t)
    (hr : t.rsp = some r) : h.observe (n + 1) rs s = h.observe n (rs ++ [r]) t := by
  simp [AdaptiveHost.observe, hw, ht, hr]

theorem AdaptiveHost.observe_of_unanswered (hw : h rs = some w) (ht : step (s.facing w) = .next t) (hr : t.rsp = none) :
    h.observe (n + 1) rs s = ⟨rs, t.trace, t.ending⟩ := by
  simp [AdaptiveHost.observe, hw, ht, hr]

/-- A run of no more commands that has ended is observed as it stands. -/
theorem AdaptiveHost.observe_zero_of_ended (hend : (h.observe 0 rs s).ending ≠ .running) :
    h.observe 0 rs s = ⟨rs, s.trace, s.ending⟩ :=
  congrArg (Observation.mk rs s.trace) (if_neg fun hc => hend (if_pos hc))

theorem observe_withInputs_nil (hin : s.inputs = []) : observe 0 rs (s.withInputs []) = ⟨rs, s.trace, s.ending⟩ := by
  rw [State.withInputs_nil hin, observe]

theorem observe_withInputs_cons (ht : step (s.facing w) = .next t) (l : List HostInput) :
    observe (n + 1) rs (s.withInputs (.command w :: l)) = observe n (rs ++ t.rsp.toList) (t.withInputs l) := by
  rw [observe, step_of_facing ht]
  rfl

end

/-- The run from any point on: the list is the host's choices, up to its end or to the word that is not answered. -/
theorem AdaptiveHost.exists_list (h : AdaptiveHost) {n : Nat} {rs : List RspWord} {s : State} (hin : s.inputs = [])
    (hend : (h.observe n rs s).ending ≠ .running) :
    ∃ ws : List CmdWord, ws.length ≤ n ∧
      Machine.observe ws.length rs (s.withInputs (ws.map HostInput.command)) = h.observe n rs s := by
  induction n generalizing rs s with
  | zero => exact ⟨[], le_rfl, (observe_withInputs_nil hin).trans (observe_zero_of_ended hend).symm⟩
  | succ n ih =>
    cases hw : h rs with
    | none => exact ⟨[], Nat.zero_le _, (observe_withInputs_nil hin).trans (observe_of_finishes hw).symm⟩
    | some w =>
      obtain ⟨t, ht⟩ := everyStepAnswersNext (s.facing w)
      have hint := inputs_of_facing ht
      cases hr : t.rsp with
      | none =>
        refine ⟨[w], Nat.succ_le_succ (Nat.zero_le n), ?_⟩
        calc Machine.observe 1 rs (s.withInputs [.command w])
          _ = Machine.observe 0 (rs ++ t.rsp.toList) (t.withInputs []) := observe_withInputs_cons ht []
          _ = ⟨rs, t.trace, t.ending⟩ := by simp [observe_withInputs_nil hint, hr]
          _ = h.observe (n + 1) rs s := (observe_of_unanswered hw ht hr).symm
      | some r =>
        have hstep : h.observe (n + 1) rs s = h.observe n (rs ++ [r]) t := observe_of_answered hw ht hr
        obtain ⟨ws, hlen, hws⟩ := ih hint (hstep ▸ hend)
        refine ⟨w :: ws, Nat.succ_le_succ hlen, ?_⟩
        calc Machine.observe (ws.length + 1) rs (s.withInputs (.command w :: ws.map HostInput.command))
          _ = Machine.observe ws.length (rs ++ t.rsp.toList) (t.withInputs (ws.map HostInput.command)) :=
            observe_withInputs_cons ht _
          _ = h.observe n (rs ++ [r]) t := by rw [hr]; exact hws
          _ = h.observe (n + 1) rs s := hstep.symm

/-- Settles O60: the run from its beginning, no response given yet. -/
theorem adaptiveHostIsAList : Obligations.AdaptiveHostIsAList :=
  fun h _ _ hin hend => h.exists_list hin hend

end Sys2Proof.Machine
end
